-- ==== Sys2Proof/Word.lean ====
section
/-!
DEFINITION. The word types of the EGC: bytes, 32-bit operands (R5), 64-bit command words (R90) and
bit strings in transmission order (R11).
-/

namespace Sys2Proof

/-- One byte of a sink write or of a source answer. -/
abbrev Byte := BitVec 8

/-- A value that crosses the command interface: an s32 or a u32 (R5). -/
abbrev Word32 := BitVec 32

/-- One command word on the command port (R90). -/
abbrev CmdWord := BitVec 64

/-- A bit string, its first bit the first transmitted (R11). -/
abbrev Bits := List Bool

end Sys2Proof
end

