-- ==== Sys2Proof/Config.lean ====
section
/-!
DEFINITION. What the spec fixes for every EGC (R4, R6) and the free values: the contents of the
registers that the spec calls unspecified after a decoder start (R166, R250; log 3).
-/

namespace Sys2Proof

/-- MAXMAG = 2^31 - 2, the largest magnitude of the valid domain (R6). -/
def Config.maxMag : Int := 2147483646

/-- NBITS_MAX = 30, the largest magnitude class of an in-domain value (R6). -/
def Config.nbitsMax : Nat := 30

/-- The default accumulator width W = 64, in bytes (R4). The width a machine is built with stands in
the state's field `wordBytes` (log 1). -/
def Config.defaultWordBytes : Nat := 8

/-- What BYTE holds after the k-th start that leaves it unspecified (R166): a free value. -/
opaque Config.freeByte : Nat → Byte

/-- What MAG holds after the k-th start that leaves it unspecified (R166): a free value. -/
opaque Config.freeMag : Nat → BitVec 31

/-- What SREM holds after the k-th start that leaves it unspecified (R166): a free value of the
register's 5 bits. -/
opaque Config.freeSrem : Nat → BitVec 5

end Sys2Proof
end

