-- ==== Sys2Proof/Syntax.lean ====
section
/-!
DEFINITION. The instructions: one constructor per row of spec/opcode_table.json, which are the ten
commands of R92 and the two codeword formats of R80.
-/

namespace Sys2Proof

/-- The ten commands (R92) and the two codeword formats of the data stream (R80). -/
inductive Instr where
  /-- ENC_INIT (R135). -/
  | encInit
  /-- ENC_ONE v (R136); `v` is an s32. -/
  | encOne (v : Word32)
  /-- ENC_FINISH (R137). -/
  | encFinish
  /-- DEC_INIT (R166). -/
  | decInit
  /-- DEC N (R167); `n` is a u32. -/
  | dec (n : Word32)
  /-- DENC_START start (R190); `start` is an s32. -/
  | dencStart (start : Word32)
  /-- DENC_VAL v (R191); `v` is an s32. -/
  | dencVal (v : Word32)
  /-- DDEC_START base (R193); `base` is an s32. -/
  | ddecStart (base : Word32)
  /-- DDEC N (R194); `n` is a u32. -/
  | ddec (n : Word32)
  /-- STATUS_READ (R212). -/
  | statusRead
  /-- Codeword format Z, the single bit `1` (R80). -/
  | cwZero
  /-- Codeword format N: class `n`, the `n` magnitude bits MBITS as a number, and the sign bit
  (R80). -/
  | cwNonzero (n mbits : Nat) (sign : Bool)
deriving DecidableEq, Repr

end Sys2Proof
end

