-- ==== Sys2Proof/WellFormed.lean ====
section
/-!
DEFINITION. Which instructions the encodings can express: every command with every operand of 32
bits (R90, R91), and the codewords of the classes 1 to 30 with n magnitude bits (R80).
-/

namespace Sys2Proof

/-- The fields fit their encodings. A codeword of format N has a class from 1 to NBITS_MAX, and
its MBITS fit the class's width (R80). -/
def Instr.wellFormed : Instr → Bool
  | .encInit => true
  | .encOne _ => true
  | .encFinish => true
  | .decInit => true
  | .dec _ => true
  | .dencStart _ => true
  | .dencVal _ => true
  | .ddecStart _ => true
  | .ddec _ => true
  | .statusRead => true
  | .cwZero => true
  | .cwNonzero n mbits _ =>
    decide (1 ≤ n) && decide (n ≤ Config.nbitsMax) && decide (mbits < 2 ^ n)

/-- The constructor stands for a command of the command port (R92) and not for a codeword. -/
def Instr.isCommand : Instr → Bool
  | .encInit => true
  | .encOne _ => true
  | .encFinish => true
  | .decInit => true
  | .dec _ => true
  | .dencStart _ => true
  | .dencVal _ => true
  | .ddecStart _ => true
  | .ddec _ => true
  | .statusRead => true
  | .cwZero => false
  | .cwNonzero _ _ _ => false

end Sys2Proof
end

