-- ==== Sys2Proof/Decode.lean ====
section
/-!
DEFINITION. The two encodings (30_encoding.md): the decoder of command words, which rejects every
illegal word by name (R90 to R93), the parser of stream codewords by their prefix (R80, R83), and
after them the encoder. The codeword's bits are numbered from the first bit transmitted.
-/

namespace Sys2Proof

/-- Why bits are no instruction. The first three are the illegal command words of R93 (a), (b) and
(c); the others concern a bit string that is not exactly one codeword (R83, R84). -/
inductive DecodeError where
  /-- R93 (a): OP is not in the opcode map. -/
  | badOpcode (op : BitVec 8)
  /-- R93 (b): RSV is not 0. -/
  | reservedNonzero
  /-- R93 (c): IMM is not 0 for a command without an operand. -/
  | operandNonzero
  /-- R84: 31 or more prefix zeros begin no codeword. -/
  | overlongPrefix
  /-- The bits end inside a codeword. -/
  | truncated
  /-- Bits follow the codeword. -/
  | trailing
deriving DecidableEq, Repr

/-- OP, bits 63:56 of a command word (R90). -/
def opField (w : CmdWord) : BitVec 8 := w.extractLsb' 56 8

/-- RSV, bits 55:32 of a command word (R90). -/
def rsvField (w : CmdWord) : BitVec 24 := w.extractLsb' 32 24

/-- IMM, bits 31:0 of a command word (R90). -/
def immField (w : CmdWord) : Word32 := w.extractLsb' 0 32

/-- The shape of an opcode's row: with no operand, or with the operand of IMM. -/
inductive OpcodeForm where
  | plain (i : Instr)
  | operand (mk : Word32 → Instr)

/-- The opcode map (R92). -/
def opcodeForm (op : BitVec 8) : Option OpcodeForm :=
  match op.toNat with
  | 0x01 => some (.plain .encInit)
  | 0x02 => some (.operand .encOne)
  | 0x03 => some (.plain .encFinish)
  | 0x04 => some (.plain .decInit)
  | 0x05 => some (.operand .dec)
  | 0x06 => some (.operand .dencStart)
  | 0x07 => some (.operand .dencVal)
  | 0x08 => some (.operand .ddecStart)
  | 0x09 => some (.operand .ddec)
  | 0x0A => some (.plain .statusRead)
  | _ => none

/-- The decoder of command words: OP must match exactly, RSV must be 0, and IMM must be 0 for a
command without an operand (R92, R93). -/
def decodeCommand (w : CmdWord) : Except DecodeError Instr :=
  match opcodeForm (opField w) with
  | none => .error (.badOpcode (opField w))
  | some form =>
    if rsvField w ≠ 0 then .error .reservedNonzero
    else
      match form with
      | .plain i => if immField w ≠ 0 then .error .operandNonzero else .ok i
      | .operand mk => .ok (mk (immField w))

/-- bits_k(x): the k low bits of `x`, the most significant first (R11). -/
def bitsOf : Nat → Nat → Bits
  | 0, _ => []
  | k + 1, x => x.testBit k :: bitsOf k x

/-- The number a bit string spells, its first bit the most significant (R11). -/
def valueOf (b : Bits) : Nat := b.foldl (fun a x => 2 * a + x.toNat) 0

/-- The leading zero bits of a bit string, counted, and what follows them (R83). -/
def splitZeros : Bits → Nat × Bits
  | false :: bs => ((splitZeros bs).1 + 1, (splitZeros bs).2)
  | bs => (0, bs)

/-- The parser of the next codeword, by its prefix alone (R83): no prefix zero is format Z; `n`
prefix zeros and the delimiter are followed by `n` magnitude bits and the sign bit; 31 or more
prefix zeros begin no codeword (R84). What follows the codeword is returned. -/
def decodeStream (b : Bits) : Except DecodeError (Instr × Bits) :=
  let n := (splitZeros b).1
  if Config.nbitsMax < n then .error .overlongPrefix
  else
    match (splitZeros b).2 with
    | [] => .error .truncated
    | _ :: body =>
      if n = 0 then .ok (.cwZero, body)
      else
        match body.drop n with
        | [] => .error .truncated
        | sign :: rest => .ok (.cwNonzero n (valueOf (body.take n)) sign, rest)

/-- The bits of an instruction as they travel: a command word on the command port, or the bits of
a codeword in the stream (the two encodings of 30_encoding.md). -/
inductive Wire where
  | command (w : CmdWord)
  | stream (b : Bits)
deriving DecidableEq, Repr

/-- The decoder of either encoding. -/
def decode : Wire → Except DecodeError Instr
  | .command w => decodeCommand w
  | .stream b =>
    match decodeStream b with
    | .error e => .error e
    | .ok (i, []) => .ok i
    | .ok (_, _ :: _) => .error .trailing

/-- A command word from its OP and IMM, with RSV = 0: `(OP << 56) | IMM` (R90, R97). -/
def commandWord (op : BitVec 8) (imm : Word32) : CmdWord :=
  (op.setWidth 64 <<< 56) ||| imm.setWidth 64

/-- Format N: PREFIX, DELIM, MBITS, SIGN (R80). -/
def codewordBits (n mbits : Nat) (sign : Bool) : Bits :=
  List.replicate n false ++ true :: (bitsOf n mbits ++ [sign])

/-- The encoder: each command's word (R92) and each codeword's bits (R80). -/
def encode : Instr → Wire
  | .encInit => .command (commandWord 0x01 0)
  | .encOne v => .command (commandWord 0x02 v)
  | .encFinish => .command (commandWord 0x03 0)
  | .decInit => .command (commandWord 0x04 0)
  | .dec n => .command (commandWord 0x05 n)
  | .dencStart start => .command (commandWord 0x06 start)
  | .dencVal v => .command (commandWord 0x07 v)
  | .ddecStart base => .command (commandWord 0x08 base)
  | .ddec n => .command (commandWord 0x09 n)
  | .statusRead => .command (commandWord 0x0A 0)
  | .cwZero => .stream [true]
  | .cwNonzero n mbits sign => .stream (codewordBits n mbits sign)

/-- The length of an encoding in bits. -/
def Wire.bitLength : Wire → Nat
  | .command _ => 64
  | .stream b => b.length

/-- The bits of a byte list, each byte's bit 7 first (R54). -/
def bitsOfBytes (bs : List Byte) : Bits := bs.flatMap fun b => bitsOf 8 b.toNat

/-- A bit string as bytes, each byte's bit 7 first, the last byte filled with zero bits (R53). -/
def packBytes (b : Bits) : List Byte :=
  (List.range ((b.length + 7) / 8)).map fun j =>
    BitVec.ofNat 8 (valueOf ((b.drop (8 * j) ++ List.replicate 8 false).take 8))

/-- A row of the opcode table given in fewer than 64 bits is a codeword: bit i of `w` is its
position i (R80), and the positions from `nbits` up to the longest codeword's 62 are 0 (log 14). -/
def tableCodewordBits (nbits w : Nat) : Bits :=
  (List.range 62).map fun i => decide (i < nbits) && w.testBit i

/-- What the decoder reads from an instruction numbered as spec/opcode_table.json numbers it: a
command word for 64 bits, a codeword for fewer (log 14). -/
def decodeTableWord (nbits w : Nat) : Option Instr :=
  if nbits < 64 then
    match decodeStream (tableCodewordBits nbits w) with
    | .ok (i, _) => some i
    | .error _ => none
  else
    match decodeCommand (BitVec.ofNat 64 w) with
    | .ok i => some i
    | .error _ => none

end Sys2Proof
end

