-- ==== Sys2Proof/Machine/State.lean ====
section
/-!
DEFINITION. The state of the EGC (10_state.md) as plain data: the registers of its two units, the
channels of R39, the command that holds on a collaborator (R227), and the model's fault record
(R222). Then the state after reset (R250) and the two kinds of stop.
-/

namespace Sys2Proof.Machine

/-- The faults of the encoder unit (R222). -/
inductive EncFault where
  /-- Code 1, ENC_RANGE. -/
  | range
  /-- Code 2, ENC_AFTER_FIN. -/
  | afterFin
  /-- Code 3, SINK_IO. -/
  | sinkIo
deriving DecidableEq, Repr

/-- The faults of the decoder unit (R222). -/
inductive DecFault where
  /-- Code 1, DEC_OVERLONG. -/
  | overlong
  /-- Code 2, SRC_IO. -/
  | srcIo
  /-- Code 3, SUM_OVF. -/
  | sumOvf
deriving DecidableEq, Repr

/-- A fault of one of the two units. -/
inductive UnitFault where
  | enc (f : EncFault)
  | dec (f : DecFault)
deriving DecidableEq, Repr

/-- What the model records of a fault: the rule that raised it, the command's index, and the fault
(R222). -/
structure FaultRecord where
  rule : Nat
  cpc : Nat
  fault : UnitFault
deriving DecidableEq, Repr

/-- The parse states (R30). The 2-bit value 3 is never entered and is no value here (log 17). -/
inductive DState where
  /-- 0, CountingZeros. -/
  | cz
  /-- 1, ShiftingBits. -/
  | sb
  /-- 2, ReadingSign. -/
  | rs
deriving DecidableEq, Repr

/-- `rc` of a response (R96). -/
inductive Rc where
  /-- 0 -/
  | ok
  /-- 1 -/
  | fault
  /-- 2 -/
  | illegal
deriving DecidableEq, Repr

/-- A response (R96); every field is 0 or empty unless the rule of the command gives it. -/
structure Response where
  rc : Rc := .ok
  fcode : BitVec 4 := 0
  count : Nat := 0
  /-- 0 = FULL, 1 = EXHAUSTED. -/
  dstat : Bool := false
  values : List Word32 := []
  word : Word32 := 0
deriving DecidableEq, Repr

/-- An answer to a `SourceRead()` (R51). -/
inductive SrcAnswer where
  | byte (b : Byte)
  | eof
  | err
deriving DecidableEq, Repr

/-- An answer to a `SinkWrite` or `SinkFlush()` (R14). A failing write has appended the first
`landed` of its bytes, a draw of the environment (R60); for a flush `landed` says nothing. -/
inductive SinkAnswer where
  | ok
  | err (landed : Nat)
deriving DecidableEq, Repr

/-- An event of a channel (R10, R50, R51). -/
inductive Event where
  | response (r : Response)
  | sinkWrite (bs : List Byte)
  | sinkFlush
  | sourceRead (a : SrcAnswer)
deriving DecidableEq, Repr

/-- Where a command in progress holds on a collaborator that has not answered (R227), with what the
rest of the command needs. -/
inductive Held where
  /-- `FlushWord` inside ENC_ONE or DENC_VAL: the bits still to append, the codeword's length, and
  the value PREV takes at the end (none for ENC_ONE). -/
  | word (rest : Bits) (count : Nat) (newPrev : Option Word32)
  /-- The `SinkWrite` of ENC_FINISH. -/
  | tail
  /-- The `SinkFlush()` of ENC_FINISH, with the number of bytes written before it. -/
  | flush (nb : Nat)
  /-- A `SourceRead()` of DEC (`delta` false) or DDEC (`delta` true) with buffer length `n`. -/
  | read (n : Nat) (delta : Bool)
deriving DecidableEq, Repr

/-- The encoder unit (R20), for an accumulator of `8 * wordBytes` bits. -/
structure EncUnit (wordBytes : Nat) where
  /-- ACC (R21). -/
  acc : BitVec (8 * wordBytes)
  /-- REM (R22). -/
  rem : Nat
  /-- PREV, an s32 (R24). -/
  prev : Word32
  /-- EFIN (R23). -/
  efin : Bool
  /-- EFAULT; none is code 0 (R37). -/
  efault : Option EncFault
deriving DecidableEq, Repr

/-- The decoder unit (R25). -/
structure DecUnit where
  /-- BYTE (R26). -/
  byte : Byte
  /-- BITS_LEFT (R26). -/
  bitsLeft : Nat
  /-- DSTATE (R30). -/
  dstate : DState
  /-- ZRUN (R27). -/
  zrun : Nat
  /-- MAG (R28). -/
  mag : BitVec 31
  /-- SREM (R29). -/
  srem : Nat
  /-- BASE, an s32 (R31). -/
  base : Word32
  /-- DEXH (R37). -/
  dexh : Bool
  /-- DFAULT; none is code 0 (R37). -/
  dfault : Option DecFault
deriving DecidableEq, Repr

/-- The machine: its two units, STATUS.ILL, the command port, the collaborators' answers to come,
the channel events so far, and what the model keeps of a command in progress. -/
structure State where
  /-- W / 8: the build parameter W (R4, R46), which no step writes (log 1). -/
  wordBytes : Nat
  /-- The encoder unit (R20). -/
  enc : EncUnit wordBytes
  /-- The decoder unit (R25). -/
  dec : DecUnit
  /-- STATUS.ILL (R37). -/
  ill : Bool
  /-- The host program (R211). -/
  program : List CmdWord
  /-- The index of the next command, or of the one in progress (R34). -/
  cpc : Nat
  /-- The command in progress that holds on a collaborator, if one does (R227). -/
  held : Option Held
  /-- The sink's answers to come; when none is left the sink does not answer (log 7, log 8). -/
  sinkAnswers : List SinkAnswer
  /-- The source's answers to come; when none is left the source does not answer (log 6, log 8). -/
  srcAnswers : List SrcAnswer
  /-- The channel events so far, oldest first (R10, R63). -/
  trace : List Event
  /-- The values of STATUS so far, oldest first: that at reset, and one after each response and each
  reset (R10 (4); the instants are the model's choice, log 25). -/
  statusValues : List Word32
  /-- The output list of the current DEC or DDEC command (R39 (d), R52). -/
  out : List Word32
  /-- Every fault raised so far, oldest first (R222, R225). -/
  faultLog : List FaultRecord
  /-- The reset input (R250). -/
  resetIn : Bool
  /-- The model's own count of the free values used (log 4). -/
  freeCount : Nat
deriving DecidableEq, Repr

/-- A stop of the machine by a fault: there is none. Every fault of the EGC ends its command with a
response and the machine goes on (R220, R224). -/
inductive Fault
deriving DecidableEq, Repr

/-- A step with no meaning. -/
inductive Refusal where
  /-- Raised by an arm of `exec` whose instruction has no meaning yet, by the table's mnemonic;
  safe. No arm of this model raises it. -/
  | notModelled (mnemonic : String)
  /-- Raised by every command that is executed while another command is in progress: commands
  never overlap, and a model that admits them refuses them (R221, I18); safe. `step` never
  raises it. -/
  | commandInProgress
deriving DecidableEq, Repr

/-- The EGC right after reset (R250, R251), with W = 64 (R4), no host program and no answer of a
collaborator yet (log 6, log 7, log 11). BYTE, MAG and SREM are unspecified: the model names 0
(log 2). -/
def State.reset : State where
  wordBytes := Config.defaultWordBytes
  enc := { acc := 0, rem := 64, prev := 0, efin := false, efault := none }
  dec :=
    { byte := 0, bitsLeft := 0, dstate := .cz, zrun := 0, mag := 0, srem := 0, base := 0,
      dexh := false, dfault := none }
  ill := false
  program := []
  cpc := 0
  held := none
  sinkAnswers := []
  srcAnswers := []
  trace := []
  statusValues := [0]
  out := []
  faultLog := []
  resetIn := false
  freeCount := 0

end Sys2Proof.Machine
end

