-- ==== Sys2Proof/Machine/Operands.lean ====
section
/-!
DEFINITION. The operand forms (R91) and the exact-integer range checks (R13, R115, R194).
-/

namespace Sys2Proof.Machine

/-- An s32 operand: IMM read as two's complement (R91). -/
def signedOperand (imm : Word32) : Int := imm.toInt

/-- The buffer length N: IMM read as unsigned (R91). -/
def lengthOperand (imm : Word32) : Nat := imm.toNat

/-- An exact integer in the range of s32 (R194). -/
def fitsS32 (x : Int) : Bool := decide (-2147483648 ≤ x) && decide (x ≤ 2147483647)

/-- An s32 value as 32 bits (R5). -/
def s32 (x : Int) : Word32 := BitVec.ofInt 32 x

/-- `InDomain(v)`: `-MAXMAG <= v <= MAXMAG`, on the exact integer (R115). -/
def inDomain (v : Int) : Bool := decide (-Config.maxMag ≤ v) && decide (v ≤ Config.maxMag)

end Sys2Proof.Machine
end

