-- ==== Sys2Proof/Machine/Flags.lean ====
section
/-!
DEFINITION. The codes of the fault fields, the STATUS register (R37) and the responses' fields
(R96).
-/

namespace Sys2Proof.Machine

/-- The code of an encoder fault (R222). -/
def EncFault.code : EncFault → BitVec 4
  | .range => 1
  | .afterFin => 2
  | .sinkIo => 3

/-- The code of a decoder fault (R222). -/
def DecFault.code : DecFault → BitVec 4
  | .overlong => 1
  | .srcIo => 2
  | .sumOvf => 3

/-- The code of a unit's fault (R222). -/
def UnitFault.code : UnitFault → BitVec 4
  | .enc f => f.code
  | .dec f => f.code

/-- The field EFAULT of STATUS (R37). -/
def efaultField : Option EncFault → BitVec 4
  | none => 0
  | some f => f.code

/-- The field DFAULT of STATUS (R37). -/
def dfaultField : Option DecFault → BitVec 4
  | none => 0
  | some f => f.code

/-- The 2-bit encoding of the parse state (R30). -/
def DState.code : DState → BitVec 2
  | .cz => 0
  | .sb => 1
  | .rs => 2

/-- The number of a response code (R96). -/
def Rc.code : Rc → BitVec 2
  | .ok => 0
  | .fault => 1
  | .illegal => 2

/-- STATUS: 31:17 reserved, 16 ILL, 15:12 DFAULT, 11:9 reserved, 8 DEXH, 7:4 EFAULT, 3:1 reserved,
0 EFIN; the reserved bits are 0 (R37). -/
def State.status (s : State) : Word32 :=
  0#15 ++ BitVec.ofBool s.ill ++ dfaultField s.dec.dfault ++ 0#3 ++ BitVec.ofBool s.dec.dexh ++
    efaultField s.enc.efault ++ 0#3 ++ BitVec.ofBool s.enc.efin

/-- The response of a command that completed without a fault and reports a count (R96). -/
def okResponse (count : Nat) : Response := { rc := .ok, count := count }

/-- The response of STATUS_READ (R96, R212). -/
def statusResponse (word : Word32) : Response := { rc := .ok, word := word }

/-- The response of DEC or DDEC with the values it emitted: FULL or EXHAUSTED (R96, R167). -/
def decodeResponse (exhausted : Bool) (values : List Word32) : Response :=
  { rc := .ok, count := values.length, dstat := exhausted, values := values }

/-- The response of a command of a faulted unit, with the recorded code (R225). -/
def refusedResponse (code : BitVec 4) : Response := { rc := .fault, fcode := code }

/-- The response to an illegal command word (R210). -/
def illegalResponse : Response := { rc := .illegal }

/-- The response of a command that raises a fault: a decoder fault returns the values emitted before
it (R224). -/
def faultResponse (f : UnitFault) (emitted : List Word32) : Response :=
  match f with
  | .enc f => { rc := .fault, fcode := f.code }
  | .dec f => { rc := .fault, fcode := f.code, count := emitted.length, values := emitted }

end Sys2Proof.Machine
end

