-- ==== Sys2Proof/Machine/Ops.lean ====
section
/-!
DEFINITION. The named operations over the channels and the registers: ending a command with a
response, taking a fault (R224) and the starts that clear it (R230), the collaborators' ports (R14),
the output list, and the single-bit and byte views of the registers.
-/

namespace Sys2Proof.Machine

/-! ### Ending a command -/

/-- `return resp(...)`: the response is returned, the command is no longer in progress, and `cpc`
advances by 1 (R14, R34). -/
def respond (r : Response) (s : State) : State :=
  { s with trace := s.trace ++ [.response r], cpc := s.cpc + 1, held := none }

/-- The command in progress holds at the point `h` until the collaborator answers (R227). -/
def hold (h : Held) (s : State) : State := { s with held := some h }

/-- A command is executed only when no other is in progress; an overlapping one is refused (R221,
I18). -/
def whenIdle (s : State) (t : State) : Host.Outcome State Fault Refusal :=
  match s.held with
  | none => .next t
  | some _ => .refused .commandInProgress

/-! ### Faults -/

/-- The first part of a fault's entry: the unit's fault field takes the code if it is 0 (R224), and
the model records the rule, the command's index and the fault (R222). -/
def recordFault (rule : Nat) (f : UnitFault) (s : State) : State :=
  match f with
  | .enc e =>
    { s with
      enc := { s.enc with efault := s.enc.efault <|> some e }
      faultLog := s.faultLog ++ [⟨rule, s.cpc, f⟩] }
  | .dec d =>
    { s with
      dec := { s.dec with dfault := s.dec.dfault <|> some d }
      faultLog := s.faultLog ++ [⟨rule, s.cpc, f⟩] }

/-- `raise Fault(unit, code)` by rule R`rule`: the fault is recorded and the command ends at once with
the response FAULT, which for a decoder fault carries the values emitted before it (R224). -/
def raiseFault (rule : Nat) (f : UnitFault) (s : State) : State :=
  respond (faultResponse f s.out) (recordFault rule f s)

/-- A command of the encoder other than a start: while the unit is faulted it is refused with the
recorded code (R225); while EFIN = 1 it raises ENC_AFTER_FIN (R222); else `k` runs (R228). -/
def encoderCommand (rule : Nat) (k : State → State) (s : State) : State :=
  match s.enc.efault with
  | some f => respond (refusedResponse f.code) s
  | none => if s.enc.efin then raiseFault rule (.enc .afterFin) s else k s

/-- A command of the decoder other than a start: while the unit is faulted it is refused with the
recorded code (R225); else `k` runs. -/
def decoderCommand (k : State → State) (s : State) : State :=
  match s.dec.dfault with
  | some f => respond (refusedResponse f.code) s
  | none => k s

/-! ### The starts, which clear a unit's fault (R230) -/

/-- The encoder's registers at the start of a stream (R135, R190). -/
def EncUnit.start (wordBytes : Nat) (prev : Word32) : EncUnit wordBytes :=
  { acc := 0, rem := 8 * wordBytes, prev := prev, efin := false, efault := none }

/-- The decoder's registers at the start of a stream (R166, R193). BYTE, MAG and SREM are
unspecified: the `k`-th free values (log 3). -/
def DecUnit.start (k : Nat) (base : Word32) : DecUnit :=
  { byte := Config.freeByte k, bitsLeft := 0, dstate := .cz, zrun := 0, mag := Config.freeMag k,
    srem := (Config.freeSrem k).toNat, base := base, dexh := false, dfault := none }

/-- The encoder starts a new stream (R135, R190). -/
def startEncoder (prev : Word32) (s : State) : State :=
  { s with enc := EncUnit.start s.wordBytes prev }

/-- The decoder starts a new stream (R166, R193). -/
def startDecoder (base : Word32) (s : State) : State :=
  { s with dec := DecUnit.start s.freeCount base, freeCount := s.freeCount + 1 }

/-! ### The sink's port (R14, R50, R60) -/

/-- What became of an operation on the sink's port: it was answered `ok` or `err`, or the sink has
not answered (R227). -/
inductive SinkResult where
  | ok (s : State)
  | err (s : State)
  | wait

/-- The events of the bytes that a write landed: a `Write` event is never empty (R50). -/
def landedEvents (bs : List Byte) : List Event :=
  match bs with
  | [] => []
  | b :: rest => [.sinkWrite (b :: rest)]

/-- `SinkWrite(bs)`: `ok` appends the bytes, `err` appends the drawn prefix of them (R50, R60). -/
def sinkWrite (bs : List Byte) (s : State) : SinkResult :=
  match s.sinkAnswers with
  | [] => .wait
  | .ok :: rest =>
    .ok { s with sinkAnswers := rest, trace := s.trace ++ [.sinkWrite bs] }
  | .err landed :: rest =>
    .err { s with sinkAnswers := rest, trace := s.trace ++ landedEvents (bs.take landed) }

/-- `SinkFlush()`: `ok` appends the event `Flush`, `err` appends nothing (R50). -/
def sinkFlush (s : State) : SinkResult :=
  match s.sinkAnswers with
  | [] => .wait
  | .ok :: rest => .ok { s with sinkAnswers := rest, trace := s.trace ++ [.sinkFlush] }
  | .err _ :: rest => .err { s with sinkAnswers := rest }

/-! ### The source's port (R14, R51, R61) -/

/-- `SourceRead()`: the source's next answer, and the state in which the read has been performed;
none while the source does not answer (R227). -/
def sourceRead (s : State) : Option (SrcAnswer × State) :=
  match s.srcAnswers with
  | [] => none
  | a :: rest => some (a, { s with srcAnswers := rest, trace := s.trace ++ [.sourceRead a] })

/-! ### The output list (R52) -/

/-- `Emit(x)`: the value is appended to the command's output list (R14). -/
def emit (x : Word32) (s : State) : State := { s with out := s.out ++ [x] }

/-! ### Views of the registers -/

/-- `R[i] <- b` in a register of `w` bits (R12). -/
def setBit {w : Nat} (r : BitVec w) (i : Nat) (b : Bool) : BitVec w :=
  if b then r ||| BitVec.twoPow w i else r &&& ~~~ BitVec.twoPow w i

/-- The first `nb` bytes of the accumulator, the most significant first:
`ACC[W-1-8j : W-8-8j]` for `j = 0 .. nb-1` (R55, R137). -/
def accBytes {wordBytes : Nat} (acc : BitVec (8 * wordBytes)) (nb : Nat) : List Byte :=
  (List.range nb).map fun j => acc.extractLsb' (8 * wordBytes - 8 - 8 * j) 8

/-- W, the accumulator's width in bits (R4). -/
def State.width (s : State) : Nat := 8 * s.wordBytes

/-- P = W - REM, the number of pending bits (R21). -/
def State.pendingCount (s : State) : Nat := s.width - s.enc.rem

/-- The pending bits, `ACC[W-1:REM]`, in append order (R21). -/
def State.pendingBits (s : State) : Bits :=
  (List.range s.pendingCount).map fun i => s.enc.acc.getLsbD (s.width - 1 - i)

end Sys2Proof.Machine
end

