-- ==== Sys2Proof/Machine/Codeword.lean ====
section
/-!
DEFINITION. Codewords as pure functions (40_codeword.md): CW (R110), the assembly of its fields
(R81), and ParseCW (R118).
-/

namespace Sys2Proof.Machine

/-- `bitlength(m)` for `m >= 1`: the number of binary digits (R13). -/
def bitlength (m : Nat) : Nat := Nat.log2 m + 1

/-- The sign bit of a codeword: 1 for a negative value (R111). -/
def signBit (v : Int) : Bool := decide (v < 0)

/-- `m = |v| + 1` (R111). -/
def biasedMagnitude (v : Int) : Nat := v.natAbs + 1

/-- `nbits`, the magnitude class: `bitlength(m) - 1` (R111). -/
def magnitudeClass (v : Int) : Nat := bitlength (biasedMagnitude v) - 1

/-- `CW(v)`: zero is the single bit `1`; any other value is `nbits` zeros and then the `nbits + 2`
bits of `(m << 1) | s` (R110). -/
def cw (v : Int) : Bits :=
  if v = 0 then [true]
  else
    List.replicate (magnitudeClass v) false ++
      bitsOf (magnitudeClass v + 2) (2 * biasedMagnitude v + (signBit v).toNat)

/-- The codeword of a value by its fields: format Z for 0, else format N with
`MBITS = m - 2^n` (R81). -/
def codewordOf (v : Int) : Instr :=
  if v = 0 then .cwZero
  else .cwNonzero (magnitudeClass v) (biasedMagnitude v - 2 ^ magnitudeClass v) (signBit v)

/-- The value of a format N codeword: `m = 2^n + MBITS`, `|v| = m - 1`, negative for SIGN = 1
(R81). -/
def valueOfFields (n mbits : Nat) (sign : Bool) : Int :=
  let magnitude : Int := ((2 ^ n + mbits : Nat) : Int) - 1
  if sign then -magnitude else magnitude

/-- `ParseCW(b)`: the value of the codeword at the front of `b` and what follows it; none where the
rule leaves it undefined or `b` holds no whole codeword (R118). -/
def parseCW (b : Bits) : Option (Int × Bits) :=
  match decodeStream b with
  | .ok (.cwZero, rest) => some (0, rest)
  | .ok (.cwNonzero n mbits sign, rest) => some (valueOfFields n mbits sign, rest)
  | _ => none

end Sys2Proof.Machine
end

