-- ==== Sys2Proof/Machine/Decoder.lean ====
section
/-!
DEFINITION. The decoder unit (42_decoder.md): NextBit, the parse machine, DecodeLoop with the delta
adder of R194, and the commands DEC_INIT and DEC. Then the two codeword formats as instructions: their
bits fed to the parse machine (R168, log 12).
-/

namespace Sys2Proof.Machine

/-! ### Byte buffering -/

/-- What `NextBit()` returns: a bit, `eof`, the failure of the source, or nothing while the source
does not answer (R160, R227). -/
inductive BitResult where
  | bit (b : Bool) (s : State)
  | eof (s : State)
  | failed (s : State)
  | wait

/-- The last three lines of NextBit: `BYTE[BITS_LEFT-1]` is consumed (R160). -/
def takeBit (s : State) : BitResult :=
  .bit (s.dec.byte.getLsbD (s.dec.bitsLeft - 1))
    { s with dec := { s.dec with bitsLeft := s.dec.bitsLeft - 1 } }

/-- `NextBit()`: a source byte is read only when the buffered one is used up (R160). -/
def nextBit (s : State) : BitResult :=
  if s.dec.bitsLeft = 0 then
    match sourceRead s with
    | none => .wait
    | some (.eof, s') => .eof s'
    | some (.err, s') => .failed s'
    | some (.byte b, s') => takeBit { s' with dec := { s'.dec with byte := b, bitsLeft := 8 } }
  else takeBit s

/-! ### The parse state machine -/

/-- What `DecodeBit(bit)` returns: no value, a value, or the fault of a 31st prefix zero. -/
inductive ParseResult where
  | noValue (d : DecUnit)
  | value (x : Int) (d : DecUnit)
  | overlong

/-- `DecodeBit(bit)`: the one rule of R161 to R165 that applies. -/
def decodeBit (bit : Bool) (d : DecUnit) : ParseResult :=
  match d.dstate, bit with
  | .cz, false =>
    if d.zrun = Config.nbitsMax then .overlong else .noValue { d with zrun := d.zrun + 1 }
  | .cz, true =>
    if d.zrun = 0 then .value 0 d
    else .noValue { d with mag := 1, srem := d.zrun, dstate := .sb }
  | .sb, _ =>
    .noValue
      { d with
        mag := (d.mag <<< 1) ||| BitVec.setWidth 31 (BitVec.ofBool bit)
        srem := d.srem - 1
        dstate := if d.srem - 1 = 0 then .rs else .sb }
  | .rs, _ =>
    .value (if bit then -((d.mag.toNat : Int) - 1) else (d.mag.toNat : Int) - 1)
      { d with zrun := 0, dstate := .cz }

/-! ### The decode loop -/

/-- `DeltaAccumulate(d)`: the exact sum BASE + d, which BASE takes and the command emits; none where
the sum leaves s32 (R194). -/
def deltaAccumulate (x : Int) (d : DecUnit) : Option (Word32 × DecUnit) :=
  if fitsS32 (d.base.toInt + x) then
    some (s32 (d.base.toInt + x), { d with base := s32 (d.base.toInt + x) })
  else none

/-- One turn of DecodeLoop: go round again, or the command has ended or holds. -/
inductive LoopStep where
  | again (s : State)
  | stop (s : State)

/-- The end of a DEC or DDEC without a fault: DEXH and the response (R167). -/
def endDecode (exhausted : Bool) (s : State) : State :=
  respond (decodeResponse exhausted s.out) { s with dec := { s.dec with dexh := exhausted } }

/-- A completed value: DDEC accumulates it first and may raise SUM_OVF; then it is emitted (R167,
R194). -/
def deliver (delta : Bool) (x : Int) (s : State) : LoopStep :=
  if delta then
    match deltaAccumulate x s.dec with
    | some (y, d) => .again (emit y { s with dec := d })
    | none => .stop (raiseFault 194 (.dec .sumOvf) s)
  else .again (emit (s32 x) s)

/-- A bit goes through the parse machine (R167). -/
def parseStep (delta bit : Bool) (s : State) : LoopStep :=
  match decodeBit bit s.dec with
  | .noValue d => .again { s with dec := d }
  | .value x d => deliver delta x { s with dec := d }
  | .overlong => .stop (raiseFault 161 (.dec .overlong) s)

/-- One turn of DecodeLoop: the buffer-full test first, then one bit (R167). -/
def loopStep (n : Nat) (delta : Bool) (s : State) : LoopStep :=
  if s.out.length = n then .stop (endDecode false s)
  else
    match nextBit s with
    | .wait => .stop (hold (.read n delta) s)
    | .eof s' => .stop (endDecode true s')
    | .failed s' => .stop (raiseFault 160 (.dec .srcIo) s')
    | .bit bit s' => parseStep delta bit s'

/-- A bound of the bits that stand ready: those buffered, and eight for each answer of the source.
Every turn that goes round again uses one of them up. -/
def bitsReady (s : State) : Nat := s.dec.bitsLeft + 8 * s.srcAnswers.length

/-- DecodeLoop for at most `fuel` turns. The last case is never reached from `decodeLoop`
(Laws: `decodeLoop_unfold`). -/
def decodeTurns (n : Nat) (delta : Bool) : Nat → State → State
  | 0, s => s
  | fuel + 1, s =>
    match loopStep n delta s with
    | .again s' => decodeTurns n delta fuel s'
    | .stop s' => s'

/-- `DecodeLoop(N, delta)` from a point between two turns (R167): turns until one ends the command
or holds. -/
def decodeLoop (n : Nat) (delta : Bool) (s : State) : State :=
  decodeTurns n delta (bitsReady s + 1) s

/-- `count <- 0; values <- []`, then the loop (R167). -/
def startDecode (n : Nat) (delta : Bool) (s : State) : State :=
  decodeLoop n delta { s with out := [] }

/-! ### Commands -/

/-- DEC_INIT (R166). -/
def execDecInit (s : State) : Host.Outcome State Fault Refusal :=
  whenIdle s (respond (okResponse 0) (startDecoder 0 s))

/-- DEC N (R167). -/
def execDec (n : Word32) (s : State) : Host.Outcome State Fault Refusal :=
  whenIdle s (decoderCommand (startDecode (lengthOperand n) false) s)

/-! ### Codewords -/

/-- A codeword's bits go through the parse machine one after another, and the values it emits join
the output list. A 31st prefix zero is recorded, and no bit after it is fed (R161, R224). -/
def feedBits : Bits → State → State
  | [], s => s
  | b :: rest, s =>
    match decodeBit b s.dec with
    | .noValue d => feedBits rest { s with dec := d }
    | .value x d => feedBits rest (emit (s32 x) { s with dec := d })
    | .overlong => recordFault 161 (.dec .overlong) s

/-- A codeword arrives at the decoder. A faulted decoder takes no bit (R225, log 13). -/
def feedCodeword (b : Bits) (s : State) : State :=
  match s.dec.dfault with
  | none => feedBits b s
  | some _ => s

/-- Codeword format Z in the stream (R80, R162). -/
def execCwZero (s : State) : Host.Outcome State Fault Refusal :=
  .next (feedCodeword [true] s)

/-- Codeword format N in the stream (R80, R168). -/
def execCwNonzero (n mbits : Nat) (sign : Bool) (s : State) : Host.Outcome State Fault Refusal :=
  .next (feedCodeword (codewordBits n mbits sign) s)

end Sys2Proof.Machine
end

