-- ==== Sys2Proof/Machine/Encoder.lean ====
section
/-!
DEFINITION. The encoder unit (41_encoder.md): AppendBit, AppendBits and FlushWord, and the commands
ENC_INIT, ENC_ONE and ENC_FINISH.
-/

namespace Sys2Proof.Machine

/-! ### Procedures -/

/-- What became of appending bits: all are appended; a fault ended the command; or the sink has not
answered the write of a full word, with the bits still to append. -/
inductive AppendResult where
  | done (s : State)
  | faulted (s : State)
  | waiting (s : State) (rest : Bits)

/-- Going on with `k` after an append; where the sink has not answered, `rest` is still to append. -/
def AppendResult.andThen (r : AppendResult) (rest : Bits) (k : State → AppendResult) :
    AppendResult :=
  match r with
  | .done s => k s
  | .faulted s => .faulted s
  | .waiting s _ => .waiting s rest

/-- `ACC <- 0; REM <- W` (R133, R137). -/
def clearAcc (s : State) : State :=
  { s with enc := { s.enc with acc := 0, rem := 8 * s.wordBytes } }

/-- The first two lines of AppendBit: the bit goes to `ACC[REM-1]`, and REM is decremented
(R131). -/
def placeBit (b : Bool) (s : State) : State :=
  { s with
    enc := { s.enc with acc := setBit s.enc.acc (s.enc.rem - 1) b, rem := s.enc.rem - 1 } }

/-- `FlushWord()`: the W/8 bytes of ACC go to the sink, ACC is cleared, and a failing write raises
SINK_IO (R133). -/
def flushWord (s : State) : AppendResult :=
  match sinkWrite (accBytes s.enc.acc s.wordBytes) s with
  | .ok s' => .done (clearAcc s')
  | .err s' => .faulted (raiseFault 133 (.enc .sinkIo) (clearAcc s'))
  | .wait => .waiting s []

/-- `AppendBit(b)`: the bit is placed, and a word that fills is flushed at once (R131). -/
def appendBit (b : Bool) (s : State) : AppendResult :=
  if (placeBit b s).enc.rem = 0 then flushWord (placeBit b s) else .done (placeBit b s)

/-- `AppendBits(c)`: the bits one after another, in transmission order (R132). -/
def appendBits : Bits → State → AppendResult
  | [], s => .done s
  | b :: rest, s => (appendBit b s).andThen rest (appendBits rest)

/-- The end of ENC_ONE and DENC_VAL after their AppendBits: PREV takes its new value if the command
gives one, and the response reports the codeword's length (R136, R191). -/
def finishValue (count : Nat) (newPrev : Option Word32) (r : AppendResult) : State :=
  match r with
  | .done s =>
    respond (okResponse count) { s with enc := { s.enc with prev := newPrev.getD s.enc.prev } }
  | .faulted s => s
  | .waiting s rest => hold (.word rest count newPrev) s

/-- The common part of ENC_ONE and DENC_VAL: the domain check, CW, and AppendBits (R136, R191). -/
def encodeValue (rule : Nat) (x : Int) (newPrev : Option Word32) (s : State) : State :=
  if inDomain x then finishValue (cw x).length newPrev (appendBits (cw x) s)
  else raiseFault rule (.enc .range) s

/-- The sink has answered a held FlushWord: the word's write goes through, and the remaining bits
are appended (R227, R133). -/
def resumeWord (rest : Bits) (count : Nat) (newPrev : Option Word32) (s : State) : State :=
  finishValue count newPrev ((flushWord s).andThen rest (appendBits rest))

/-- The second half of ENC_FINISH: the sink is flushed, and on success EFIN is set (R137). -/
def finishFlush (nb : Nat) (s : State) : State :=
  match sinkFlush s with
  | .ok s' => respond (okResponse nb) { s' with enc := { s'.enc with efin := true } }
  | .err s' => raiseFault 137 (.enc .sinkIo) s'
  | .wait => hold (.flush nb) s

/-- The number of whole bytes the pending bits need, `(P + 7) div 8` (R137). -/
def finishBytes (s : State) : Nat := (s.pendingCount + 7) / 8

/-- ENC_FINISH past its checks: the pending bits are written as whole bytes, ACC is cleared, and the
sink is flushed in any case (R137). -/
def finishStream (s : State) : State :=
  if 0 < finishBytes s then
    match sinkWrite (accBytes s.enc.acc (finishBytes s)) s with
    | .ok s' => finishFlush (finishBytes s) (clearAcc s')
    | .err s' => raiseFault 137 (.enc .sinkIo) (clearAcc s')
    | .wait => hold .tail s
  else finishFlush 0 (clearAcc s)

/-! ### Commands -/

/-- ENC_INIT (R135). -/
def execEncInit (s : State) : Host.Outcome State Fault Refusal :=
  whenIdle s (respond (okResponse 0) (startEncoder 0 s))

/-- ENC_ONE v (R136). -/
def execEncOne (v : Word32) (s : State) : Host.Outcome State Fault Refusal :=
  whenIdle s (encoderCommand 136 (encodeValue 136 (signedOperand v) none) s)

/-- ENC_FINISH (R137). -/
def execEncFinish (s : State) : Host.Outcome State Fault Refusal :=
  whenIdle s (encoderCommand 137 finishStream s)

end Sys2Proof.Machine
end

