-- ==== Sys2Proof/Machine/Delta.lean ====
section
/-!
DEFINITION. The delta commands (43_delta.md): the subtractor in front of the encoder and the adder
behind the decoder.
-/

namespace Sys2Proof.Machine

/-- DENC_START start (R190). -/
def execDencStart (start : Word32) (s : State) : Host.Outcome State Fault Refusal :=
  whenIdle s (respond (okResponse 0) (startEncoder start s))

/-- DENC_VAL past its first checks: the exact difference v - PREV is encoded, and PREV takes v
(R191). -/
def encodeDelta (v : Word32) (s : State) : State :=
  encodeValue 191 (signedOperand v - s.enc.prev.toInt) (some v) s

/-- DENC_VAL v (R191). -/
def execDencVal (v : Word32) (s : State) : Host.Outcome State Fault Refusal :=
  whenIdle s (encoderCommand 191 (encodeDelta v) s)

/-- DDEC_START base (R193). -/
def execDdecStart (base : Word32) (s : State) : Host.Outcome State Fault Refusal :=
  whenIdle s (respond (okResponse 0) (startDecoder base s))

/-- DDEC N (R194). -/
def execDdec (n : Word32) (s : State) : Host.Outcome State Fault Refusal :=
  whenIdle s (decoderCommand (startDecode (lengthOperand n) true) s)

end Sys2Proof.Machine
end

