-- ==== Sys2Proof/Machine/Control.lean ====
section
/-!
DEFINITION. Command dispatch and control (44_control.md): STATUS_READ, illegal command words, the
record of STATUS values (R10), the fetch of the next command word, the continuation of a command that
held on a collaborator (R227), and the reset input (R250).
-/

namespace Sys2Proof.Machine

/-- STATUS_READ (R212). -/
def execStatusRead (s : State) : Host.Outcome State Fault Refusal :=
  whenIdle s (respond (statusResponse s.status) s)

/-- An illegal command word: ILL is set and the response is ILLEGAL; nothing else changes (R210). -/
def illegalCommand (s : State) : State := respond illegalResponse { s with ill := true }

/-- The value of STATUS joins the observation when no command is in progress, which is after a response
or a reset; no other point of a step changes STATUS (R10 (4), log 25). -/
def logStatus (s : State) : State :=
  if s.held = none then { s with statusValues := s.statusValues ++ [s.status] } else s

/-- `logStatus` on the next state of an outcome. -/
def logOutcome (o : Host.Outcome State Fault Refusal) : Host.Outcome State Fault Refusal :=
  match o with
  | .next s => .next (logStatus s)
  | .fault f => .fault f
  | .refused r => .refused r

/-- The command word at `cpc`, if the host program has one there (R34). -/
def fetch (s : State) : Option CmdWord := s.program[s.cpc]?

/-- A held command goes on where it held, as far as the collaborators' answers let it; with no answer
it goes on holding (R227). -/
def resume (h : Held) (s : State) : State :=
  match h with
  | .word rest count newPrev => resumeWord rest count newPrev s
  | .tail => finishStream s
  | .flush nb => finishFlush nb s
  | .read n delta => decodeLoop n delta { s with held := none }

/-- The reset input is asserted: both units and ILL take their reset values, BYTE, MAG and SREM free
values (R250, log 3); the EGC waits for the first command (R251). No channel event happens, a command
that held ends with no response, and the collaborators and the host keep what they have (log 15). -/
def applyReset (s : State) : State :=
  { startDecoder 0 (startEncoder 0 s) with
    ill := false, cpc := 0, held := none, out := [], resetIn := false }

end Sys2Proof.Machine
end

