-- ==== Sys2Proof/Machine/Dispatch.lean ====
section
/-!
DEFINITION. The dispatch: one arm per constructor of Instr (R210).
-/

namespace Sys2Proof.Machine

def exec (i : Instr) (s : State) : Host.Outcome State Fault Refusal :=
  match i with
  | .encInit => Sys2Proof.Machine.execEncInit s
  | .encOne v => Sys2Proof.Machine.execEncOne v s
  | .encFinish => Sys2Proof.Machine.execEncFinish s
  | .decInit => Sys2Proof.Machine.execDecInit s
  | .dec n => Sys2Proof.Machine.execDec n s
  | .dencStart start => Sys2Proof.Machine.execDencStart start s
  | .dencVal v => Sys2Proof.Machine.execDencVal v s
  | .ddecStart base => Sys2Proof.Machine.execDdecStart base s
  | .ddec n => Sys2Proof.Machine.execDdec n s
  | .statusRead => Sys2Proof.Machine.execStatusRead s
  | .cwZero => Sys2Proof.Machine.execCwZero s
  | .cwNonzero n mbits sign => Sys2Proof.Machine.execCwNonzero n mbits sign s

end Sys2Proof.Machine
end

