-- ==== Sys2Proof/Machine/Step.lean ====
section
/-!
DEFINITION. One step of the machine: the reset input first (R250), then a command that holds (R227),
then the next command word (R210, R211); with none of them the EGC is idle and keeps all state (R237).
-/

namespace Sys2Proof.Machine

/-- One step: a whole command (R8), up to its response or to the point where it holds; after a response
or a reset the value of STATUS is recorded (R10). -/
def step (s : State) : Host.Outcome State Fault Refusal :=
  if s.resetIn then .next (logStatus (applyReset s))
  else
    match s.held with
    | some h => .next (logStatus (resume h s))
    | none =>
      match fetch s with
      | none => .next s
      | some w =>
        match decodeCommand w with
        | .ok i => logOutcome (exec i s)
        | .error _ => .next (logStatus (illegalCommand s))

/-- The host program with the word `w` at the index `k`. -/
def programWith (k : Nat) (w : CmdWord) (program : List CmdWord) : List CmdWord :=
  program.take k ++ List.replicate (k - program.length) 0 ++ [w] ++ program.drop (k + 1)

/-- The state in which the next step runs the instruction given (log 11). A command word is placed in
the host program at `cpc`. A codeword, given in fewer than 64 bits (log 14), is placed at the front of
the source's bytes, with no buffered bit before it, and the command word `DEC 1` at `cpc`. No command
is in progress, and reset is not asserted. -/
def State.withFetchWord (s : State) (nbits w : Nat) : State :=
  if nbits < 64 then
    { s with
      program := programWith s.cpc (commandWord 0x05 1) s.program
      srcAnswers := (packBytes (tableCodewordBits nbits w)).map SrcAnswer.byte ++ s.srcAnswers
      dec := { s.dec with bitsLeft := 0 }
      held := none
      resetIn := false }
  else
    { s with
      program := programWith s.cpc (BitVec.ofNat 64 w) s.program
      held := none
      resetIn := false }

end Sys2Proof.Machine
end

