-- ==== Sys2Proof/Machine/Assembler.lean ====
section
/-!
DEFINITION. The assembler's syntax (R97): a mnemonic, an operand where the command has one, a command
a line, comments from `;`. A text is a list of lines, each a list of characters.
-/

namespace Sys2Proof.Machine

/-- Why a line is no command. An operand outside its range is an error of assembly (R97, I6). -/
inductive AsmError where
  | unknownMnemonic
  | missingOperand
  | unexpectedOperand
  | badNumber
  | outOfRange
deriving DecidableEq, Repr

/-- The operand a mnemonic takes (R91, R92). -/
inductive AsmForm where
  | plain (i : Instr)
  | signed (mk : Word32 → Instr)
  | unsigned (mk : Word32 → Instr)

/-- The mnemonics of the commands (R92). -/
def asmForms : List (String × AsmForm) :=
  [ ("ENC_INIT", .plain .encInit)
  , ("ENC_ONE", .signed .encOne)
  , ("ENC_FINISH", .plain .encFinish)
  , ("DEC_INIT", .plain .decInit)
  , ("DEC", .unsigned .dec)
  , ("DENC_START", .signed .dencStart)
  , ("DENC_VAL", .signed .dencVal)
  , ("DDEC_START", .signed .ddecStart)
  , ("DDEC", .unsigned .ddec)
  , ("STATUS_READ", .plain .statusRead) ]

/-- The value of a digit in a base up to 16. -/
def digitValue (base : Nat) (c : Char) : Option Nat :=
  let d :=
    if '0' ≤ c ∧ c ≤ '9' then some (c.toNat - '0'.toNat)
    else if 'a' ≤ c ∧ c ≤ 'f' then some (c.toNat - 'a'.toNat + 10)
    else if 'A' ≤ c ∧ c ≤ 'F' then some (c.toNat - 'A'.toNat + 10)
    else none
  d.filter fun k => decide (k < base)

/-- Digits read on from the number before them. -/
def digitsFrom (base : Nat) : List Char → Nat → Option Nat
  | [], acc => some acc
  | c :: rest, acc => (digitValue base c).bind fun d => digitsFrom base rest (base * acc + d)

/-- At least one digit. -/
def natural (base : Nat) : List Char → Option Nat
  | [] => none
  | c :: rest => digitsFrom base (c :: rest) 0

/-- A decimal integer, signed or not, or a `0x` literal (R97). -/
def asmNumber : List Char → Option Int
  | '0' :: 'x' :: rest => (natural 16 rest).map Int.ofNat
  | '-' :: rest => (natural 10 rest).map fun k => -(k : Int)
  | '+' :: rest => (natural 10 rest).map Int.ofNat
  | cs => (natural 10 cs).map Int.ofNat

/-- A character that separates words on a line. -/
def isBlank (c : Char) : Bool := c == ' ' || c == '\t' || c == '\r'

/-- The words of a line, collected from its end. -/
def lineWords : List Char → List (List Char)
  | [] => []
  | c :: rest =>
    if isBlank c then
      match lineWords rest with
      | [] :: ws => [] :: ws
      | ws => [] :: ws
    else
      match lineWords rest with
      | w :: ws => (c :: w) :: ws
      | [] => [[c]]

/-- The words of a line up to its comment (R97). -/
def tokens (line : List Char) : List (List Char) :=
  (lineWords (line.takeWhile fun c => c != ';')).filter fun w => !w.isEmpty

/-- The form of a mnemonic. -/
def findForm (mnemonic : List Char) : Option AsmForm :=
  (asmForms.find? fun row => decide (row.1.toList = mnemonic)).map Prod.snd

/-- A mnemonic and its operands as a command (R97). -/
def assembleWords (mnemonic : List Char) (operands : List (List Char)) : Except AsmError Instr :=
  match findForm mnemonic, operands with
  | none, _ => .error .unknownMnemonic
  | some (.plain i), [] => .ok i
  | some (.plain _), _ :: _ => .error .unexpectedOperand
  | some (.signed _), [] => .error .missingOperand
  | some (.unsigned _), [] => .error .missingOperand
  | some (.signed mk), [x] =>
    match asmNumber x with
    | none => .error .badNumber
    | some v => if fitsS32 v then .ok (mk (s32 v)) else .error .outOfRange
  | some (.unsigned mk), [x] =>
    match asmNumber x with
    | none => .error .badNumber
    | some v =>
      if 0 ≤ v ∧ v < 4294967296 then .ok (mk (BitVec.ofInt 32 v)) else .error .outOfRange
  | some (.signed _), _ :: _ :: _ => .error .unexpectedOperand
  | some (.unsigned _), _ :: _ :: _ => .error .unexpectedOperand

/-- A line as a command; none for a line with no words on it (R97). -/
def assembleLine (line : List Char) : Except AsmError (Option Instr) :=
  match tokens line with
  | [] => .ok none
  | m :: operands =>
    match assembleWords m operands with
    | .ok i => .ok (some i)
    | .error e => .error e

/-- A text as its commands, one a line (R97). -/
def assemble : List (List Char) → Except AsmError (List Instr)
  | [] => .ok []
  | line :: rest =>
    match assembleLine line, assemble rest with
    | .error e, _ => .error e
    | .ok _, .error e => .error e
    | .ok none, .ok is => .ok is
    | .ok (some i), .ok is => .ok (i :: is)

/-- The command words of a list of commands (R97); a codeword is no command and has none. -/
def commandWords : List Instr → List CmdWord
  | [] => []
  | i :: rest =>
    match encode i with
    | .command w => w :: commandWords rest
    | .stream _ => commandWords rest

end Sys2Proof.Machine
end

