-- ==== Sys2Proof/Machine/Environment.lean ====
section
/-!
DEFINITION. What the outside does and sees (00_scope.md R9, R10): its actions between two steps, and
the observation of a run.
-/

namespace Sys2Proof.Machine

/-! ### Actions of the environment -/

/-- The host issues more command words (R211). -/
def issue (words : List CmdWord) (s : State) : State := { s with program := s.program ++ words }

/-- The sink's next answers (R50, R60). -/
def answerSink (answers : List SinkAnswer) (s : State) : State :=
  { s with sinkAnswers := s.sinkAnswers ++ answers }

/-- The source's next answers (R51). -/
def answerSource (answers : List SrcAnswer) (s : State) : State :=
  { s with srcAnswers := s.srcAnswers ++ answers }

/-- The environment asserts the reset input (R250). -/
def assertReset (s : State) : State := { s with resetIn := true }

/-- The reset state of an EGC built with `W = 8 * wordBytes` (R4, R250). -/
def State.resetOfWidth (wordBytes : Nat) : State :=
  { State.reset with wordBytes := wordBytes, enc := EncUnit.start wordBytes 0 }

/-! ### The observation of a run -/

/-- What a sink event shows: its bytes one by one, or a flush. The grouping of bytes into writes is
not observable (R50). -/
inductive SinkMark where
  | byte (b : Byte)
  | flush
deriving DecidableEq, Repr

/-- The response of an event, if it is one. -/
def Event.responses : Event → List Response
  | .response r => [r]
  | .sinkWrite _ => []
  | .sinkFlush => []
  | .sourceRead _ => []

/-- What an event shows at the sink (R50). -/
def Event.sinkMarks : Event → List SinkMark
  | .response _ => []
  | .sinkWrite bs => bs.map SinkMark.byte
  | .sinkFlush => [.flush]
  | .sourceRead _ => []

/-- The bytes an event hands to the sink. -/
def Event.sinkBytes : Event → List Byte
  | .response _ => []
  | .sinkWrite bs => bs
  | .sinkFlush => []
  | .sourceRead _ => []

/-- The source read of an event, with its answer, if it is one. -/
def Event.sourceReads : Event → List SrcAnswer
  | .response _ => []
  | .sinkWrite _ => []
  | .sinkFlush => []
  | .sourceRead a => [a]

/-- The observation of a run (R10): the responses, the sink's bytes and flush positions, the source
reads, and the values of STATUS. The spec does not say at which instants STATUS is observed: DESIGN
CHOICE, the value at reset and then one after each response and each reset, which are the only points
that can change it (log 25). -/
structure Observation where
  responses : List Response
  sink : List SinkMark
  reads : List SrcAnswer
  status : List Word32
deriving DecidableEq, Repr

/-- The responses so far, oldest first. -/
def State.responses (s : State) : List Response := s.trace.flatMap Event.responses

/-- What the sink shows so far (R50). -/
def State.sinkMarks (s : State) : List SinkMark := s.trace.flatMap Event.sinkMarks

/-- The bytes the sink has received so far. -/
def State.sinkBytes (s : State) : List Byte := s.trace.flatMap Event.sinkBytes

/-- The source reads performed so far, each with its answer. -/
def State.sourceReads (s : State) : List SrcAnswer := s.trace.flatMap Event.sourceReads

/-- The observation of the run that led to `s` (R10, R45). -/
def State.observe (s : State) : Observation :=
  { responses := s.responses, sink := s.sinkMarks, reads := s.sourceReads, status := s.statusValues }

end Sys2Proof.Machine
end

