-- ==== Sys2Proof/Machine/Pseudo.lean ====
section
/-!
DEFINITION. The pseudo-instructions (R98): their expansions and their results. The host issues each
command after the previous response (R211); while a command holds it waits for the collaborators, whose
answers come as a list of arrivals. The loop forms run under the host's own bound (R211, log 24).
-/

namespace Sys2Proof.Machine

/-! ### The host's control flow -/

/-- What the collaborators answer while a command holds (R227). -/
structure Arrival where
  sink : List SinkAnswer
  source : List SrcAnswer
deriving DecidableEq, Repr

/-- The answers arrive. -/
def Arrival.deliver (a : Arrival) (s : State) : State :=
  answerSink a.sink (answerSource a.source s)

/-- A command that holds goes on with each arrival, up to its response; the arrivals it has not needed
are left for the commands after it (R227). With no arrival left it still holds. -/
def waitOut : List Arrival → State → State × List Arrival
  | [], s => (s, [])
  | a :: rest, s =>
    match s.held with
    | none => (s, a :: rest)
    | some h => waitOut rest (logStatus (resume h (a.deliver s)))

/-- One command, up to its response (R8). -/
def runCommand (i : Instr) (arrivals : List Arrival) (s : State) :
    Host.Outcome (State × List Arrival) Fault Refusal :=
  match logOutcome (exec i s) with
  | .next t => .next (waitOut arrivals t)
  | .fault f => .fault f
  | .refused r => .refused r

/-- Commands one after another, each after the response of the one before (R8, R211). -/
def runCommands :
    List Instr → List Arrival → State → Host.Outcome (State × List Arrival) Fault Refusal
  | [], arrivals, s => .next (s, arrivals)
  | i :: rest, arrivals, s =>
    match runCommand i arrivals s with
    | .next (t, left) => if t.held = none then runCommands rest left t else .next (t, left)
    | .fault f => .fault f
    | .refused r => .refused r

/-- The host goes on with a loop form when no command holds and the last response has `rc = OK` and
`dstat = FULL` (R98). -/
def loopGoesOn (s : State) : Bool :=
  s.held.isNone &&
    match s.responses.getLast? with
    | some r => decide (r.rc = .ok) && !r.dstat
    | none => false

/-- The host repeats `body` until a response has `dstat = EXHAUSTED` or `rc != OK`, at most `bound`
times (R98, R211). A hold does not end the loop: the command goes on with the next arrival. -/
def repeatUntilExhausted (body : Instr) :
    Nat → List Arrival → State → Host.Outcome (State × List Arrival) Fault Refusal
  | 0, arrivals, s => .next (s, arrivals)
  | bound + 1, arrivals, s =>
    match runCommand body arrivals s with
    | .next (t, left) =>
      if loopGoesOn t then repeatUntilExhausted body bound left t else .next (t, left)
    | .fault f => .fault f
    | .refused r => .refused r

/-! ### The expansions -/

/-- `ENC_MANY v_1, ..., v_k` (R98, R138). -/
def encMany (vs : List Word32) : List Instr := vs.map Instr.encOne

/-- `DELTA_ENCODE start, v_1, ..., v_k` (R98, R192). -/
def deltaEncode (start : Word32) (vs : List Word32) : List Instr :=
  .dencStart start :: (vs.map Instr.dencVal ++ [.encFinish])

/-- `DECODE_ALL Nchunk` (R98). -/
def decodeAll (nchunk : Word32) (bound : Nat) (arrivals : List Arrival) (s : State) :
    Host.Outcome (State × List Arrival) Fault Refusal :=
  repeatUntilExhausted (.dec nchunk) bound arrivals s

/-- `DELTA_DECODE base, Nchunk` (R98, R195). -/
def deltaDecode (base nchunk : Word32) (bound : Nat) (arrivals : List Arrival) (s : State) :
    Host.Outcome (State × List Arrival) Fault Refusal :=
  match runCommand (.ddecStart base) arrivals s with
  | .next (t, left) => repeatUntilExhausted (.ddec nchunk) bound left t
  | .fault f => .fault f
  | .refused r => .refused r

/-! ### The results -/

/-- The result of DECODE_ALL and DELTA_DECODE run from `s` to `t`: the values of the responses since
`s`, which are those of the expansion's commands, in order (R98, R195). -/
def resultValues (s t : State) : List Word32 :=
  (t.responses.drop s.responses.length).flatMap Response.values

/-- The result of DELTA_ENCODE run from `s` to `t`: the sink bytes written since `s`. DENC_START, the
first command, writes none, so these are the bytes between it and the response of ENC_FINISH (R98,
R192). -/
def resultBytes (s t : State) : List Byte := t.sinkBytes.drop s.sinkBytes.length

end Sys2Proof.Machine
end

