-- ==== Sys2Proof/Safety.lean ====
section
/-!
DEFINITION. The terms that claims use: the legal widths (R4), the invariant of the machine (R21, R22,
R32, R34), fault-free runs (R225), the illegal command words (R93), the registers that are live (R26,
R28, R29), and the values that a bit string spells to the parse machine (R171).
-/

namespace Sys2Proof.Machine

/-! ### The invariant -/

/-- A legal W: a multiple of 8 of at least 8 (R4). -/
def State.LegalWidth (s : State) : Prop := 1 ≤ s.wordBytes

/-- The encoder's registers between commands and in a held one: REM is at most W, and the unused bits
of ACC are zero (R21, R22). -/
structure State.AccInv (s : State) : Prop where
  rem_le : s.enc.rem ≤ s.width
  unused_zero : ∀ i, i < s.enc.rem → s.enc.acc.getLsbD i = false

/-- Between two bits and between two commands REM is at least 1 (R22). -/
structure State.AccReady (s : State) : Prop extends State.AccInv s where
  rem_pos : 1 ≤ s.enc.rem

/-- The decoder's registers fit their widths, and each parse state has its invariant (R26 to R32). -/
structure DecUnit.ParseInv (d : DecUnit) : Prop where
  bitsLeft_le : d.bitsLeft ≤ 8
  zrun_le : d.zrun ≤ 30
  srem_lt : d.srem < 32
  in_sb : d.dstate = .sb →
    1 ≤ d.srem ∧ d.srem ≤ d.zrun ∧ 2 ^ (d.zrun - d.srem) ≤ d.mag.toNat ∧
      d.mag.toNat < 2 ^ (d.zrun - d.srem + 1)
  in_rs : d.dstate = .rs →
    d.srem = 0 ∧ 1 ≤ d.zrun ∧ 2 ^ d.zrun ≤ d.mag.toNat ∧ d.mag.toNat < 2 ^ (d.zrun + 1)

/-- What the point a command holds at says of the registers (R227), and that REM is 0 only inside an
unfinished AppendBit (R22). -/
def State.HeldInv (s : State) : Prop :=
  match s.held with
  | none => 1 ≤ s.enc.rem
  | some (.word _ _ _) =>
    s.enc.rem = 0 ∧ s.enc.efault = none ∧ s.enc.efin = false ∧ s.cpc < s.program.length
  | some .tail =>
    1 ≤ s.enc.rem ∧ 0 < finishBytes s ∧ s.enc.efault = none ∧ s.enc.efin = false ∧
      s.cpc < s.program.length
  | some (.flush _) =>
    s.enc.rem = s.width ∧ s.enc.efault = none ∧ s.enc.efin = false ∧ s.cpc < s.program.length
  | some (.read n _) =>
    1 ≤ s.enc.rem ∧ s.out.length < n ∧ s.dec.bitsLeft = 0 ∧ s.dec.dfault = none ∧
      s.cpc < s.program.length

/-- The invariant of the machine. -/
structure State.Inv (s : State) : Prop where
  width : s.LegalWidth
  acc : s.AccInv
  parse : s.dec.ParseInv
  heldPoint : s.HeldInv
  cpc_le : s.cpc ≤ s.program.length

/-- No command is in progress, and the encoder takes values: it is not faulted and its stream is not
finished (R136, R191). -/
structure State.EncoderOpen (s : State) : Prop where
  idle : s.held = none
  noFault : s.enc.efault = none
  notFinished : s.enc.efin = false

/-- No command is in progress, and the decoder is not faulted (R167, R194). -/
structure State.DecoderOpen (s : State) : Prop where
  idle : s.held = none
  noFault : s.dec.dfault = none

/-- A run without a recorded fault: what claims about a run's result assume (R225). -/
def State.FaultFree (s : State) : Prop := s.faultLog = []

/-- The sink answers `ok` to the next `k` writes and flushes. -/
def State.SinkAccepts (s : State) (k : Nat) : Prop :=
  k ≤ s.sinkAnswers.length ∧ ∀ a ∈ s.sinkAnswers.take k, a = .ok

/-- How often appending `k` bits fills the word (R131). -/
def State.wordsFilled (s : State) (k : Nat) : Nat := (s.pendingCount + k) / s.width

/-- `t` is `s` after the bits `c` have been appended, with no fault and no hold: the words that filled
went to the sink in one write of W/8 bytes each; the bits written and the bits pending after are the
bits pending before and then `c`; only ACC, REM, the sink's answers and the trace have changed (R131 to
R133, R139). -/
structure Appended (c : Bits) (words : List (List Byte)) (s t : State) : Prop where
  frame : ∃ acc rem, t = { s with
    enc := { s.enc with acc := acc, rem := rem }
    sinkAnswers := s.sinkAnswers.drop words.length
    trace := s.trace ++ words.map Event.sinkWrite }
  words_count : words.length = s.wordsFilled c.length
  word_size : ∀ w ∈ words, w.length = s.wordBytes
  bits : bitsOfBytes words.flatten ++ t.pendingBits = s.pendingBits ++ c
  rem_eq : t.enc.rem = s.width - (s.pendingCount + c.length) % s.width
  ready : t.AccReady

/-! ### Command words -/

/-- A command word is illegal: (a) OP is not in the map, (b) RSV is not 0, or (c) IMM is not 0 for a
command without an operand (R93). -/
def IllegalWord (w : CmdWord) : Prop :=
  (opField w = 0 ∨ 0x0A#8 < opField w) ∨
    rsvField w ≠ 0 ∨
      immField w ≠ 0 ∧
        (opField w = 0x01 ∨ opField w = 0x03 ∨ opField w = 0x04 ∨ opField w = 0x0A)

/-! ### Which unit a command belongs to -/

/-- The commands of the encoder unit (R92). -/
def IsEncoderCommand (i : Instr) : Prop :=
  match i with
  | .encInit => True
  | .encOne _ => True
  | .encFinish => True
  | .dencStart _ => True
  | .dencVal _ => True
  | .decInit => False
  | .dec _ => False
  | .ddecStart _ => False
  | .ddec _ => False
  | .statusRead => False
  | .cwZero => False
  | .cwNonzero _ _ _ => False

/-- The commands of the decoder unit (R92). -/
def IsDecoderCommand (i : Instr) : Prop :=
  match i with
  | .encInit => False
  | .encOne _ => False
  | .encFinish => False
  | .dencStart _ => False
  | .dencVal _ => False
  | .decInit => True
  | .dec _ => True
  | .ddecStart _ => True
  | .ddec _ => True
  | .statusRead => False
  | .cwZero => False
  | .cwNonzero _ _ _ => False

/-! ### Live registers -/

/-- The decoder with every register that no rule reads before it is written set to 0: BYTE while no
bit is left in it (R26), MAG in CZ (R28), SREM outside SB (R29). -/
def DecUnit.live (d : DecUnit) : DecUnit :=
  { d with
    byte := if d.bitsLeft = 0 then 0 else d.byte
    mag := if d.dstate = .cz then 0 else d.mag
    srem := if d.dstate = .sb then d.srem else 0 }

/-- The state without its dead registers and without the model's count of free values. -/
def State.live (s : State) : State := { s with dec := s.dec.live, freeCount := 0 }

/-! ### What bits spell -/

/-- The bits of BYTE still to consume, the next first (R26). -/
def DecUnit.bufferedBits (d : DecUnit) : Bits := bitsOf d.bitsLeft d.byte.toNat

/-- The values that DecodeBit returns over a bit string, and the registers after it; none if a 31st
prefix zero occurs (R161 to R165). -/
def parseAll : Bits → DecUnit → Option (List Int × DecUnit)
  | [], d => some ([], d)
  | b :: rest, d =>
    match decodeBit b d with
    | .noValue d' => parseAll rest d'
    | .value x d' => (parseAll rest d').map fun r => (x :: r.1, r.2)
    | .overlong => none

/-- The running sums of residuals, each after its addition (R194). -/
def runningSums : Int → List Int → List Int
  | _, [] => []
  | base, x :: rest => (base + x) :: runningSums (base + x) rest

/-- The values that DEC (`delta` false) or DDEC (`delta` true) emits for decoded values: themselves, or
their running sums from BASE (R167, R194). -/
def emittedValues (delta : Bool) (base : Word32) (xs : List Int) : List Word32 :=
  if delta then (runningSums base.toInt xs).map s32 else xs.map s32

/-- BASE after those values (R194, R198). -/
def baseAfter (delta : Bool) (base : Word32) (xs : List Int) : Word32 :=
  if delta then (emittedValues true base xs).getLastD base else base

/-- For DDEC, every running sum is in s32, so that no SUM_OVF is raised (R194). -/
def SumsFit (delta : Bool) (base : Word32) (xs : List Int) : Prop :=
  delta = true → ∀ y ∈ runningSums base.toInt xs, fitsS32 y = true

/-- The successive differences of a sequence: `v_1 - start`, then `v_i - v_(i-1)` (R192). -/
def differences : Int → List Int → List Int
  | _, [] => []
  | previous, v :: rest => (v - previous) :: differences v rest

/-- The start command of an encoder stream: DENC_START with an initial PREV, or ENC_INIT (R53). -/
def startCommand : Option Word32 → Instr
  | none => .encInit
  | some start => .dencStart start

/-- The command that encodes a value, as a difference (`true`) or raw (`false`) (R198). -/
def valueCommand (x : Bool × Word32) : Instr := if x.1 then .dencVal x.2 else .encOne x.2

/-- The values that such commands encode, from a PREV: a difference is taken from PREV, which only
DENC_VAL changes (R136, R191, R198). -/
def encodedValues : Word32 → List (Bool × Word32) → List Int
  | _, [] => []
  | prev, (false, v) :: rest => v.toInt :: encodedValues prev rest
  | prev, (true, v) :: rest => (v.toInt - prev.toInt) :: encodedValues v rest

/-- The commands of an encoder stream: its start, its values, and ENC_FINISH (R53). -/
def streamCommands (start : Option Word32) (xs : List (Bool × Word32)) : List Instr :=
  startCommand start :: (xs.map valueCommand ++ [.encFinish])

/-- The bits of the codewords of a sequence of values, one after another (R53). -/
def codewordStream (vs : List Int) : Bits := vs.flatMap cw

/-- The padding of a stream of `k` bits to whole bytes: `(8 - k mod 8) mod 8` zeros (R140). -/
def padding (k : Nat) : Bits := List.replicate ((8 - k % 8) % 8) false

end Sys2Proof.Machine
end

