-- ==== Sys2Proof/Certificates/Slice0/Obligations.lean ====
section
/-!
DEFINITION. The statements for the provers. Each docstring names the rules of spec/ that it formalises.
-/

open Sys2Proof Sys2Proof.Machine

/-! ### Encodings -/

/-- R80, R83, R90 to R92: every well-formed instruction, with every operand its encoding admits, is
what its encoding decodes to. -/
def Obligations.DecodeOfEncode : Prop :=
  ∀ i : Instr, i.wellFormed = true → decode (encode i) = .ok i

/-- R92, R93: each legal command word has one meaning, and encoding that meaning gives the word
back. -/
def Obligations.EncodeOfDecodedWord : Prop :=
  ∀ (w : CmdWord) (i : Instr), decodeCommand w = .ok i →
    i.isCommand = true ∧ i.wellFormed = true ∧ encode i = .command w

/-- R83, R84: the parser finds a codeword's end from its prefix alone, whatever follows it; 31 prefix
zeros begin no codeword. -/
def Obligations.StreamParserStopsAtCodewordEnd : Prop :=
  (∀ t : Bits, decodeStream (true :: t) = .ok (.cwZero, t)) ∧
    (∀ (n mbits : Nat) (sign : Bool) (t : Bits), (Instr.cwNonzero n mbits sign).wellFormed = true →
      decodeStream (codewordBits n mbits sign ++ t) = .ok (.cwNonzero n mbits sign, t)) ∧
    ∀ t : Bits, decodeStream (List.replicate 31 false ++ t) = .error .overlongPrefix

/-- R92 and the words of 95_test_vectors.md §2: some command words, written out, and what they are. -/
def Obligations.WrittenOutWordsDecode : Prop :=
  decodeCommand 0x0100000000000000 = .ok .encInit ∧
    decodeCommand 0x02000000FFFFFFFE = .ok (.encOne (-2)) ∧
    decodeCommand 0x05000000FFFFFFFF = .ok (.dec 4294967295) ∧
    decodeCommand 0x0800000080000000 = .ok (.ddecStart (-2147483648)) ∧
    decodeCommand 0x0B00000000000000 = .error (.badOpcode 0x0B) ∧
    decodeCommand 0x0200000100000000 = .error .reservedNonzero ∧
    decodeCommand 0x0100000000000001 = .error .operandNonzero ∧
    decode (.stream [false, true, false, true]) = .ok (.cwNonzero 1 0 true)

/-- R90, R97: a command word is the number `OP * 2^56 + IMM`, and its fields are OP, 0 and IMM. -/
def Obligations.CommandWordValue : Prop :=
  ∀ (op : BitVec 8) (imm : Word32),
    (commandWord op imm).toNat = op.toNat * 2 ^ 56 + imm.toNat ∧
      opField (commandWord op imm) = op ∧ rsvField (commandWord op imm) = 0 ∧
      immField (commandWord op imm) = imm

/-- R93: the illegal words are exactly those of (a), (b) and (c); dispatch sets ILL, answers ILLEGAL
and changes nothing else of the machine; every other word is a command. The model's record of STATUS
values (log 25) is left open here. -/
def Obligations.IllegalCommandWords : Prop :=
  (∀ w : CmdWord, ¬ IllegalWord w → ∃ i, decodeCommand w = .ok i) ∧
    ∀ (w : CmdWord), IllegalWord w →
      (∃ e, decodeCommand w = .error e) ∧
        ∀ s : State, s.resetIn = false → s.held = none → fetch s = some w →
          ∃ values, step s = .next { s with
            ill := true
            cpc := s.cpc + 1
            trace := s.trace ++ [.response { rc := .illegal }]
            statusValues := values }

/-! ### The step -/

/-- R210, R211: with no reset, no command in progress, and a legal command word at `cpc`, the step is
exec of the command. The step adds one thing: after the response it records the value of STATUS
(R10 (4), log 25). -/
def Obligations.StepRunsDecodedCommand : Prop :=
  ∀ (s : State) (w : CmdWord) (i : Instr), s.resetIn = false → s.held = none →
    s.program[s.cpc]? = some w → decodeCommand w = .ok i →
    step s =
      match exec i s with
      | .next t =>
        .next (if t.held = none then { t with statusValues := t.statusValues ++ [t.status] } else t)
      | .fault f => .fault f
      | .refused r => .refused r

/-- R34, R237: at the end of the host program, with no command in progress, the EGC keeps all state. -/
def Obligations.IdleKeepsState : Prop :=
  ∀ s : State, s.resetIn = false → s.held = none → s.program.length ≤ s.cpc → step s = .next s

/-- R220, R224: no step stops the machine. -/
def Obligations.StepAlwaysAnswersNext : Prop :=
  ∀ s : State, ∃ t, step s = .next t

/-- R8, R34, R220: a command that is executed while none is in progress either ends with exactly one
response, its last channel event, and advances `cpc` by 1; or it holds, with no response and `cpc`
unchanged. -/
def Obligations.CommandEndsWithOneResponse : Prop :=
  ∀ (i : Instr) (s : State), i.isCommand = true → s.held = none →
    ∃ t events, exec i s = .next t ∧ events.flatMap Event.responses = [] ∧
      ((t.held = none ∧ t.cpc = s.cpc + 1 ∧ ∃ r, t.trace = s.trace ++ events ++ [.response r]) ∨
        (t.held ≠ none ∧ t.cpc = s.cpc ∧ t.trace = s.trace ++ events))

/-- R221, I18: a command is refused while another is in progress. -/
def Obligations.OverlappingCommandRefused : Prop :=
  ∀ (i : Instr) (s : State) (h : Held), i.isCommand = true → s.held = some h →
    exec i s = .refused .commandInProgress

/-- R227, R237 (log 8): DEC and DDEC with no bit buffered at a silent source, and ENC_FINISH with
pending bits at a silent sink, hold and keep all state but DEC's output list; and in every state of the
invariant a step of a held command without an answer changes nothing. Commands that hold after some of
their work are in SilentSinkHoldsEncoder and DecodeHoldsAfterReadyBits. -/
def Obligations.SilentCollaboratorHoldsCommand : Prop :=
  (∀ (s : State) (n : Word32), s.DecoderOpen → s.dec.bitsLeft = 0 → s.srcAnswers = [] → n ≠ 0 →
    exec (.dec n) s = .next { s with out := [], held := some (.read n.toNat false) } ∧
      exec (.ddec n) s = .next { s with out := [], held := some (.read n.toNat true) }) ∧
  (∀ s : State, s.EncoderOpen → 0 < finishBytes s → s.sinkAnswers = [] →
    exec .encFinish s = .next { s with held := some .tail }) ∧
  ∀ (s : State) (h : Held), s.Inv → s.resetIn = false → s.held = some h →
    (∀ n delta, h = .read n delta → s.srcAnswers = []) →
    ((∀ n delta, h ≠ .read n delta) → s.sinkAnswers = []) →
    step s = .next s

/-- R227, R133, R137 (log 8): where the sink falls silent inside a command of the encoder, the command
holds there. ENC_ONE and DENC_VAL hold at the write of the `k + 1`-th word that fills, the `k` words
before it landed, its bits in ACC, the rest of the codeword still to append, and PREV unchanged.
ENC_FINISH holds at its flush: with no bit pending at once, else after its write. -/
def Obligations.SilentSinkHoldsEncoder : Prop :=
  (∀ (s : State) (v : Word32) (delta : Bool) (x : Int) (k : Nat),
    1 ≤ s.wordBytes → s.EncoderOpen → s.AccReady →
    x = (if delta then v.toInt - s.enc.prev.toInt else v.toInt) → inDomain x = true →
    s.enc.rem + k * s.width ≤ (cw x).length → s.sinkAnswers = List.replicate k .ok →
    ∃ (words : List (List Byte)) (acc : BitVec (8 * s.wordBytes)), words.length = k ∧
      (∀ w ∈ words, w.length = s.wordBytes) ∧
      bitsOfBytes (words.flatten ++ accBytes acc s.wordBytes) =
        s.pendingBits ++ (cw x).take (s.enc.rem + k * s.width) ∧
      exec (if delta then .dencVal v else .encOne v) s = .next { s with
        enc := { s.enc with acc := acc, rem := 0 }
        sinkAnswers := []
        held := some (.word ((cw x).drop (s.enc.rem + k * s.width)) (cw x).length
          (if delta then some v else none))
        trace := s.trace ++ words.map Event.sinkWrite }) ∧
  (∀ s : State, s.EncoderOpen → s.pendingCount = 0 → s.sinkAnswers = [] →
    exec .encFinish s = .next { s with
      enc := { s.enc with acc := 0, rem := s.width }
      held := some (.flush 0) }) ∧
  ∀ s : State, s.EncoderOpen → 0 < (s.pendingCount + 7) / 8 → s.sinkAnswers = [.ok] →
    exec .encFinish s = .next { s with
      enc := { s.enc with acc := 0, rem := s.width }
      sinkAnswers := []
      held := some (.flush ((s.pendingCount + 7) / 8))
      trace := s.trace ++ [.sinkWrite (accBytes s.enc.acc ((s.pendingCount + 7) / 8))] }

/-- R227, R160, R167 (log 8): DEC and DDEC at a source that falls silent use up every bit that stands
ready, and then hold with the values so far in the output list. -/
def Obligations.DecodeHoldsAfterReadyBits : Prop :=
  ∀ (s : State) (n : Word32) (delta : Bool) (bytes : List Byte) (xs : List Int) (d : DecUnit),
    s.DecoderOpen → s.srcAnswers = bytes.map SrcAnswer.byte →
    parseAll (s.dec.bufferedBits ++ bitsOfBytes bytes) s.dec = some (xs, d) →
    xs.length < n.toNat → SumsFit delta s.dec.base xs →
    exec (if delta then .ddec n else .dec n) s = .next { s with
      dec := { d with
        byte := bytes.getLastD s.dec.byte
        bitsLeft := 0
        base := baseAfter delta s.dec.base xs }
      srcAnswers := []
      held := some (.read n.toNat delta)
      out := emittedValues delta s.dec.base xs
      trace := s.trace ++ bytes.map fun b => .sourceRead (.byte b) }

/-- R227, R62 (log 8): a hold changes nothing but the time: a command that held and then gets its answers
does what it would have done with the answers there from the start. -/
def Obligations.HoldIsTransparent : Prop :=
  ∀ (i : Instr) (s u : State) (sinkAs : List SinkAnswer) (srcAs : List SrcAnswer),
    s.held = none → s.resetIn = false → exec i s = .next u → u.held ≠ none →
    step (answerSink sinkAs (answerSource srcAs u)) =
      logOutcome (exec i (answerSink sinkAs (answerSource srcAs s)))

/-- R46, R50, R63, R222, R225: no step takes back a channel event or a fault record, changes W, or
changes the host program. R10 (4), log 25: no step takes back a value of STATUS, and a step that
changes STATUS records its new value. -/
def Obligations.StepKeepsHistory : Prop :=
  ∀ s t : State, step s = .next t →
    s.trace <+: t.trace ∧ s.faultLog <+: t.faultLog ∧ t.wordBytes = s.wordBytes ∧
      t.program = s.program ∧
      (t.statusValues = s.statusValues ∧ t.status = s.status ∨
        t.statusValues = s.statusValues ++ [t.status])

/-! ### The invariant -/

/-- R4, R250: the reset state of every legal width meets the invariant. -/
def Obligations.ResetMeetsInvariant : Prop :=
  State.reset.Inv ∧ ∀ wordBytes, 1 ≤ wordBytes → (State.resetOfWidth wordBytes).Inv

/-- R21, R22, R32, R34, R44: every step keeps the invariant: the unused bits of ACC are zero, REM is in
1 to W but inside an unfinished AppendBit, the parse machine's registers fit their widths and their
state, and `cpc` stays within the host program. -/
def Obligations.StepKeepsInvariant : Prop :=
  ∀ s t : State, s.Inv → step s = .next t → t.Inv

/-- R26, R28, R29, R45, R250: a register that is unspecified is never read before it is written: two
states that agree but for such registers step to states that agree but for such registers, with the
same observation. -/
def Obligations.UnspecifiedRegistersAreUnobservable : Prop :=
  ∀ s t : State, s.live = t.live →
    ∃ s' t', step s = .next s' ∧ step t = .next t' ∧ s'.live = t'.live ∧ s'.observe = t'.observe

/-! ### Reset -/

/-- R250, R251: what the reset input leaves in the registers; it makes no sink or source event, and the
EGC waits for the first command. BYTE, MAG and SREM are unspecified and are not mentioned. Log 15, the
model's choice: a command in progress ends with no response, `cpc` is 0 also after a reset in
mid-program, and the collaborators keep their answers. -/
def Obligations.ResetInputLeavesResetState : Prop :=
  ∀ s : State, s.resetIn = true →
    ∃ t, step s = .next t ∧
      (∀ i, t.enc.acc.getLsbD i = false) ∧ t.enc.rem = t.width ∧ t.width = s.width ∧
      t.enc.prev = 0 ∧ t.enc.efin = false ∧ t.enc.efault = none ∧
      t.dec.bitsLeft = 0 ∧ t.dec.dstate = .cz ∧ t.dec.zrun = 0 ∧ t.dec.base = 0 ∧
      t.dec.dexh = false ∧ t.dec.dfault = none ∧ t.ill = false ∧ t.status = 0 ∧ t.cpc = 0 ∧
      t.held = none ∧ t.resetIn = false ∧
      t.trace = s.trace ∧ t.sinkAnswers = s.sinkAnswers ∧ t.srcAnswers = s.srcAnswers

/-- R252: from every state with no command in progress, ENC_INIT leaves the encoder's registers as the
reset state has them and DEC_INIT the decoder's, but for the unspecified ones, and both leave ILL alone.
That reset state is State.reset for the default W, and the one that the reset input leaves; in it ILL is
0 and either unit takes its commands with no start. -/
def Obligations.ResetStateIsStartState : Prop :=
  (∀ s : State, s.held = none →
    exec .encInit s = .next { s with
      enc := (State.resetOfWidth s.wordBytes).enc
      cpc := s.cpc + 1
      trace := s.trace ++ [.response { rc := .ok }] }) ∧
  (∀ s : State, s.held = none → ∃ dec : DecUnit, dec.live = State.reset.dec.live ∧
    exec .decInit s = .next { s with
      dec := dec
      cpc := s.cpc + 1
      trace := s.trace ++ [.response { rc := .ok }]
      freeCount := s.freeCount + 1 }) ∧
  State.resetOfWidth Config.defaultWordBytes = State.reset ∧
  (∀ wordBytes, (State.resetOfWidth wordBytes).dec = State.reset.dec ∧
    (State.resetOfWidth wordBytes).ill = false ∧
    (State.resetOfWidth wordBytes).EncoderOpen ∧ (State.resetOfWidth wordBytes).DecoderOpen) ∧
  ∀ s : State, s.resetIn = true → ∃ t, step s = .next t ∧ t.wordBytes = s.wordBytes ∧
    t.enc = (State.resetOfWidth t.wordBytes).enc ∧ t.dec.live = State.reset.dec.live ∧
    t.ill = false ∧ t.EncoderOpen ∧ t.DecoderOpen

/-! ### The starts and STATUS_READ -/

/-- R135: ENC_INIT: its one word, and what it does in every state: pending bits and a fault are
dropped, and nothing reaches the sink. -/
def Obligations.EncInitStartsStream : Prop :=
  (∀ w : CmdWord, decodeCommand w = .ok .encInit ↔ w = 0x0100000000000000) ∧
  ∀ s : State, s.held = none →
    exec .encInit s = .next { s with
      enc := { acc := 0, rem := s.width, prev := 0, efin := false, efault := none }
      cpc := s.cpc + 1
      trace := s.trace ++ [.response { rc := .ok }] }

/-- R190: DENC_START: its words, and what it does in every state. -/
def Obligations.DencStartStartsStream : Prop :=
  (∀ (w : CmdWord) (start : Word32),
    decodeCommand w = .ok (.dencStart start) ↔ w = 0x06#8 ++ 0#24 ++ start) ∧
  ∀ (s : State) (start : Word32), s.held = none →
    exec (.dencStart start) s = .next { s with
      enc := { acc := 0, rem := s.width, prev := start, efin := false, efault := none }
      cpc := s.cpc + 1
      trace := s.trace ++ [.response { rc := .ok }] }

/-- R166: DEC_INIT: its one word, and what it does in every state: buffered bits, a partial codeword
and a fault are dropped, and no source read is made. BYTE, MAG and SREM are unspecified after it. -/
def Obligations.DecInitStartsStream : Prop :=
  (∀ w : CmdWord, decodeCommand w = .ok .decInit ↔ w = 0x0400000000000000) ∧
  ∀ s : State, s.held = none → ∃ byte mag srem,
    exec .decInit s = .next { s with
      dec :=
        { byte := byte, bitsLeft := 0, dstate := .cz, zrun := 0, mag := mag, srem := srem,
          base := 0, dexh := false, dfault := none }
      cpc := s.cpc + 1
      trace := s.trace ++ [.response { rc := .ok }]
      freeCount := s.freeCount + 1 }

/-- R193: DDEC_START: its words, and what it does in every state. BYTE, MAG and SREM are unspecified
after it. -/
def Obligations.DdecStartStartsStream : Prop :=
  (∀ (w : CmdWord) (base : Word32),
    decodeCommand w = .ok (.ddecStart base) ↔ w = 0x08#8 ++ 0#24 ++ base) ∧
  ∀ (s : State) (base : Word32), s.held = none → ∃ byte mag srem,
    exec (.ddecStart base) s = .next { s with
      dec :=
        { byte := byte, bitsLeft := 0, dstate := .cz, zrun := 0, mag := mag, srem := srem,
          base := base, dexh := false, dfault := none }
      cpc := s.cpc + 1
      trace := s.trace ++ [.response { rc := .ok }]
      freeCount := s.freeCount + 1 }

/-- R212: STATUS_READ: its one word; it returns STATUS and changes no register; the reserved bits are
0; a second one with no command between returns the same word. -/
def Obligations.StatusReadReturnsStatus : Prop :=
  (∀ w : CmdWord, decodeCommand w = .ok .statusRead ↔ w = 0x0A00000000000000) ∧
  (∀ s : State, s.held = none →
    exec .statusRead s = .next { s with
      cpc := s.cpc + 1, trace := s.trace ++ [.response { rc := .ok, word := s.status }] }) ∧
  (∀ (s : State) (i : Nat),
    (1 ≤ i ∧ i ≤ 3) ∨ (9 ≤ i ∧ i ≤ 11) ∨ (17 ≤ i) → s.status.getLsbD i = false) ∧
  ∀ s t : State, exec .statusRead s = .next t → t.status = s.status

/-- R37: where the fields of STATUS stand, and the codes of the fault fields (R222). -/
def Obligations.StatusLayout : Prop :=
  ∀ s : State,
    s.status.getLsbD 0 = s.enc.efin ∧
      s.status.extractLsb' 4 4 =
        (match s.enc.efault with
          | none => 0 | some .range => 1 | some .afterFin => 2 | some .sinkIo => 3) ∧
      s.status.getLsbD 8 = s.dec.dexh ∧
      s.status.extractLsb' 12 4 =
        (match s.dec.dfault with
          | none => 0 | some .overlong => 1 | some .srcIo => 2 | some .sumOvf => 3) ∧
      s.status.getLsbD 16 = s.ill

/-! ### Codewords -/

/-- R111: the intermediate values of CW. -/
def Obligations.CodewordIntermediateValues : Prop :=
  ∀ v : Int, v ≠ 0 → inDomain v = true →
    (signBit v = true ↔ v < 0) ∧ (signBit v = false ↔ 0 < v) ∧
      (biasedMagnitude v : Int) = |v| + 1 ∧
      2 ≤ biasedMagnitude v ∧ biasedMagnitude v ≤ 2 ^ 31 - 1 ∧
      magnitudeClass v = bitlength (biasedMagnitude v) - 1 ∧
      2 ^ magnitudeClass v ≤ biasedMagnitude v ∧
      biasedMagnitude v < 2 ^ (magnitudeClass v + 1) ∧
      1 ≤ magnitudeClass v ∧ magnitudeClass v ≤ 30 ∧
      2 ^ (magnitudeClass v + 1) ≤ 2 * biasedMagnitude v + (signBit v).toNat ∧
      2 * biasedMagnitude v + (signBit v).toNat < 2 ^ (magnitudeClass v + 2) ∧
      2 * biasedMagnitude v + (signBit v).toNat < 2 ^ 32

/-- R112: the lengths of codewords. -/
def Obligations.CodewordLength : Prop :=
  (cw 0).length = 1 ∧ (∀ v : Int, v ≠ 0 → (cw v).length = 2 * magnitudeClass v + 2) ∧
    ∀ v : Int, inDomain v = true → 1 ≤ (cw v).length ∧ (cw v).length ≤ 62

/-- R113: the field form and the arithmetic form of CW are the same string. -/
def Obligations.CodewordFieldForm : Prop :=
  ∀ v : Int, v ≠ 0 →
    List.replicate (magnitudeClass v) false ++
        bitsOf (magnitudeClass v + 2) (2 * biasedMagnitude v + (signBit v).toNat) =
      List.replicate (magnitudeClass v) false ++ [true] ++
        bitsOf (magnitudeClass v) (biasedMagnitude v - 2 ^ magnitudeClass v) ++ [signBit v] ∧
      encode (codewordOf v) = .stream (cw v) ∧
      biasedMagnitude v - 2 ^ magnitudeClass v < 2 ^ magnitudeClass v ∧
      2 * biasedMagnitude v + (signBit v).toNat =
        2 ^ (magnitudeClass v + 1) + 2 * (biasedMagnitude v - 2 ^ magnitudeClass v) +
          (signBit v).toNat

/-- R114: no codeword is a prefix of another. -/
def Obligations.CodewordsArePrefixFree : Prop :=
  ∀ v w : Int, inDomain v = true → inDomain w = true → cw v <+: cw w → v = w

/-- R118: ParseCW inverts CW, whatever follows the codeword. -/
def Obligations.ParseInvertsCodeword : Prop :=
  ∀ (v : Int) (t : Bits), inDomain v = true → parseCW (cw v ++ t) = some (v, t)

/-- R82: class `n` holds exactly the values with magnitudes from `2^n - 1` to `2^(n+1) - 2`, with
codewords of length `2n + 2`; class 0 is 0 alone, with length 1; every in-domain value is in one of
the classes 0 to 30, and class 30 ends at MAXMAG. -/
def Obligations.MagnitudeClassRanges : Prop :=
  (∀ (v : Int) (n : Nat), 1 ≤ n →
    (magnitudeClass v = n ↔ 2 ^ n - 1 ≤ |v| ∧ |v| ≤ 2 ^ (n + 1) - 2)) ∧
  (∀ v : Int, 1 ≤ magnitudeClass v → (cw v).length = 2 * magnitudeClass v + 2) ∧
  (∀ v : Int, (magnitudeClass v = 0 ↔ v = 0)) ∧ (cw 0).length = 1 ∧
  ∀ v : Int, inDomain v = true ↔ magnitudeClass v ≤ 30

/-! ### The encoder -/

/-- R131: AppendBit places one bit and flushes a word that fills, and the invariant holds again. -/
def Obligations.AppendBitPlacesAndFlushes : Prop :=
  ∀ (s : State) (b : Bool), 1 ≤ s.wordBytes → s.AccReady →
    ∃ acc : BitVec (8 * s.wordBytes),
      (∀ i, acc.getLsbD i = if i = s.enc.rem - 1 then b else s.enc.acc.getLsbD i) ∧
      (s.enc.rem ≠ 1 → appendBit b s =
        .done { s with enc := { s.enc with acc := acc, rem := s.enc.rem - 1 } }) ∧
      (s.enc.rem = 1 → appendBit b s =
        flushWord { s with enc := { s.enc with acc := acc, rem := 0 } }) ∧
      ∀ t, appendBit b s = .done t → t.AccReady ∧ t.width = s.width

/-- R136, R132, R110: ENC_ONE with an in-domain value, on an open stream whose sink accepts the words
that fill, appends CW(v) and answers its length; nothing else changes. -/
def Obligations.EncOneAppendsCodeword : Prop :=
  ∀ (s : State) (v : Word32), 1 ≤ s.wordBytes → s.EncoderOpen → s.AccReady →
    inDomain v.toInt = true → s.SinkAccepts (s.wordsFilled (cw v.toInt).length) →
    ∃ words t, Appended (cw v.toInt) words s t ∧
      exec (.encOne v) s = .next { t with
        cpc := t.cpc + 1
        trace := t.trace ++ [.response { rc := .ok, count := (cw v.toInt).length }] }

/-- R191: DENC_VAL with an in-domain difference appends CW(v - PREV), sets PREV to v and answers the
codeword's length; nothing else changes. -/
def Obligations.DencValAppendsDifference : Prop :=
  ∀ (s : State) (v : Word32), 1 ≤ s.wordBytes → s.EncoderOpen → s.AccReady →
    inDomain (v.toInt - s.enc.prev.toInt) = true →
    s.SinkAccepts (s.wordsFilled (cw (v.toInt - s.enc.prev.toInt)).length) →
    ∃ words t, Appended (cw (v.toInt - s.enc.prev.toInt)) words s t ∧
      exec (.dencVal v) s = .next { t with
        enc := { t.enc with prev := v }
        cpc := t.cpc + 1
        trace := t.trace ++
          [.response { rc := .ok, count := (cw (v.toInt - s.enc.prev.toInt)).length }] }

/-- R115: the domain; a value or a difference outside it raises ENC_RANGE, appends no bit and changes
nothing else. -/
def Obligations.OutOfDomainRaisesEncRange : Prop :=
  (∀ v : Int, inDomain v = true ↔ -(2 ^ 31 - 2) ≤ v ∧ v ≤ 2 ^ 31 - 2) ∧
  (∀ v : Word32, inDomain v.toInt = false ↔
    v.toInt = 2 ^ 31 - 1 ∨ v.toInt = -(2 ^ 31 - 1) ∨ v.toInt = -(2 ^ 31)) ∧
  (∀ (s : State) (v : Word32), s.EncoderOpen → inDomain v.toInt = false →
    exec (.encOne v) s = .next { s with
      enc := { s.enc with efault := some .range }
      cpc := s.cpc + 1
      trace := s.trace ++ [.response { rc := .fault, fcode := 1 }]
      faultLog := s.faultLog ++ [⟨136, s.cpc, .enc .range⟩] }) ∧
  ∀ (s : State) (v : Word32), s.EncoderOpen → inDomain (v.toInt - s.enc.prev.toInt) = false →
    exec (.dencVal v) s = .next { s with
      enc := { s.enc with efault := some .range }
      cpc := s.cpc + 1
      trace := s.trace ++ [.response { rc := .fault, fcode := 1 }]
      faultLog := s.faultLog ++ [⟨191, s.cpc, .enc .range⟩] }

/-- R23, R222, R260: while EFIN = 1 and the encoder is not faulted, ENC_ONE, DENC_VAL and ENC_FINISH
raise ENC_AFTER_FIN with no other effect. -/
def Obligations.FinishedStreamRaisesAfterFin : Prop :=
  ∀ s : State, s.held = none → s.enc.efault = none → s.enc.efin = true →
    ∀ (i : Instr) (rule : Nat),
      ((∃ v, i = .encOne v) ∧ rule = 136) ∨ ((∃ v, i = .dencVal v) ∧ rule = 191) ∨
        (i = .encFinish ∧ rule = 137) →
      exec i s = .next { s with
        enc := { s.enc with efault := some .afterFin }
        cpc := s.cpc + 1
        trace := s.trace ++ [.response { rc := .fault, fcode := 2 }]
        faultLog := s.faultLog ++ [⟨rule, s.cpc, .enc .afterFin⟩] }

/-- R225: a faulted unit refuses its commands with the recorded code and changes no state; its starts
run and clear the fault, and the model's record stays; a fault of one unit does not refuse a command
of the other. -/
def Obligations.FaultedUnitRefusesCommands : Prop :=
  (∀ (s : State) (f : EncFault) (i : Instr), s.held = none → s.enc.efault = some f →
    (∃ v, i = .encOne v) ∨ (∃ v, i = .dencVal v) ∨ i = .encFinish →
    exec i s = .next { s with
      cpc := s.cpc + 1
      trace := s.trace ++ [.response { rc := .fault, fcode := f.code }] }) ∧
  (∀ (s : State) (f : DecFault) (i : Instr), s.held = none → s.dec.dfault = some f →
    (∃ n, i = .dec n) ∨ (∃ n, i = .ddec n) →
    exec i s = .next { s with
      cpc := s.cpc + 1
      trace := s.trace ++ [.response { rc := .fault, fcode := f.code }] }) ∧
  (∀ (s : State) (i : Instr), s.held = none → i = .encInit ∨ (∃ start, i = .dencStart start) →
    ∃ t, exec i s = .next t ∧ t.enc.efault = none ∧ t.dec = s.dec ∧ t.faultLog = s.faultLog ∧
      t.trace = s.trace ++ [.response { rc := .ok }]) ∧
  (∀ (s : State) (i : Instr), s.held = none → i = .decInit ∨ (∃ base, i = .ddecStart base) →
    ∃ t, exec i s = .next t ∧ t.dec.dfault = none ∧ t.enc.efault = s.enc.efault ∧
      t.faultLog = s.faultLog ∧ t.trace = s.trace ++ [.response { rc := .ok }]) ∧
  ∀ (s : State) (f : EncFault) (g : Option EncFault), s.dec.dfault = none → s.held = none →
    ∀ n t u, exec (.dec n) { s with enc := { s.enc with efault := some f } } = .next t →
      exec (.dec n) { s with enc := { s.enc with efault := g } } = .next u →
      t.trace = u.trace ∧ t.dec = u.dec

/-- R137, R140: ENC_FINISH on an open stream whose sink accepts: the pending bits and the zero bits
that fill the last byte are written in one write, if there are any; then the sink is flushed, also when
no byte is written (the spec's D18, log 18); ACC is cleared, EFIN is set, and the response counts the
bytes. -/
def Obligations.EncFinishWritesPaddedTail : Prop :=
  ∀ s : State, 1 ≤ s.wordBytes → s.EncoderOpen → s.AccReady →
    s.SinkAccepts (if s.pendingCount = 0 then 1 else 2) →
    ∃ bs : List Byte, bs.length = (s.pendingCount + 7) / 8 ∧
      bitsOfBytes bs = s.pendingBits ++ List.replicate ((8 - s.pendingCount % 8) % 8) false ∧
      exec .encFinish s = .next { s with
        enc := { s.enc with acc := 0, rem := s.width, efin := true }
        sinkAnswers := s.sinkAnswers.drop (if s.pendingCount = 0 then 1 else 2)
        cpc := s.cpc + 1
        trace := s.trace ++ (if s.pendingCount = 0 then [] else [.sinkWrite bs]) ++
          [.sinkFlush, .response { rc := .ok, count := bs.length }] }

/-- R137, R60, R222, R226: a failing write or flush of ENC_FINISH raises SINK_IO: the drawn prefix of
the write has landed, a failed flush is no event, ACC is cleared, and EFIN stays 0. -/
def Obligations.EncFinishSinkFailure : Prop :=
  (∀ (s : State) (landed : Nat) (rest : List SinkAnswer), s.EncoderOpen →
    0 < (s.pendingCount + 7) / 8 → s.sinkAnswers = .err landed :: rest →
    exec .encFinish s = .next { s with
      enc := { s.enc with acc := 0, rem := s.width, efault := some .sinkIo }
      sinkAnswers := rest
      cpc := s.cpc + 1
      trace := s.trace ++
        landedEvents ((accBytes s.enc.acc ((s.pendingCount + 7) / 8)).take landed) ++
        [.response { rc := .fault, fcode := 3 }]
      faultLog := s.faultLog ++ [⟨137, s.cpc, .enc .sinkIo⟩] }) ∧
  ∀ (s : State) (landed : Nat) (rest : List SinkAnswer), s.EncoderOpen →
    s.sinkAnswers = (if (s.pendingCount + 7) / 8 = 0 then [] else [.ok]) ++ .err landed :: rest →
    exec .encFinish s = .next { s with
      enc := { s.enc with acc := 0, rem := s.width, efault := some .sinkIo }
      sinkAnswers := rest
      cpc := s.cpc + 1
      trace := s.trace ++
        (if (s.pendingCount + 7) / 8 = 0 then []
          else [.sinkWrite (accBytes s.enc.acc ((s.pendingCount + 7) / 8))]) ++
        [.response { rc := .fault, fcode := 3 }]
      faultLog := s.faultLog ++ [⟨137, s.cpc, .enc .sinkIo⟩] }

/-- R133, R60, R222, R224: the write of the `k + 1`-th word that an ENC_ONE or a DENC_VAL fills fails:
the `k` words before it and the drawn prefix of its bytes have landed, ACC is cleared, PREV stays, and no
later bit is appended. -/
def Obligations.WordWriteFailureRaisesSinkIo : Prop :=
  ∀ (s : State) (v : Word32) (delta : Bool) (x : Int) (k landed : Nat) (rest : List SinkAnswer),
    1 ≤ s.wordBytes → s.EncoderOpen → s.AccReady →
    x = (if delta then v.toInt - s.enc.prev.toInt else v.toInt) → inDomain x = true →
    s.enc.rem + k * s.width ≤ (cw x).length →
    s.sinkAnswers = List.replicate k .ok ++ .err landed :: rest →
    ∃ (words : List (List Byte)) (bs : List Byte), words.length = k ∧
      (∀ w ∈ words, w.length = s.wordBytes) ∧ bs.length = s.wordBytes ∧
      bitsOfBytes (words.flatten ++ bs) =
        s.pendingBits ++ (cw x).take (s.enc.rem + k * s.width) ∧
      exec (if delta then .dencVal v else .encOne v) s = .next { s with
        enc := { s.enc with acc := 0, rem := s.width, efault := some .sinkIo }
        sinkAnswers := rest
        cpc := s.cpc + 1
        trace := s.trace ++ words.map Event.sinkWrite ++ landedEvents (bs.take landed) ++
          [.response { rc := .fault, fcode := 3 }]
        faultLog := s.faultLog ++ [⟨133, s.cpc, .enc .sinkIo⟩] }

/-- R53, R140, R198: a stream from its start to ENC_FINISH, of values encoded raw or as differences,
hands the sink the codewords of the encoded values one after another, then the 0 to 7 zero bits up to
a whole byte, then one flush. Where no bit is pending at the end, that flush is the spec's decision D18
(I7, log 18). -/
def Obligations.FinishedStreamIsCodewords : Prop :=
  ∀ (s : State) (arrivals : List Arrival) (start : Option Word32) (xs : List (Bool × Word32)),
    1 ≤ s.wordBytes → s.held = none → (∀ d ∈ encodedValues (start.getD 0) xs, inDomain d = true) →
    s.SinkAccepts (62 * xs.length + 2) →
    ∃ t events bs, runCommands (streamCommands start xs) arrivals s = .next (t, arrivals) ∧
      t.trace = s.trace ++ events ∧ t.faultLog = s.faultLog ∧ t.enc.efin = true ∧
      events.flatMap Event.sinkMarks = bs.map SinkMark.byte ++ [.flush] ∧
      bitsOfBytes bs = codewordStream (encodedValues (start.getD 0) xs) ++
        padding (codewordStream (encodedValues (start.getD 0) xs)).length ∧
      (padding (codewordStream (encodedValues (start.getD 0) xs)).length).length ≤ 7

/-- R56: the byte sequence of a finished stream is the same for every legal W. -/
def Obligations.FinishedStreamIndependentOfWidth : Prop :=
  ∀ (s t s' t' : State) (a b a' b' : List Arrival) (start : Option Word32) (xs : List (Bool × Word32)),
    1 ≤ s.wordBytes → 1 ≤ t.wordBytes → s.held = none → t.held = none →
    (∀ d ∈ encodedValues (start.getD 0) xs, inDomain d = true) →
    s.SinkAccepts (62 * xs.length + 2) → t.SinkAccepts (62 * xs.length + 2) →
    runCommands (streamCommands start xs) a s = .next (s', a') →
    runCommands (streamCommands start xs) b t = .next (t', b') →
    ∃ bytes, s'.sinkBytes = s.sinkBytes ++ bytes ∧ t'.sinkBytes = t.sinkBytes ++ bytes

/-- R192: DELTA_ENCODE hands the sink the finished stream of the successive differences, and then one
flush; of no values, no bytes. Its result is these bytes (R98, log 24). Where no bit is pending at the
end, as for no values, the flush is the spec's decision D18 (I7, log 18). -/
def Obligations.DeltaEncodeWritesDifferences : Prop :=
  ∀ (s : State) (arrivals : List Arrival) (start : Word32) (vs : List Word32),
    1 ≤ s.wordBytes → s.held = none →
    (∀ d ∈ differences start.toInt (vs.map BitVec.toInt), inDomain d = true) →
    s.SinkAccepts (62 * vs.length + 2) →
    ∃ t events bs, runCommands (deltaEncode start vs) arrivals s = .next (t, arrivals) ∧
      t.trace = s.trace ++ events ∧ t.faultLog = s.faultLog ∧ resultBytes s t = bs ∧
      events.flatMap Event.sinkMarks = bs.map SinkMark.byte ++ [.flush] ∧
      bitsOfBytes bs = codewordStream (differences start.toInt (vs.map BitVec.toInt)) ++
        padding (codewordStream (differences start.toInt (vs.map BitVec.toInt))).length ∧
      (vs = [] → bs = [])

/-! ### The decoder -/

/-- R162, R163, R165 (and the update of R164): what DecodeBit does in each state, and that a value
completed by a sign bit is not 0 and is in the domain. -/
def Obligations.ParseMachineRules : Prop :=
  (∀ d : DecUnit, d.dstate = .cz → d.zrun = 0 → decodeBit true d = .value 0 d) ∧
  (∀ d : DecUnit, d.dstate = .cz → 0 < d.zrun →
    decodeBit true d = .noValue { d with mag := 1, srem := d.zrun, dstate := .sb }) ∧
  (∀ (d : DecUnit) (b : Bool), d.ParseInv → d.dstate = .sb →
    ∃ mag : BitVec 31, mag.toNat = 2 * d.mag.toNat + b.toNat ∧
      decodeBit b d = .noValue { d with
        mag := mag, srem := d.srem - 1, dstate := if d.srem = 1 then .rs else .sb }) ∧
  ∀ (d : DecUnit) (b : Bool), d.ParseInv → d.dstate = .rs →
    ∃ x : Int, decodeBit b d = .value x { d with zrun := 0, dstate := .cz } ∧
      |x| = d.mag.toNat - 1 ∧ (x < 0 ↔ b = true) ∧ x ≠ 0 ∧ inDomain x = true

/-- R168: the bits of CW(v), fed from CZ with ZRUN = 0, emit v on the last bit and no value before it,
and end in CZ with ZRUN = 0; the registers after the prefix, the delimiter and the magnitude bits. -/
def Obligations.CodewordEmitsItsValueOnLastBit : Prop :=
  (∀ (v : Int) (d : DecUnit), inDomain v = true → d.dstate = .cz → d.zrun = 0 →
    (∃ d', parseAll (cw v) d = some ([v], d') ∧ d'.dstate = .cz ∧ d'.zrun = 0) ∧
      ∀ j < (cw v).length, ∃ d', parseAll ((cw v).take j) d = some ([], d')) ∧
  ∀ (v : Int) (d : DecUnit) (n : Nat), inDomain v = true → v ≠ 0 → d.dstate = .cz →
    d.zrun = 0 → n = magnitudeClass v →
    parseAll ((cw v).take n) d = some ([], { d with zrun := n }) ∧
      parseAll ((cw v).take (n + 1)) d =
        some ([], { d with zrun := n, mag := 1, srem := n, dstate := .sb }) ∧
      parseAll ((cw v).take (2 * n + 1)) d =
        some ([], { d with
          zrun := n, mag := BitVec.ofNat 31 (biasedMagnitude v), srem := 0, dstate := .rs }) ∧
      (cw v).length = 2 * n + 2

/-- R80, R81, R168 (log 12): a codeword that arrives at a decoder between two codewords emits its
value; only the parse machine's registers and the output list change. -/
def Obligations.CodewordInstructionEmitsValue : Prop :=
  (∀ s : State, s.dec.dfault = none → s.dec.dstate = .cz → s.dec.zrun = 0 →
    exec .cwZero s = .next { s with out := s.out ++ [0] }) ∧
  ∀ (s : State) (n mbits : Nat) (sign : Bool),
    (Instr.cwNonzero n mbits sign).wellFormed = true →
    s.dec.dfault = none → s.dec.dstate = .cz → s.dec.zrun = 0 →
    exec (.cwNonzero n mbits sign) s = .next { s with
      dec := { s.dec with mag := BitVec.ofNat 31 (2 ^ n + mbits), srem := 0 }
      out := s.out ++ [BitVec.ofInt 32
        (if sign then -((2 ^ n + mbits : Int) - 1) else (2 ^ n + mbits : Int) - 1)] }

/-- R167, R171: DEC with the source ending in `eof` before the buffer is full: every bit that stands
ready goes through the parse machine, the values are returned, and the command ends EXHAUSTED. -/
def Obligations.DecReadsUntilExhausted : Prop :=
  ∀ (s : State) (n : Word32) (bytes : List Byte) (rest : List SrcAnswer) (xs : List Int)
    (d : DecUnit),
    s.DecoderOpen → s.srcAnswers = bytes.map SrcAnswer.byte ++ .eof :: rest →
    parseAll (s.dec.bufferedBits ++ bitsOfBytes bytes) s.dec = some (xs, d) →
    xs.length < n.toNat →
    exec (.dec n) s = .next { s with
      dec := { d with byte := bytes.getLastD s.dec.byte, bitsLeft := 0, dexh := true }
      srcAnswers := rest
      cpc := s.cpc + 1
      out := xs.map (BitVec.ofInt 32)
      trace := s.trace ++ (bytes.map fun b => .sourceRead (.byte b)) ++
        [.sourceRead .eof,
          .response { rc := .ok, count := xs.length, dstat := true,
                      values := xs.map (BitVec.ofInt 32) }] }

/-- R194, R167: DDEC with the source ending in `eof` before the buffer is full: as DEC, with each
residual added to BASE and the running sum returned, when every sum is in s32. -/
def Obligations.DdecReadsUntilExhausted : Prop :=
  ∀ (s : State) (n : Word32) (bytes : List Byte) (rest : List SrcAnswer) (xs : List Int)
    (d : DecUnit),
    s.DecoderOpen → s.srcAnswers = bytes.map SrcAnswer.byte ++ .eof :: rest →
    parseAll (s.dec.bufferedBits ++ bitsOfBytes bytes) s.dec = some (xs, d) →
    xs.length < n.toNat →
    (∀ y ∈ runningSums s.dec.base.toInt xs, -(2 ^ 31) ≤ y ∧ y ≤ 2 ^ 31 - 1) →
    exec (.ddec n) s = .next { s with
      dec := { d with
        byte := bytes.getLastD s.dec.byte
        bitsLeft := 0
        dexh := true
        base := ((runningSums s.dec.base.toInt xs).map (BitVec.ofInt 32)).getLastD s.dec.base }
      srcAnswers := rest
      cpc := s.cpc + 1
      out := (runningSums s.dec.base.toInt xs).map (BitVec.ofInt 32)
      trace := s.trace ++ (bytes.map fun b => .sourceRead (.byte b)) ++
        [.sourceRead .eof,
          .response { rc := .ok, count := xs.length, dstat := true,
                      values := (runningSums s.dec.base.toInt xs).map (BitVec.ofInt 32) }] }

/-- R167, R194, R61: DEC and DDEC that fill their buffer: the loop stops right after the bit that
completes the N-th value, with the rest of its byte buffered, having read no byte more, and ends
FULL. `k` is the number of bits used, and `bytes` are the bytes that hold them. -/
def Obligations.DecodeStopsWhenFull : Prop :=
  ∀ (s : State) (n : Word32) (delta : Bool) (bytes : List Byte) (rest : List SrcAnswer)
    (k unused : Nat) (xs : List Int) (d : DecUnit),
    s.DecoderOpen → s.srcAnswers = bytes.map SrcAnswer.byte ++ rest →
    k + unused = s.dec.bitsLeft + 8 * bytes.length → (bytes ≠ [] → unused < 8) →
    parseAll ((s.dec.bufferedBits ++ bitsOfBytes bytes).take k) s.dec = some (xs, d) →
    xs.length = n.toNat →
    (∀ j < k, ∀ ys e, parseAll ((s.dec.bufferedBits ++ bitsOfBytes bytes).take j) s.dec =
      some (ys, e) → ys.length < n.toNat) →
    SumsFit delta s.dec.base xs →
    exec (if delta then .ddec n else .dec n) s = .next { s with
      dec := { d with
        byte := bytes.getLastD s.dec.byte
        bitsLeft := unused
        dexh := false
        base := baseAfter delta s.dec.base xs }
      srcAnswers := rest
      cpc := s.cpc + 1
      out := emittedValues delta s.dec.base xs
      trace := s.trace ++ (bytes.map fun b => .sourceRead (.byte b)) ++
        [.response { rc := .ok, count := n.toNat, dstat := false,
                     values := emittedValues delta s.dec.base xs }] }

/-- R167: `N = 0` returns FULL at once, with no source read and no change but to DEXH. -/
def Obligations.DecodeOfNothingIsFull : Prop :=
  ∀ (s : State) (delta : Bool), s.DecoderOpen →
    exec (if delta then .ddec 0 else .dec 0) s = .next { s with
      dec := { s.dec with dexh := false }
      cpc := s.cpc + 1
      out := []
      trace := s.trace ++ [.response { rc := .ok, count := 0, dstat := false, values := [] }] }

/-- R160, R222, R224, R226: a failing source read raises SRC_IO: the values emitted before it are
returned, DEXH is unchanged, and nothing else of the decoder changes by the failure. -/
def Obligations.SourceFailureRaisesSrcIo : Prop :=
  ∀ (s : State) (n : Word32) (delta : Bool) (bytes : List Byte) (rest : List SrcAnswer)
    (xs : List Int) (d : DecUnit),
    s.DecoderOpen → s.srcAnswers = bytes.map SrcAnswer.byte ++ .err :: rest →
    parseAll (s.dec.bufferedBits ++ bitsOfBytes bytes) s.dec = some (xs, d) →
    xs.length < n.toNat → SumsFit delta s.dec.base xs →
    exec (if delta then .ddec n else .dec n) s = .next { s with
      dec := { d with
        byte := bytes.getLastD s.dec.byte
        bitsLeft := 0
        base := baseAfter delta s.dec.base xs
        dfault := some .srcIo }
      srcAnswers := rest
      cpc := s.cpc + 1
      out := emittedValues delta s.dec.base xs
      trace := s.trace ++ (bytes.map fun b => .sourceRead (.byte b)) ++
        [.sourceRead .err,
          .response { rc := .fault, fcode := 2, count := xs.length,
                      values := emittedValues delta s.dec.base xs }]
      faultLog := s.faultLog ++ [⟨160, s.cpc, .dec .srcIo⟩] }

/-- R161, R222, R224: a 0 bit in CZ with ZRUN = 30 raises DEC_OVERLONG: the bit is consumed, ZRUN stays
30, and the values emitted before it are returned. `k` bits come before the faulting one. -/
def Obligations.OverlongPrefixRaisesFault : Prop :=
  ∀ (s : State) (n : Word32) (delta : Bool) (bytes : List Byte) (rest : List SrcAnswer)
    (k unused : Nat) (xs : List Int) (d : DecUnit),
    s.DecoderOpen → s.srcAnswers = bytes.map SrcAnswer.byte ++ rest →
    k + 1 + unused = s.dec.bitsLeft + 8 * bytes.length → (bytes ≠ [] → unused < 8) →
    parseAll ((s.dec.bufferedBits ++ bitsOfBytes bytes).take k) s.dec = some (xs, d) →
    d.dstate = .cz → d.zrun = 30 →
    (s.dec.bufferedBits ++ bitsOfBytes bytes)[k]? = some false →
    xs.length < n.toNat → SumsFit delta s.dec.base xs →
    exec (if delta then .ddec n else .dec n) s = .next { s with
      dec := { d with
        byte := bytes.getLastD s.dec.byte
        bitsLeft := unused
        base := baseAfter delta s.dec.base xs
        dfault := some .overlong }
      srcAnswers := rest
      cpc := s.cpc + 1
      out := emittedValues delta s.dec.base xs
      trace := s.trace ++ (bytes.map fun b => .sourceRead (.byte b)) ++
        [.response { rc := .fault, fcode := 1, count := xs.length,
                     values := emittedValues delta s.dec.base xs }]
      faultLog := s.faultLog ++ [⟨161, s.cpc, .dec .overlong⟩] }

/-- R194, R222: a residual whose running sum leaves s32 raises SUM_OVF: the residual is consumed, BASE
is unchanged by it, and the sums before it are returned. -/
def Obligations.SumOverflowRaisesFault : Prop :=
  ∀ (s : State) (n : Word32) (bytes : List Byte) (rest : List SrcAnswer) (k unused : Nat)
    (xs : List Int) (x : Int) (d : DecUnit),
    s.DecoderOpen → s.srcAnswers = bytes.map SrcAnswer.byte ++ rest →
    k + 1 + unused = s.dec.bitsLeft + 8 * bytes.length → (bytes ≠ [] → unused < 8) →
    (∃ e, parseAll ((s.dec.bufferedBits ++ bitsOfBytes bytes).take k) s.dec = some (xs, e)) →
    parseAll ((s.dec.bufferedBits ++ bitsOfBytes bytes).take (k + 1)) s.dec =
      some (xs ++ [x], d) →
    xs.length < n.toNat → SumsFit true s.dec.base xs →
    ((baseAfter true s.dec.base xs).toInt + x < -(2 ^ 31) ∨
      2 ^ 31 - 1 < (baseAfter true s.dec.base xs).toInt + x) →
    exec (.ddec n) s = .next { s with
      dec := { d with
        byte := bytes.getLastD s.dec.byte
        bitsLeft := unused
        base := baseAfter true s.dec.base xs
        dfault := some .sumOvf }
      srcAnswers := rest
      cpc := s.cpc + 1
      out := emittedValues true s.dec.base xs
      trace := s.trace ++ (bytes.map fun b => .sourceRead (.byte b)) ++
        [.response { rc := .fault, fcode := 3, count := xs.length,
                     values := emittedValues true s.dec.base xs }]
      faultLog := s.faultLog ++ [⟨194, s.cpc, .dec .sumOvf⟩] }

/-- R170: DEC_INIT and then DEC commands of any lengths of at least 1, over the bytes of a finished
stream and then `eof`, return the values encoded, in order and nothing more; the last of them ends
EXHAUSTED, and the padding stays in ZRUN. -/
def Obligations.StreamRoundTrip : Prop :=
  ∀ (s : State) (arrivals : List Arrival) (ns : List Word32) (vs : List Int) (bytes : List Byte)
    (rest : List SrcAnswer),
    s.held = none → (∀ v ∈ vs, inDomain v = true) →
    bitsOfBytes bytes = codewordStream vs ++ padding (codewordStream vs).length →
    s.srcAnswers = bytes.map SrcAnswer.byte ++ .eof :: rest →
    (∀ n ∈ ns, n ≠ 0) → (ns.dropLast.map BitVec.toNat).sum ≤ vs.length →
    vs.length < (ns.map BitVec.toNat).sum →
    ∃ t events, runCommands (.decInit :: ns.map Instr.dec) arrivals s = .next (t, arrivals) ∧
      t.trace = s.trace ++ events ∧ resultValues s t = vs.map (BitVec.ofInt 32) ∧
      (events.flatMap Event.responses).getLast?.map Response.dstat = some true ∧
      t.held = none ∧ t.dec.dexh = true ∧ t.dec.dfault = none ∧ t.dec.dstate = .cz ∧
      t.dec.zrun = (padding (codewordStream vs).length).length ∧ t.dec.bitsLeft = 0 ∧
      t.srcAnswers = rest

/-- R196: DELTA_DECODE over the bytes of DELTA_ENCODE returns the sequence, with no fault, when base =
start and every difference is in the domain, for every chunk length of at least 1. The host's loop
runs under a bound of more turns than there are values (log 24). -/
def Obligations.DeltaRoundTrip : Prop :=
  ∀ (e e' s : State) (a a' arrivals : List Arrival) (start nchunk : Word32) (bound : Nat)
    (vs : List Word32) (rest : List SrcAnswer),
    1 ≤ e.wordBytes → e.held = none →
    (∀ d ∈ differences start.toInt (vs.map BitVec.toInt), inDomain d = true) →
    e.SinkAccepts (62 * vs.length + 2) → runCommands (deltaEncode start vs) a e = .next (e', a') →
    s.held = none → s.srcAnswers = (resultBytes e e').map SrcAnswer.byte ++ .eof :: rest →
    nchunk ≠ 0 → vs.length < bound →
    ∃ t events, deltaDecode start nchunk bound arrivals s = .next (t, arrivals) ∧
      t.trace = s.trace ++ events ∧ resultValues s t = vs ∧
      t.faultLog = s.faultLog ∧ t.held = none ∧ t.dec.dexh = true ∧ t.dec.dfault = none ∧
      t.dec.base = vs.getLastD start

/-- R171, R223: an `eof` in the middle of a codeword only suspends the decode: two DEC commands over
`bytes1`, `eof`, `bytes2`, `eof` emit what one emits over `bytes1 ++ bytes2`, and leave the same
registers. -/
def Obligations.DecodeIsResumable : Prop :=
  ∀ (s : State) (arrivals : List Arrival) (n : Word32) (bytes1 bytes2 : List Byte)
    (rest : List SrcAnswer) (xs : List Int) (d : DecUnit),
    s.DecoderOpen →
    s.srcAnswers = bytes1.map SrcAnswer.byte ++ .eof :: (bytes2.map SrcAnswer.byte ++ .eof :: rest) →
    parseAll (s.dec.bufferedBits ++ bitsOfBytes (bytes1 ++ bytes2)) s.dec = some (xs, d) →
    xs.length < n.toNat →
    ∃ t u ys zs, runCommands [.dec n, .dec n] arrivals s = .next (t, arrivals) ∧
      exec (.dec n) { s with
        srcAnswers := (bytes1 ++ bytes2).map SrcAnswer.byte ++ .eof :: rest } = .next u ∧
      t.responses = s.responses ++
        [{ rc := .ok, count := ys.length, dstat := true, values := ys },
          { rc := .ok, count := zs.length, dstat := true, values := zs }] ∧
      u.responses = s.responses ++
        [{ rc := .ok, count := (ys ++ zs).length, dstat := true, values := ys ++ zs }] ∧
      t.dec = u.dec

/-! ### What commands leave alone -/

/-- R33, R40, R68: an encoder command neither reads nor writes the decoder's registers, the source or
the output list, and a decoder command neither reads nor writes the encoder's registers or the sink;
neither touches ILL. The command answers the same next state but for the other unit's registers,
whatever these hold. -/
def Obligations.UnitsAreIndependent : Prop :=
  (∀ (i : Instr) (s : State), IsEncoderCommand i → s.held = none →
    ∃ (enc : EncUnit s.wordBytes) (held : Option Held) (cpc : Nat) (sinkAs : List SinkAnswer)
      (events : List Event) (log : List FaultRecord),
      (events.flatMap Event.sourceReads = []) ∧
      ∀ (dec : DecUnit) (out : List Word32) (srcAs : List SrcAnswer),
        exec i { s with dec := dec, out := out, srcAnswers := srcAs } = .next { s with
          dec := dec, out := out, srcAnswers := srcAs
          enc := enc, held := held, cpc := cpc, sinkAnswers := sinkAs
          trace := s.trace ++ events, faultLog := log }) ∧
  ∀ (i : Instr) (s : State), IsDecoderCommand i → s.held = none →
    ∃ (dec : DecUnit) (held : Option Held) (cpc : Nat) (srcAs : List SrcAnswer)
      (out : List Word32) (events : List Event) (log : List FaultRecord) (freeCount : Nat),
      (events.flatMap Event.sinkMarks = []) ∧
      ∀ (enc : EncUnit s.wordBytes) (sinkAs : List SinkAnswer),
        exec i { s with enc := enc, sinkAnswers := sinkAs } = .next { s with
          enc := enc, sinkAnswers := sinkAs
          dec := dec, held := held, cpc := cpc, srcAnswers := srcAs, out := out
          trace := s.trace ++ events, faultLog := log, freeCount := freeCount }

/-- R33, R198: ENC_ONE and ENC_FINISH never read or write PREV, and DEC never reads or writes BASE. -/
def Obligations.RawCommandsLeaveDeltaRegisters : Prop :=
  (∀ (i : Instr) (s : State) (prev : Word32), (∃ v, i = .encOne v) ∨ i = .encFinish →
    s.held = none →
    ∃ t : State, exec i s = .next t ∧ t.enc.prev = s.enc.prev ∧
      exec i { s with enc := { s.enc with prev := prev } } =
        .next { t with enc := { t.enc with prev := prev } }) ∧
  ∀ (n : Word32) (s : State) (base : Word32), s.held = none →
    ∃ t : State, exec (.dec n) s = .next t ∧ t.dec.base = s.dec.base ∧
      exec (.dec n) { s with dec := { s.dec with base := base } } =
        .next { t with dec := { t.dec with base := base } }
end

