-- ==== Sys2Proof/Laws/State.lean ====
section
/-!
SUPPORT. What each update of the state does to each field, one lemma per field; the accumulator is
read bit by bit, since its type depends on the width.
-/

namespace Sys2Proof.Machine

/-! ### respond -/

@[simp] theorem respond_wordBytes (r : Response) (s : State) :
    (respond r s).wordBytes = s.wordBytes := rfl
@[simp] theorem respond_enc_rem (r : Response) (s : State) :
    (respond r s).enc.rem = s.enc.rem := rfl
@[simp] theorem respond_enc_prev (r : Response) (s : State) :
    (respond r s).enc.prev = s.enc.prev := rfl
@[simp] theorem respond_enc_efin (r : Response) (s : State) :
    (respond r s).enc.efin = s.enc.efin := rfl
@[simp] theorem respond_enc_efault (r : Response) (s : State) :
    (respond r s).enc.efault = s.enc.efault := rfl
@[simp] theorem respond_dec (r : Response) (s : State) : (respond r s).dec = s.dec := rfl
@[simp] theorem respond_ill (r : Response) (s : State) : (respond r s).ill = s.ill := rfl
@[simp] theorem respond_program (r : Response) (s : State) :
    (respond r s).program = s.program := rfl
@[simp] theorem respond_cpc (r : Response) (s : State) : (respond r s).cpc = s.cpc + 1 := rfl
@[simp] theorem respond_held (r : Response) (s : State) : (respond r s).held = none := rfl
@[simp] theorem respond_sinkAnswers (r : Response) (s : State) :
    (respond r s).sinkAnswers = s.sinkAnswers := rfl
@[simp] theorem respond_srcAnswers (r : Response) (s : State) :
    (respond r s).srcAnswers = s.srcAnswers := rfl
@[simp] theorem respond_trace (r : Response) (s : State) :
    (respond r s).trace = s.trace ++ [.response r] := rfl
@[simp] theorem respond_out (r : Response) (s : State) : (respond r s).out = s.out := rfl
@[simp] theorem respond_faultLog (r : Response) (s : State) :
    (respond r s).faultLog = s.faultLog := rfl
@[simp] theorem respond_resetIn (r : Response) (s : State) :
    (respond r s).resetIn = s.resetIn := rfl
@[simp] theorem respond_freeCount (r : Response) (s : State) :
    (respond r s).freeCount = s.freeCount := rfl
@[simp] theorem respond_statusValues (r : Response) (s : State) :
    (respond r s).statusValues = s.statusValues := rfl
@[simp] theorem respond_acc_bit (r : Response) (s : State) (i : Nat) :
    (respond r s).enc.acc.getLsbD i = s.enc.acc.getLsbD i := rfl

/-! ### hold -/

@[simp] theorem hold_wordBytes (h : Held) (s : State) : (hold h s).wordBytes = s.wordBytes := rfl
@[simp] theorem hold_enc_rem (h : Held) (s : State) : (hold h s).enc.rem = s.enc.rem := rfl
@[simp] theorem hold_enc_prev (h : Held) (s : State) : (hold h s).enc.prev = s.enc.prev := rfl
@[simp] theorem hold_enc_efin (h : Held) (s : State) : (hold h s).enc.efin = s.enc.efin := rfl
@[simp] theorem hold_enc_efault (h : Held) (s : State) : (hold h s).enc.efault = s.enc.efault := rfl
@[simp] theorem hold_dec (h : Held) (s : State) : (hold h s).dec = s.dec := rfl
@[simp] theorem hold_ill (h : Held) (s : State) : (hold h s).ill = s.ill := rfl
@[simp] theorem hold_program (h : Held) (s : State) : (hold h s).program = s.program := rfl
@[simp] theorem hold_cpc (h : Held) (s : State) : (hold h s).cpc = s.cpc := rfl
@[simp] theorem hold_held (h : Held) (s : State) : (hold h s).held = some h := rfl
@[simp] theorem hold_sinkAnswers (h : Held) (s : State) :
    (hold h s).sinkAnswers = s.sinkAnswers := rfl
@[simp] theorem hold_srcAnswers (h : Held) (s : State) : (hold h s).srcAnswers = s.srcAnswers := rfl
@[simp] theorem hold_trace (h : Held) (s : State) : (hold h s).trace = s.trace := rfl
@[simp] theorem hold_out (h : Held) (s : State) : (hold h s).out = s.out := rfl
@[simp] theorem hold_faultLog (h : Held) (s : State) : (hold h s).faultLog = s.faultLog := rfl
@[simp] theorem hold_resetIn (h : Held) (s : State) : (hold h s).resetIn = s.resetIn := rfl
@[simp] theorem hold_freeCount (h : Held) (s : State) : (hold h s).freeCount = s.freeCount := rfl
@[simp] theorem hold_statusValues (h : Held) (s : State) : (hold h s).statusValues = s.statusValues := rfl
@[simp] theorem hold_acc_bit (h : Held) (s : State) (i : Nat) :
    (hold h s).enc.acc.getLsbD i = s.enc.acc.getLsbD i := rfl

/-! ### emit -/

@[simp] theorem emit_wordBytes (x : Word32) (s : State) : (emit x s).wordBytes = s.wordBytes := rfl
@[simp] theorem emit_enc_rem (x : Word32) (s : State) : (emit x s).enc.rem = s.enc.rem := rfl
@[simp] theorem emit_enc_prev (x : Word32) (s : State) : (emit x s).enc.prev = s.enc.prev := rfl
@[simp] theorem emit_enc_efin (x : Word32) (s : State) : (emit x s).enc.efin = s.enc.efin := rfl
@[simp] theorem emit_enc_efault (x : Word32) (s : State) :
    (emit x s).enc.efault = s.enc.efault := rfl
@[simp] theorem emit_dec (x : Word32) (s : State) : (emit x s).dec = s.dec := rfl
@[simp] theorem emit_ill (x : Word32) (s : State) : (emit x s).ill = s.ill := rfl
@[simp] theorem emit_program (x : Word32) (s : State) : (emit x s).program = s.program := rfl
@[simp] theorem emit_cpc (x : Word32) (s : State) : (emit x s).cpc = s.cpc := rfl
@[simp] theorem emit_held (x : Word32) (s : State) : (emit x s).held = s.held := rfl
@[simp] theorem emit_sinkAnswers (x : Word32) (s : State) :
    (emit x s).sinkAnswers = s.sinkAnswers := rfl
@[simp] theorem emit_srcAnswers (x : Word32) (s : State) :
    (emit x s).srcAnswers = s.srcAnswers := rfl
@[simp] theorem emit_trace (x : Word32) (s : State) : (emit x s).trace = s.trace := rfl
@[simp] theorem emit_out (x : Word32) (s : State) : (emit x s).out = s.out ++ [x] := rfl
@[simp] theorem emit_faultLog (x : Word32) (s : State) : (emit x s).faultLog = s.faultLog := rfl
@[simp] theorem emit_resetIn (x : Word32) (s : State) : (emit x s).resetIn = s.resetIn := rfl
@[simp] theorem emit_freeCount (x : Word32) (s : State) : (emit x s).freeCount = s.freeCount := rfl
@[simp] theorem emit_statusValues (x : Word32) (s : State) : (emit x s).statusValues = s.statusValues := rfl
@[simp] theorem emit_acc_bit (x : Word32) (s : State) (i : Nat) :
    (emit x s).enc.acc.getLsbD i = s.enc.acc.getLsbD i := rfl

/-! ### startEncoder -/

@[simp] theorem startEncoder_wordBytes (prev : Word32) (s : State) :
    (startEncoder prev s).wordBytes = s.wordBytes := rfl
@[simp] theorem startEncoder_enc_rem (prev : Word32) (s : State) :
    (startEncoder prev s).enc.rem = 8 * s.wordBytes := rfl
@[simp] theorem startEncoder_enc_prev (prev : Word32) (s : State) :
    (startEncoder prev s).enc.prev = prev := rfl
@[simp] theorem startEncoder_enc_efin (prev : Word32) (s : State) :
    (startEncoder prev s).enc.efin = false := rfl
@[simp] theorem startEncoder_enc_efault (prev : Word32) (s : State) :
    (startEncoder prev s).enc.efault = none := rfl
@[simp] theorem startEncoder_dec (prev : Word32) (s : State) :
    (startEncoder prev s).dec = s.dec := rfl
@[simp] theorem startEncoder_ill (prev : Word32) (s : State) :
    (startEncoder prev s).ill = s.ill := rfl
@[simp] theorem startEncoder_program (prev : Word32) (s : State) :
    (startEncoder prev s).program = s.program := rfl
@[simp] theorem startEncoder_cpc (prev : Word32) (s : State) :
    (startEncoder prev s).cpc = s.cpc := rfl
@[simp] theorem startEncoder_held (prev : Word32) (s : State) :
    (startEncoder prev s).held = s.held := rfl
@[simp] theorem startEncoder_sinkAnswers (prev : Word32) (s : State) :
    (startEncoder prev s).sinkAnswers = s.sinkAnswers := rfl
@[simp] theorem startEncoder_srcAnswers (prev : Word32) (s : State) :
    (startEncoder prev s).srcAnswers = s.srcAnswers := rfl
@[simp] theorem startEncoder_trace (prev : Word32) (s : State) :
    (startEncoder prev s).trace = s.trace := rfl
@[simp] theorem startEncoder_out (prev : Word32) (s : State) :
    (startEncoder prev s).out = s.out := rfl
@[simp] theorem startEncoder_faultLog (prev : Word32) (s : State) :
    (startEncoder prev s).faultLog = s.faultLog := rfl
@[simp] theorem startEncoder_resetIn (prev : Word32) (s : State) :
    (startEncoder prev s).resetIn = s.resetIn := rfl
@[simp] theorem startEncoder_freeCount (prev : Word32) (s : State) :
    (startEncoder prev s).freeCount = s.freeCount := rfl
@[simp] theorem startEncoder_statusValues (prev : Word32) (s : State) :
    (startEncoder prev s).statusValues = s.statusValues := rfl
@[simp] theorem startEncoder_acc_bit (prev : Word32) (s : State) (i : Nat) :
    (startEncoder prev s).enc.acc.getLsbD i = false := by simp [startEncoder, EncUnit.start]

/-! ### startDecoder -/

@[simp] theorem startDecoder_wordBytes (base : Word32) (s : State) :
    (startDecoder base s).wordBytes = s.wordBytes := rfl
@[simp] theorem startDecoder_enc_rem (base : Word32) (s : State) :
    (startDecoder base s).enc.rem = s.enc.rem := rfl
@[simp] theorem startDecoder_enc_prev (base : Word32) (s : State) :
    (startDecoder base s).enc.prev = s.enc.prev := rfl
@[simp] theorem startDecoder_enc_efin (base : Word32) (s : State) :
    (startDecoder base s).enc.efin = s.enc.efin := rfl
@[simp] theorem startDecoder_enc_efault (base : Word32) (s : State) :
    (startDecoder base s).enc.efault = s.enc.efault := rfl
@[simp] theorem startDecoder_dec (base : Word32) (s : State) :
    (startDecoder base s).dec = DecUnit.start s.freeCount base := rfl
@[simp] theorem startDecoder_ill (base : Word32) (s : State) :
    (startDecoder base s).ill = s.ill := rfl
@[simp] theorem startDecoder_program (base : Word32) (s : State) :
    (startDecoder base s).program = s.program := rfl
@[simp] theorem startDecoder_cpc (base : Word32) (s : State) :
    (startDecoder base s).cpc = s.cpc := rfl
@[simp] theorem startDecoder_held (base : Word32) (s : State) :
    (startDecoder base s).held = s.held := rfl
@[simp] theorem startDecoder_sinkAnswers (base : Word32) (s : State) :
    (startDecoder base s).sinkAnswers = s.sinkAnswers := rfl
@[simp] theorem startDecoder_srcAnswers (base : Word32) (s : State) :
    (startDecoder base s).srcAnswers = s.srcAnswers := rfl
@[simp] theorem startDecoder_trace (base : Word32) (s : State) :
    (startDecoder base s).trace = s.trace := rfl
@[simp] theorem startDecoder_out (base : Word32) (s : State) :
    (startDecoder base s).out = s.out := rfl
@[simp] theorem startDecoder_faultLog (base : Word32) (s : State) :
    (startDecoder base s).faultLog = s.faultLog := rfl
@[simp] theorem startDecoder_resetIn (base : Word32) (s : State) :
    (startDecoder base s).resetIn = s.resetIn := rfl
@[simp] theorem startDecoder_freeCount (base : Word32) (s : State) :
    (startDecoder base s).freeCount = s.freeCount + 1 := rfl
@[simp] theorem startDecoder_statusValues (base : Word32) (s : State) :
    (startDecoder base s).statusValues = s.statusValues := rfl
@[simp] theorem startDecoder_acc_bit (base : Word32) (s : State) (i : Nat) :
    (startDecoder base s).enc.acc.getLsbD i = s.enc.acc.getLsbD i := rfl

/-! ### clearAcc -/

@[simp] theorem clearAcc_wordBytes (s : State) : (clearAcc s).wordBytes = s.wordBytes := rfl
@[simp] theorem clearAcc_enc_rem (s : State) : (clearAcc s).enc.rem = 8 * s.wordBytes := rfl
@[simp] theorem clearAcc_enc_prev (s : State) : (clearAcc s).enc.prev = s.enc.prev := rfl
@[simp] theorem clearAcc_enc_efin (s : State) : (clearAcc s).enc.efin = s.enc.efin := rfl
@[simp] theorem clearAcc_enc_efault (s : State) : (clearAcc s).enc.efault = s.enc.efault := rfl
@[simp] theorem clearAcc_dec (s : State) : (clearAcc s).dec = s.dec := rfl
@[simp] theorem clearAcc_ill (s : State) : (clearAcc s).ill = s.ill := rfl
@[simp] theorem clearAcc_program (s : State) : (clearAcc s).program = s.program := rfl
@[simp] theorem clearAcc_cpc (s : State) : (clearAcc s).cpc = s.cpc := rfl
@[simp] theorem clearAcc_held (s : State) : (clearAcc s).held = s.held := rfl
@[simp] theorem clearAcc_sinkAnswers (s : State) : (clearAcc s).sinkAnswers = s.sinkAnswers := rfl
@[simp] theorem clearAcc_srcAnswers (s : State) : (clearAcc s).srcAnswers = s.srcAnswers := rfl
@[simp] theorem clearAcc_trace (s : State) : (clearAcc s).trace = s.trace := rfl
@[simp] theorem clearAcc_out (s : State) : (clearAcc s).out = s.out := rfl
@[simp] theorem clearAcc_faultLog (s : State) : (clearAcc s).faultLog = s.faultLog := rfl
@[simp] theorem clearAcc_resetIn (s : State) : (clearAcc s).resetIn = s.resetIn := rfl
@[simp] theorem clearAcc_freeCount (s : State) : (clearAcc s).freeCount = s.freeCount := rfl
@[simp] theorem clearAcc_statusValues (s : State) : (clearAcc s).statusValues = s.statusValues := rfl
@[simp] theorem clearAcc_acc_bit (s : State) (i : Nat) :
    (clearAcc s).enc.acc.getLsbD i = false := by simp [clearAcc]

/-! ### placeBit -/

@[simp] theorem placeBit_wordBytes (b : Bool) (s : State) :
    (placeBit b s).wordBytes = s.wordBytes := rfl
@[simp] theorem placeBit_enc_rem (b : Bool) (s : State) :
    (placeBit b s).enc.rem = s.enc.rem - 1 := rfl
@[simp] theorem placeBit_enc_prev (b : Bool) (s : State) :
    (placeBit b s).enc.prev = s.enc.prev := rfl
@[simp] theorem placeBit_enc_efin (b : Bool) (s : State) :
    (placeBit b s).enc.efin = s.enc.efin := rfl
@[simp] theorem placeBit_enc_efault (b : Bool) (s : State) :
    (placeBit b s).enc.efault = s.enc.efault := rfl
@[simp] theorem placeBit_dec (b : Bool) (s : State) : (placeBit b s).dec = s.dec := rfl
@[simp] theorem placeBit_ill (b : Bool) (s : State) : (placeBit b s).ill = s.ill := rfl
@[simp] theorem placeBit_program (b : Bool) (s : State) : (placeBit b s).program = s.program := rfl
@[simp] theorem placeBit_cpc (b : Bool) (s : State) : (placeBit b s).cpc = s.cpc := rfl
@[simp] theorem placeBit_held (b : Bool) (s : State) : (placeBit b s).held = s.held := rfl
@[simp] theorem placeBit_sinkAnswers (b : Bool) (s : State) :
    (placeBit b s).sinkAnswers = s.sinkAnswers := rfl
@[simp] theorem placeBit_srcAnswers (b : Bool) (s : State) :
    (placeBit b s).srcAnswers = s.srcAnswers := rfl
@[simp] theorem placeBit_trace (b : Bool) (s : State) : (placeBit b s).trace = s.trace := rfl
@[simp] theorem placeBit_out (b : Bool) (s : State) : (placeBit b s).out = s.out := rfl
@[simp] theorem placeBit_faultLog (b : Bool) (s : State) :
    (placeBit b s).faultLog = s.faultLog := rfl
@[simp] theorem placeBit_resetIn (b : Bool) (s : State) : (placeBit b s).resetIn = s.resetIn := rfl
@[simp] theorem placeBit_freeCount (b : Bool) (s : State) :
    (placeBit b s).freeCount = s.freeCount := rfl
@[simp] theorem placeBit_statusValues (b : Bool) (s : State) :
    (placeBit b s).statusValues = s.statusValues := rfl

/-! ### recordFault_enc -/

@[simp] theorem recordFault_enc_wordBytes (rule : Nat) (e : EncFault) (s : State) :
    (recordFault rule (.enc e) s).wordBytes = s.wordBytes := rfl
@[simp] theorem recordFault_enc_enc_rem (rule : Nat) (e : EncFault) (s : State) :
    (recordFault rule (.enc e) s).enc.rem = s.enc.rem := rfl
@[simp] theorem recordFault_enc_enc_prev (rule : Nat) (e : EncFault) (s : State) :
    (recordFault rule (.enc e) s).enc.prev = s.enc.prev := rfl
@[simp] theorem recordFault_enc_enc_efin (rule : Nat) (e : EncFault) (s : State) :
    (recordFault rule (.enc e) s).enc.efin = s.enc.efin := rfl
@[simp] theorem recordFault_enc_enc_efault (rule : Nat) (e : EncFault) (s : State) :
    (recordFault rule (.enc e) s).enc.efault = (s.enc.efault <|> some e) := rfl
@[simp] theorem recordFault_enc_dec (rule : Nat) (e : EncFault) (s : State) :
    (recordFault rule (.enc e) s).dec = s.dec := rfl
@[simp] theorem recordFault_enc_ill (rule : Nat) (e : EncFault) (s : State) :
    (recordFault rule (.enc e) s).ill = s.ill := rfl
@[simp] theorem recordFault_enc_program (rule : Nat) (e : EncFault) (s : State) :
    (recordFault rule (.enc e) s).program = s.program := rfl
@[simp] theorem recordFault_enc_cpc (rule : Nat) (e : EncFault) (s : State) :
    (recordFault rule (.enc e) s).cpc = s.cpc := rfl
@[simp] theorem recordFault_enc_held (rule : Nat) (e : EncFault) (s : State) :
    (recordFault rule (.enc e) s).held = s.held := rfl
@[simp] theorem recordFault_enc_sinkAnswers (rule : Nat) (e : EncFault) (s : State) :
    (recordFault rule (.enc e) s).sinkAnswers = s.sinkAnswers := rfl
@[simp] theorem recordFault_enc_srcAnswers (rule : Nat) (e : EncFault) (s : State) :
    (recordFault rule (.enc e) s).srcAnswers = s.srcAnswers := rfl
@[simp] theorem recordFault_enc_trace (rule : Nat) (e : EncFault) (s : State) :
    (recordFault rule (.enc e) s).trace = s.trace := rfl
@[simp] theorem recordFault_enc_out (rule : Nat) (e : EncFault) (s : State) :
    (recordFault rule (.enc e) s).out = s.out := rfl
@[simp] theorem recordFault_enc_faultLog (rule : Nat) (e : EncFault) (s : State) :
    (recordFault rule (.enc e) s).faultLog = s.faultLog ++ [⟨rule, s.cpc, .enc e⟩] := rfl
@[simp] theorem recordFault_enc_resetIn (rule : Nat) (e : EncFault) (s : State) :
    (recordFault rule (.enc e) s).resetIn = s.resetIn := rfl
@[simp] theorem recordFault_enc_freeCount (rule : Nat) (e : EncFault) (s : State) :
    (recordFault rule (.enc e) s).freeCount = s.freeCount := rfl
@[simp] theorem recordFault_enc_statusValues (rule : Nat) (e : EncFault) (s : State) :
    (recordFault rule (.enc e) s).statusValues = s.statusValues := rfl
@[simp] theorem recordFault_enc_acc_bit (rule : Nat) (e : EncFault) (s : State) (i : Nat) :
    (recordFault rule (.enc e) s).enc.acc.getLsbD i = s.enc.acc.getLsbD i := rfl

/-! ### recordFault_dec -/

@[simp] theorem recordFault_dec_wordBytes (rule : Nat) (d : DecFault) (s : State) :
    (recordFault rule (.dec d) s).wordBytes = s.wordBytes := rfl
@[simp] theorem recordFault_dec_enc_rem (rule : Nat) (d : DecFault) (s : State) :
    (recordFault rule (.dec d) s).enc.rem = s.enc.rem := rfl
@[simp] theorem recordFault_dec_enc_prev (rule : Nat) (d : DecFault) (s : State) :
    (recordFault rule (.dec d) s).enc.prev = s.enc.prev := rfl
@[simp] theorem recordFault_dec_enc_efin (rule : Nat) (d : DecFault) (s : State) :
    (recordFault rule (.dec d) s).enc.efin = s.enc.efin := rfl
@[simp] theorem recordFault_dec_enc_efault (rule : Nat) (d : DecFault) (s : State) :
    (recordFault rule (.dec d) s).enc.efault = s.enc.efault := rfl
@[simp] theorem recordFault_dec_dec (rule : Nat) (d : DecFault) (s : State) :
    (recordFault rule (.dec d) s).dec = { s.dec with dfault := s.dec.dfault <|> some d } := rfl
@[simp] theorem recordFault_dec_ill (rule : Nat) (d : DecFault) (s : State) :
    (recordFault rule (.dec d) s).ill = s.ill := rfl
@[simp] theorem recordFault_dec_program (rule : Nat) (d : DecFault) (s : State) :
    (recordFault rule (.dec d) s).program = s.program := rfl
@[simp] theorem recordFault_dec_cpc (rule : Nat) (d : DecFault) (s : State) :
    (recordFault rule (.dec d) s).cpc = s.cpc := rfl
@[simp] theorem recordFault_dec_held (rule : Nat) (d : DecFault) (s : State) :
    (recordFault rule (.dec d) s).held = s.held := rfl
@[simp] theorem recordFault_dec_sinkAnswers (rule : Nat) (d : DecFault) (s : State) :
    (recordFault rule (.dec d) s).sinkAnswers = s.sinkAnswers := rfl
@[simp] theorem recordFault_dec_srcAnswers (rule : Nat) (d : DecFault) (s : State) :
    (recordFault rule (.dec d) s).srcAnswers = s.srcAnswers := rfl
@[simp] theorem recordFault_dec_trace (rule : Nat) (d : DecFault) (s : State) :
    (recordFault rule (.dec d) s).trace = s.trace := rfl
@[simp] theorem recordFault_dec_out (rule : Nat) (d : DecFault) (s : State) :
    (recordFault rule (.dec d) s).out = s.out := rfl
@[simp] theorem recordFault_dec_faultLog (rule : Nat) (d : DecFault) (s : State) :
    (recordFault rule (.dec d) s).faultLog = s.faultLog ++ [⟨rule, s.cpc, .dec d⟩] := rfl
@[simp] theorem recordFault_dec_resetIn (rule : Nat) (d : DecFault) (s : State) :
    (recordFault rule (.dec d) s).resetIn = s.resetIn := rfl
@[simp] theorem recordFault_dec_freeCount (rule : Nat) (d : DecFault) (s : State) :
    (recordFault rule (.dec d) s).freeCount = s.freeCount := rfl
@[simp] theorem recordFault_dec_statusValues (rule : Nat) (d : DecFault) (s : State) :
    (recordFault rule (.dec d) s).statusValues = s.statusValues := rfl
@[simp] theorem recordFault_dec_acc_bit (rule : Nat) (d : DecFault) (s : State) (i : Nat) :
    (recordFault rule (.dec d) s).enc.acc.getLsbD i = s.enc.acc.getLsbD i := rfl

/-! ### issue -/

@[simp] theorem issue_wordBytes (ws : List CmdWord) (s : State) :
    (issue ws s).wordBytes = s.wordBytes := rfl
@[simp] theorem issue_enc_rem (ws : List CmdWord) (s : State) :
    (issue ws s).enc.rem = s.enc.rem := rfl
@[simp] theorem issue_enc_prev (ws : List CmdWord) (s : State) :
    (issue ws s).enc.prev = s.enc.prev := rfl
@[simp] theorem issue_enc_efin (ws : List CmdWord) (s : State) :
    (issue ws s).enc.efin = s.enc.efin := rfl
@[simp] theorem issue_enc_efault (ws : List CmdWord) (s : State) :
    (issue ws s).enc.efault = s.enc.efault := rfl
@[simp] theorem issue_dec (ws : List CmdWord) (s : State) : (issue ws s).dec = s.dec := rfl
@[simp] theorem issue_ill (ws : List CmdWord) (s : State) : (issue ws s).ill = s.ill := rfl
@[simp] theorem issue_program (ws : List CmdWord) (s : State) :
    (issue ws s).program = s.program ++ ws := rfl
@[simp] theorem issue_cpc (ws : List CmdWord) (s : State) : (issue ws s).cpc = s.cpc := rfl
@[simp] theorem issue_held (ws : List CmdWord) (s : State) : (issue ws s).held = s.held := rfl
@[simp] theorem issue_sinkAnswers (ws : List CmdWord) (s : State) :
    (issue ws s).sinkAnswers = s.sinkAnswers := rfl
@[simp] theorem issue_srcAnswers (ws : List CmdWord) (s : State) :
    (issue ws s).srcAnswers = s.srcAnswers := rfl
@[simp] theorem issue_trace (ws : List CmdWord) (s : State) : (issue ws s).trace = s.trace := rfl
@[simp] theorem issue_out (ws : List CmdWord) (s : State) : (issue ws s).out = s.out := rfl
@[simp] theorem issue_faultLog (ws : List CmdWord) (s : State) :
    (issue ws s).faultLog = s.faultLog := rfl
@[simp] theorem issue_resetIn (ws : List CmdWord) (s : State) :
    (issue ws s).resetIn = s.resetIn := rfl
@[simp] theorem issue_freeCount (ws : List CmdWord) (s : State) :
    (issue ws s).freeCount = s.freeCount := rfl
@[simp] theorem issue_statusValues (ws : List CmdWord) (s : State) :
    (issue ws s).statusValues = s.statusValues := rfl
@[simp] theorem issue_acc_bit (ws : List CmdWord) (s : State) (i : Nat) :
    (issue ws s).enc.acc.getLsbD i = s.enc.acc.getLsbD i := rfl

/-! ### answerSink -/

@[simp] theorem answerSink_wordBytes (as : List SinkAnswer) (s : State) :
    (answerSink as s).wordBytes = s.wordBytes := rfl
@[simp] theorem answerSink_enc_rem (as : List SinkAnswer) (s : State) :
    (answerSink as s).enc.rem = s.enc.rem := rfl
@[simp] theorem answerSink_enc_prev (as : List SinkAnswer) (s : State) :
    (answerSink as s).enc.prev = s.enc.prev := rfl
@[simp] theorem answerSink_enc_efin (as : List SinkAnswer) (s : State) :
    (answerSink as s).enc.efin = s.enc.efin := rfl
@[simp] theorem answerSink_enc_efault (as : List SinkAnswer) (s : State) :
    (answerSink as s).enc.efault = s.enc.efault := rfl
@[simp] theorem answerSink_dec (as : List SinkAnswer) (s : State) :
    (answerSink as s).dec = s.dec := rfl
@[simp] theorem answerSink_ill (as : List SinkAnswer) (s : State) :
    (answerSink as s).ill = s.ill := rfl
@[simp] theorem answerSink_program (as : List SinkAnswer) (s : State) :
    (answerSink as s).program = s.program := rfl
@[simp] theorem answerSink_cpc (as : List SinkAnswer) (s : State) :
    (answerSink as s).cpc = s.cpc := rfl
@[simp] theorem answerSink_held (as : List SinkAnswer) (s : State) :
    (answerSink as s).held = s.held := rfl
@[simp] theorem answerSink_sinkAnswers (as : List SinkAnswer) (s : State) :
    (answerSink as s).sinkAnswers = s.sinkAnswers ++ as := rfl
@[simp] theorem answerSink_srcAnswers (as : List SinkAnswer) (s : State) :
    (answerSink as s).srcAnswers = s.srcAnswers := rfl
@[simp] theorem answerSink_trace (as : List SinkAnswer) (s : State) :
    (answerSink as s).trace = s.trace := rfl
@[simp] theorem answerSink_out (as : List SinkAnswer) (s : State) :
    (answerSink as s).out = s.out := rfl
@[simp] theorem answerSink_faultLog (as : List SinkAnswer) (s : State) :
    (answerSink as s).faultLog = s.faultLog := rfl
@[simp] theorem answerSink_resetIn (as : List SinkAnswer) (s : State) :
    (answerSink as s).resetIn = s.resetIn := rfl
@[simp] theorem answerSink_freeCount (as : List SinkAnswer) (s : State) :
    (answerSink as s).freeCount = s.freeCount := rfl
@[simp] theorem answerSink_statusValues (as : List SinkAnswer) (s : State) :
    (answerSink as s).statusValues = s.statusValues := rfl
@[simp] theorem answerSink_acc_bit (as : List SinkAnswer) (s : State) (i : Nat) :
    (answerSink as s).enc.acc.getLsbD i = s.enc.acc.getLsbD i := rfl

/-! ### answerSource -/

@[simp] theorem answerSource_wordBytes (as : List SrcAnswer) (s : State) :
    (answerSource as s).wordBytes = s.wordBytes := rfl
@[simp] theorem answerSource_enc_rem (as : List SrcAnswer) (s : State) :
    (answerSource as s).enc.rem = s.enc.rem := rfl
@[simp] theorem answerSource_enc_prev (as : List SrcAnswer) (s : State) :
    (answerSource as s).enc.prev = s.enc.prev := rfl
@[simp] theorem answerSource_enc_efin (as : List SrcAnswer) (s : State) :
    (answerSource as s).enc.efin = s.enc.efin := rfl
@[simp] theorem answerSource_enc_efault (as : List SrcAnswer) (s : State) :
    (answerSource as s).enc.efault = s.enc.efault := rfl
@[simp] theorem answerSource_dec (as : List SrcAnswer) (s : State) :
    (answerSource as s).dec = s.dec := rfl
@[simp] theorem answerSource_ill (as : List SrcAnswer) (s : State) :
    (answerSource as s).ill = s.ill := rfl
@[simp] theorem answerSource_program (as : List SrcAnswer) (s : State) :
    (answerSource as s).program = s.program := rfl
@[simp] theorem answerSource_cpc (as : List SrcAnswer) (s : State) :
    (answerSource as s).cpc = s.cpc := rfl
@[simp] theorem answerSource_held (as : List SrcAnswer) (s : State) :
    (answerSource as s).held = s.held := rfl
@[simp] theorem answerSource_sinkAnswers (as : List SrcAnswer) (s : State) :
    (answerSource as s).sinkAnswers = s.sinkAnswers := rfl
@[simp] theorem answerSource_srcAnswers (as : List SrcAnswer) (s : State) :
    (answerSource as s).srcAnswers = s.srcAnswers ++ as := rfl
@[simp] theorem answerSource_trace (as : List SrcAnswer) (s : State) :
    (answerSource as s).trace = s.trace := rfl
@[simp] theorem answerSource_out (as : List SrcAnswer) (s : State) :
    (answerSource as s).out = s.out := rfl
@[simp] theorem answerSource_faultLog (as : List SrcAnswer) (s : State) :
    (answerSource as s).faultLog = s.faultLog := rfl
@[simp] theorem answerSource_resetIn (as : List SrcAnswer) (s : State) :
    (answerSource as s).resetIn = s.resetIn := rfl
@[simp] theorem answerSource_freeCount (as : List SrcAnswer) (s : State) :
    (answerSource as s).freeCount = s.freeCount := rfl
@[simp] theorem answerSource_statusValues (as : List SrcAnswer) (s : State) :
    (answerSource as s).statusValues = s.statusValues := rfl
@[simp] theorem answerSource_acc_bit (as : List SrcAnswer) (s : State) (i : Nat) :
    (answerSource as s).enc.acc.getLsbD i = s.enc.acc.getLsbD i := rfl

/-! ### assertReset -/

@[simp] theorem assertReset_wordBytes (s : State) : (assertReset s).wordBytes = s.wordBytes := rfl
@[simp] theorem assertReset_enc_rem (s : State) : (assertReset s).enc.rem = s.enc.rem := rfl
@[simp] theorem assertReset_enc_prev (s : State) : (assertReset s).enc.prev = s.enc.prev := rfl
@[simp] theorem assertReset_enc_efin (s : State) : (assertReset s).enc.efin = s.enc.efin := rfl
@[simp] theorem assertReset_enc_efault (s : State) :
    (assertReset s).enc.efault = s.enc.efault := rfl
@[simp] theorem assertReset_dec (s : State) : (assertReset s).dec = s.dec := rfl
@[simp] theorem assertReset_ill (s : State) : (assertReset s).ill = s.ill := rfl
@[simp] theorem assertReset_program (s : State) : (assertReset s).program = s.program := rfl
@[simp] theorem assertReset_cpc (s : State) : (assertReset s).cpc = s.cpc := rfl
@[simp] theorem assertReset_held (s : State) : (assertReset s).held = s.held := rfl
@[simp] theorem assertReset_sinkAnswers (s : State) :
    (assertReset s).sinkAnswers = s.sinkAnswers := rfl
@[simp] theorem assertReset_srcAnswers (s : State) :
    (assertReset s).srcAnswers = s.srcAnswers := rfl
@[simp] theorem assertReset_trace (s : State) : (assertReset s).trace = s.trace := rfl
@[simp] theorem assertReset_out (s : State) : (assertReset s).out = s.out := rfl
@[simp] theorem assertReset_faultLog (s : State) : (assertReset s).faultLog = s.faultLog := rfl
@[simp] theorem assertReset_resetIn (s : State) : (assertReset s).resetIn = true := rfl
@[simp] theorem assertReset_freeCount (s : State) : (assertReset s).freeCount = s.freeCount := rfl
@[simp] theorem assertReset_statusValues (s : State) : (assertReset s).statusValues = s.statusValues := rfl
@[simp] theorem assertReset_acc_bit (s : State) (i : Nat) :
    (assertReset s).enc.acc.getLsbD i = s.enc.acc.getLsbD i := rfl

end Sys2Proof.Machine
end

