-- ==== Sys2Proof/Laws/Bits.lean ====
section
/-!
SUPPORT. Bit strings and the numbers they spell (R11), leading zeros (R83), single bits of a register
(R12), and the pending bits (R21).
-/

namespace Sys2Proof

@[simp] theorem bitsOf_zero (x : Nat) : bitsOf 0 x = [] := rfl

theorem bitsOf_succ (k x : Nat) : bitsOf (k + 1) x = x.testBit k :: bitsOf k x := rfl

@[simp] theorem bitsOf_length (k x : Nat) : (bitsOf k x).length = k := by
  induction k with
  | zero => rfl
  | succ k ih => simp [bitsOf, ih]

@[simp] theorem valueOf_nil : valueOf [] = 0 := rfl

theorem valueOf_concat (b : Bits) (x : Bool) : valueOf (b ++ [x]) = 2 * valueOf b + x.toNat := by
  simp [valueOf]

theorem valueOf_append (a b : Bits) : valueOf (a ++ b) = valueOf a * 2 ^ b.length + valueOf b := by
  induction b using List.reverseRecOn with
  | nil => simp
  | append_singleton b x ih =>
    rw [← List.append_assoc, valueOf_concat, valueOf_concat, ih, List.length_append]
    simp [pow_succ]; ring

theorem valueOf_singleton (x : Bool) : valueOf [x] = x.toNat := by simp [valueOf]

theorem valueOf_cons (x : Bool) (b : Bits) :
    valueOf (x :: b) = x.toNat * 2 ^ b.length + valueOf b := by
  have h := valueOf_append [x] b
  rwa [valueOf_singleton] at h

theorem valueOf_lt (b : Bits) : valueOf b < 2 ^ b.length := by
  induction b with
  | nil => simp
  | cons x b ih => rw [valueOf_cons, List.length_cons, pow_succ]; cases x <;> simp <;> omega

theorem valueOf_bitsOf (k x : Nat) : valueOf (bitsOf k x) = x % 2 ^ k := by
  induction k with
  | zero => simp [Nat.mod_one]
  | succ k ih =>
    rw [bitsOf_succ, valueOf_cons, bitsOf_length, ih, Nat.mod_pow_succ, Nat.testBit_eq_decide_div_mod_eq]
    rcases Nat.mod_two_eq_zero_or_one (x / 2 ^ k) with h | h <;> simp [h]
    omega

theorem bitsOf_mod (k x : Nat) : bitsOf k (x % 2 ^ k) = bitsOf k x := by
  suffices h : ∀ j, j ≤ k → bitsOf j (x % 2 ^ k) = bitsOf j x from h k le_rfl
  intro j hj
  induction j with
  | zero => rfl
  | succ j ih =>
    rw [bitsOf_succ, bitsOf_succ, ih (by omega), Nat.testBit_mod_two_pow]
    simp [show j < k by omega]

theorem bitsOf_valueOf (b : Bits) : bitsOf b.length (valueOf b) = b := by
  induction b with
  | nil => rfl
  | cons x b ih =>
    rw [List.length_cons, bitsOf_succ]
    congr 1
    · rw [valueOf_cons, Nat.testBit_eq_decide_div_mod_eq]
      have h := valueOf_lt b
      rw [Nat.add_comm, Nat.add_mul_div_right _ _ (by positivity), Nat.div_eq_of_lt h]
      cases x <;> simp
    · conv_rhs => rw [← ih]
      rw [← bitsOf_mod, valueOf_cons, Nat.add_comm, Nat.add_mul_mod_self_right,
        Nat.mod_eq_of_lt (valueOf_lt b)]

theorem bitsOf_add (j k x : Nat) : bitsOf (j + k) x = bitsOf j (x / 2 ^ k) ++ bitsOf k x := by
  induction j with
  | zero => simp
  | succ j ih =>
    rw [Nat.succ_add, bitsOf_succ, bitsOf_succ, ih, Nat.testBit_div_two_pow]
    simp [Nat.add_comm]

theorem bitsOf_injective {k x y : Nat} (hx : x < 2 ^ k) (hy : y < 2 ^ k)
    (h : bitsOf k x = bitsOf k y) : x = y := by
  have := congrArg valueOf h
  rwa [valueOf_bitsOf, valueOf_bitsOf, Nat.mod_eq_of_lt hx, Nat.mod_eq_of_lt hy] at this

theorem bitsOf_zero_value (k : Nat) : bitsOf k 0 = List.replicate k false := by
  induction k with
  | zero => rfl
  | succ k ih => simp [bitsOf_succ, ih, List.replicate_succ]

theorem splitZeros_replicate (n : Nat) (b : Bits) :
    splitZeros (List.replicate n false ++ true :: b) = (n, true :: b) := by
  induction n with
  | zero => rfl
  | succ n ih => simp [List.replicate_succ, splitZeros, ih]

theorem splitZeros_allZero (n : Nat) : splitZeros (List.replicate n false) = (n, []) := by
  induction n with
  | zero => rfl
  | succ n ih => simp [List.replicate_succ, splitZeros, ih]

/-- A bit string is its leading zeros and then what `splitZeros` leaves. -/
theorem splitZeros_spec (b : Bits) :
    b = List.replicate (splitZeros b).1 false ++ (splitZeros b).2 := by
  induction b with
  | nil => rfl
  | cons x b ih =>
    cases x with
    | true => rfl
    | false => simp only [splitZeros, List.replicate_succ, List.cons_append]; rw [← ih]

@[simp] theorem codewordBits_length (n mbits : Nat) (sign : Bool) :
    (codewordBits n mbits sign).length = 2 * n + 2 := by
  simp [codewordBits]; omega

@[simp] theorem bitsOfBytes_nil : bitsOfBytes [] = [] := rfl

@[simp] theorem bitsOfBytes_cons (b : Byte) (bs : List Byte) :
    bitsOfBytes (b :: bs) = bitsOf 8 b.toNat ++ bitsOfBytes bs := by simp [bitsOfBytes]

@[simp] theorem bitsOfBytes_append (a b : List Byte) :
    bitsOfBytes (a ++ b) = bitsOfBytes a ++ bitsOfBytes b := by simp [bitsOfBytes]

@[simp] theorem bitsOfBytes_length (bs : List Byte) : (bitsOfBytes bs).length = 8 * bs.length := by
  induction bs with
  | nil => rfl
  | cons b bs ih => simp [ih]; omega

namespace Machine

theorem getLsbD_setBit {w : Nat} (r : BitVec w) (i j : Nat) (b : Bool) :
    (setBit r i b).getLsbD j = if j = i ∧ j < w then b else r.getLsbD j := by
  by_cases hj : j < w
  · by_cases hij : j = i
    · subst hij; cases b <;> simp [setBit, hj]
    · have hne : ¬ i = j := fun h => hij h.symm
      cases b <;> simp [setBit, hij, hne, BitVec.getLsbD_twoPow]
      exact fun h => BitVec.lt_of_getLsbD h
  · have h : w ≤ j := by omega
    simp [hj, BitVec.getLsbD_of_ge _ _ h]

@[simp] theorem landedEvents_nil : landedEvents [] = [] := rfl

theorem pendingBits_length (s : State) : s.pendingBits.length = s.pendingCount := by
  simp [State.pendingBits]

end Machine

end Sys2Proof
end

