-- ==== Sys2Proof/Laws/Codeword.lean ====
section
/-!
SUPPORT. The intermediate values of a codeword (R111) and the domain (R115).
-/

namespace Sys2Proof.Machine

theorem inDomain_iff (v : Int) : inDomain v = true ↔ -2147483646 ≤ v ∧ v ≤ 2147483646 := by
  simp only [inDomain, Bool.and_eq_true, decide_eq_true_eq]
  unfold Config.maxMag
  norm_num

/-- `2^n <= m < 2^(n+1)` for the magnitude class `n` (R13, R111). -/
theorem magnitudeClass_bounds (v : Int) :
    2 ^ magnitudeClass v ≤ biasedMagnitude v ∧
      biasedMagnitude v < 2 ^ (magnitudeClass v + 1) := by
  have h : biasedMagnitude v ≠ 0 := by simp [biasedMagnitude]
  simp only [magnitudeClass, bitlength, Nat.add_sub_cancel]
  exact ⟨Nat.log2_self_le h, Nat.lt_log2_self⟩

/-- The class is determined by those bounds. -/
theorem magnitudeClass_eq {v : Int} {n : Nat} (h1 : 2 ^ n ≤ biasedMagnitude v)
    (h2 : biasedMagnitude v < 2 ^ (n + 1)) : magnitudeClass v = n := by
  obtain ⟨h3, h4⟩ := magnitudeClass_bounds v
  have a : magnitudeClass v < n + 1 :=
    (Nat.pow_lt_pow_iff_right (by norm_num)).1 (lt_of_le_of_lt h3 h2)
  have b : n < magnitudeClass v + 1 :=
    (Nat.pow_lt_pow_iff_right (by norm_num)).1 (lt_of_le_of_lt h1 h4)
  omega

theorem biasedMagnitude_le {v : Int} (h : inDomain v = true) :
    biasedMagnitude v ≤ 2147483647 := by
  rw [inDomain_iff] at h
  simp only [biasedMagnitude]
  omega

end Sys2Proof.Machine
end

