-- ==== Sys2Proof/Laws/Control.lean ====
section
/-!
SUPPORT. What the record of STATUS values does, what the host's control flow does with a command that
completes or holds, and what a result of a pseudo-instruction is in terms of the new channel events.
-/

namespace Sys2Proof.Machine

/-! ### logStatus -/

theorem logStatus_of_idle {s : State} (h : s.held = none) :
    logStatus s = { s with statusValues := s.statusValues ++ [s.status] } := by
  simp [logStatus, h]

theorem logStatus_of_held {s : State} {h : Held} (hs : s.held = some h) : logStatus s = s := by
  simp [logStatus, hs]

/-- The record changes `statusValues` alone. -/
theorem logStatus_frame (s : State) : ∃ values, logStatus s = { s with statusValues := values } := by
  unfold logStatus
  split
  · exact ⟨_, rfl⟩
  · exact ⟨s.statusValues, rfl⟩

@[simp] theorem logStatus_wordBytes (s : State) : (logStatus s).wordBytes = s.wordBytes := by
  obtain ⟨_, h⟩ := logStatus_frame s; rw [h]
@[simp] theorem logStatus_enc_rem (s : State) : (logStatus s).enc.rem = s.enc.rem := by
  obtain ⟨_, h⟩ := logStatus_frame s; rw [h]
@[simp] theorem logStatus_enc_prev (s : State) : (logStatus s).enc.prev = s.enc.prev := by
  obtain ⟨_, h⟩ := logStatus_frame s; rw [h]
@[simp] theorem logStatus_enc_efin (s : State) : (logStatus s).enc.efin = s.enc.efin := by
  obtain ⟨_, h⟩ := logStatus_frame s; rw [h]
@[simp] theorem logStatus_enc_efault (s : State) : (logStatus s).enc.efault = s.enc.efault := by
  obtain ⟨_, h⟩ := logStatus_frame s; rw [h]
@[simp] theorem logStatus_acc_bit (s : State) (i : Nat) :
    (logStatus s).enc.acc.getLsbD i = s.enc.acc.getLsbD i := by
  obtain ⟨_, h⟩ := logStatus_frame s; rw [h]
@[simp] theorem logStatus_dec (s : State) : (logStatus s).dec = s.dec := by
  obtain ⟨_, h⟩ := logStatus_frame s; rw [h]
@[simp] theorem logStatus_ill (s : State) : (logStatus s).ill = s.ill := by
  obtain ⟨_, h⟩ := logStatus_frame s; rw [h]
@[simp] theorem logStatus_program (s : State) : (logStatus s).program = s.program := by
  obtain ⟨_, h⟩ := logStatus_frame s; rw [h]
@[simp] theorem logStatus_cpc (s : State) : (logStatus s).cpc = s.cpc := by
  obtain ⟨_, h⟩ := logStatus_frame s; rw [h]
@[simp] theorem logStatus_held (s : State) : (logStatus s).held = s.held := by
  obtain ⟨_, h⟩ := logStatus_frame s; rw [h]
@[simp] theorem logStatus_sinkAnswers (s : State) :
    (logStatus s).sinkAnswers = s.sinkAnswers := by
  obtain ⟨_, h⟩ := logStatus_frame s; rw [h]
@[simp] theorem logStatus_srcAnswers (s : State) : (logStatus s).srcAnswers = s.srcAnswers := by
  obtain ⟨_, h⟩ := logStatus_frame s; rw [h]
@[simp] theorem logStatus_trace (s : State) : (logStatus s).trace = s.trace := by
  obtain ⟨_, h⟩ := logStatus_frame s; rw [h]
@[simp] theorem logStatus_out (s : State) : (logStatus s).out = s.out := by
  obtain ⟨_, h⟩ := logStatus_frame s; rw [h]
@[simp] theorem logStatus_faultLog (s : State) : (logStatus s).faultLog = s.faultLog := by
  obtain ⟨_, h⟩ := logStatus_frame s; rw [h]
@[simp] theorem logStatus_resetIn (s : State) : (logStatus s).resetIn = s.resetIn := by
  obtain ⟨_, h⟩ := logStatus_frame s; rw [h]
@[simp] theorem logStatus_freeCount (s : State) : (logStatus s).freeCount = s.freeCount := by
  obtain ⟨_, h⟩ := logStatus_frame s; rw [h]
@[simp] theorem logStatus_status (s : State) : (logStatus s).status = s.status := by
  obtain ⟨_, h⟩ := logStatus_frame s; rw [h]; rfl

@[simp] theorem logOutcome_next (s : State) :
    logOutcome (.next s) = .next (logStatus s) := rfl

/-! ### The host's control flow -/

@[simp] theorem waitOut_nil (s : State) : waitOut [] s = (s, []) := rfl

/-- No arrival is used while no command holds. -/
theorem waitOut_idle (arrivals : List Arrival) {s : State} (h : s.held = none) :
    waitOut arrivals s = (s, arrivals) := by
  cases arrivals <;> simp [waitOut, h]

/-- Waiting for the answers of an arrival is the step after they have come. -/
theorem waitOut_held (a : Arrival) (rest : List Arrival) {s : State} {h : Held}
    (hs : s.held = some h) (hr : s.resetIn = false) :
    ∃ t, step (a.deliver s) = .next t ∧ waitOut (a :: rest) s = waitOut rest t := by
  refine ⟨logStatus (resume h (a.deliver s)), ?_, by simp [waitOut, hs]⟩
  have h1 : (a.deliver s).held = some h := hs
  have h2 : (a.deliver s).resetIn = false := hr
  simp [step, h1, h2]

/-- A command that completes uses no arrival. -/
theorem runCommand_completes {i : Instr} {s t : State} (arrivals : List Arrival)
    (h : exec i s = .next t) (ht : t.held = none) :
    runCommand i arrivals s = .next (logStatus t, arrivals) := by
  simp [runCommand, h, waitOut_idle arrivals (s := logStatus t) (by simpa using ht)]

@[simp] theorem runCommands_nil (arrivals : List Arrival) (s : State) :
    runCommands [] arrivals s = .next (s, arrivals) := rfl

/-- The commands after one that completes run from the state it leaves. -/
theorem runCommands_cons_completes {i : Instr} {s t : State} (rest : List Instr)
    (arrivals : List Arrival) (h : exec i s = .next t) (ht : t.held = none) :
    runCommands (i :: rest) arrivals s = runCommands rest arrivals (logStatus t) := by
  simp [runCommands, runCommand_completes arrivals h ht, ht]

/-- A loop form goes round again after FULL and ends after EXHAUSTED or a fault (R98). -/
theorem repeatUntilExhausted_completes {body : Instr} {s t : State} (bound : Nat)
    (arrivals : List Arrival) (h : exec body s = .next t) (ht : t.held = none) :
    repeatUntilExhausted body (bound + 1) arrivals s =
      if loopGoesOn (logStatus t) then repeatUntilExhausted body bound arrivals (logStatus t)
      else .next (logStatus t, arrivals) := by
  simp [repeatUntilExhausted, runCommand_completes arrivals h ht]

/-! ### Results -/

theorem resultValues_of_trace {s t : State} {events : List Event}
    (h : t.trace = s.trace ++ events) :
    resultValues s t = (events.flatMap Event.responses).flatMap Response.values := by
  simp [resultValues, State.responses, h]

theorem resultBytes_of_trace {s t : State} {events : List Event}
    (h : t.trace = s.trace ++ events) : resultBytes s t = events.flatMap Event.sinkBytes := by
  simp [resultBytes, State.sinkBytes, h]

end Sys2Proof.Machine
end

