-- ==== Sys2Proof/Laws/Decoder.lean ====
section
/-!
SUPPORT. What the decoder's procedures can do: NextBit and DecodeBit case by case (R160 to R165), one
turn of DecodeLoop, the loop's equation (R167), and the loop over bits that stand ready (R171).
-/

namespace Sys2Proof.Machine

/-! ### DecodeBit -/

theorem decodeBit_cz_zero {d : DecUnit} (h : d.dstate = .cz) (hz : d.zrun ≠ 30) :
    decodeBit false d = .noValue { d with zrun := d.zrun + 1 } := by
  simp [decodeBit, h, Config.nbitsMax, hz]

theorem decodeBit_cz_overlong {d : DecUnit} (h : d.dstate = .cz) (hz : d.zrun = 30) :
    decodeBit false d = .overlong := by
  simp [decodeBit, h, Config.nbitsMax, hz]

theorem decodeBit_cz_one_zero {d : DecUnit} (h : d.dstate = .cz) (hz : d.zrun = 0) :
    decodeBit true d = .value 0 d := by
  simp [decodeBit, h, hz]

theorem decodeBit_cz_one_pos {d : DecUnit} (h : d.dstate = .cz) (hz : d.zrun ≠ 0) :
    decodeBit true d = .noValue { d with mag := 1, srem := d.zrun, dstate := .sb } := by
  simp [decodeBit, h, hz]

theorem decodeBit_sb (b : Bool) {d : DecUnit} (h : d.dstate = .sb) :
    decodeBit b d = .noValue { d with
      mag := (d.mag <<< 1) ||| BitVec.setWidth 31 (BitVec.ofBool b)
      srem := d.srem - 1
      dstate := if d.srem - 1 = 0 then .rs else .sb } := by
  cases b <;> simp [decodeBit, h]

theorem decodeBit_rs (b : Bool) {d : DecUnit} (h : d.dstate = .rs) :
    decodeBit b d = .value (if b then -((d.mag.toNat : Int) - 1) else (d.mag.toNat : Int) - 1)
      { d with zrun := 0, dstate := .cz } := by
  cases b <;> simp [decodeBit, h]

/-- A magnitude bit doubles MAG and adds the bit, as long as 30 bits at most follow the delimiter
(R28, R164). -/
theorem mag_shift (m : BitVec 31) (b : Bool) (h : m.toNat < 2 ^ 30) :
    ((m <<< 1) ||| BitVec.setWidth 31 (BitVec.ofBool b)).toNat = 2 * m.toNat + b.toNat := by
  have e : (m <<< 1) ||| BitVec.setWidth 31 (BitVec.ofBool b) =
      BitVec.ofNat 31 (2 * m.toNat + b.toNat) := by
    apply BitVec.eq_of_getLsbD_eq
    intro i hi
    rw [BitVec.getLsbD_ofNat, BitVec.getLsbD_or, BitVec.getLsbD_shiftLeft]
    rcases i with _ | i
    · cases b <;> simp [Nat.testBit_zero]
    · have : (2 * m.toNat + b.toNat).testBit (i + 1) = m.toNat.testBit i := by
        rw [Nat.testBit_succ]; congr 1; cases b <;> simp; omega
      simp [this, hi, BitVec.testBit_toNat]
  rw [e, BitVec.toNat_ofNat, Nat.mod_eq_of_lt]
  cases b <;> simp <;> omega

/-- The parts of the decoder that DecodeBit neither reads nor writes (R33): the byte buffer, BASE and
the STATUS fields. -/
def withPort (d p : DecUnit) : DecUnit :=
  { d with
    byte := p.byte, bitsLeft := p.bitsLeft, base := p.base, dexh := p.dexh, dfault := p.dfault }

/-- A result of the parse machine with those parts replaced. -/
def ParseResult.withPort (r : ParseResult) (p : DecUnit) : ParseResult :=
  match r with
  | .noValue d => .noValue (Machine.withPort d p)
  | .value x d => .value x (Machine.withPort d p)
  | .overlong => .overlong

theorem decodeBit_withPort (b : Bool) (d p : DecUnit) :
    decodeBit b (withPort d p) = (decodeBit b d).withPort p := by
  rcases h : d.dstate with _ | _ | _
  · cases b
    · by_cases hz : d.zrun = 30
      · rw [decodeBit_cz_overlong (d := withPort d p) h hz, decodeBit_cz_overlong h hz]; rfl
      · rw [decodeBit_cz_zero (d := withPort d p) h hz, decodeBit_cz_zero h hz]; rfl
    · by_cases hz : d.zrun = 0
      · rw [decodeBit_cz_one_zero (d := withPort d p) h hz, decodeBit_cz_one_zero h hz]; rfl
      · rw [decodeBit_cz_one_pos (d := withPort d p) h hz, decodeBit_cz_one_pos h hz]; rfl
  · rw [decodeBit_sb b (d := withPort d p) h, decodeBit_sb b h]; rfl
  · rw [decodeBit_rs b (d := withPort d p) h, decodeBit_rs b h]; rfl

@[simp] theorem withPort_self (d : DecUnit) : withPort d d = d := rfl

@[simp] theorem withPort_withPort (d p q : DecUnit) :
    withPort (withPort d p) q = withPort d q := rfl

/-- DecodeBit leaves the byte buffer, BASE and the STATUS fields alone (R33). -/
theorem decodeBit_frame (b : Bool) (d : DecUnit) :
    decodeBit b d = (decodeBit b d).withPort d := by
  conv_lhs => rw [← withPort_self d]
  exact decodeBit_withPort b d d

/-! ### Bit strings through the parse machine -/

theorem parseAll_withPort (c : Bits) (d p : DecUnit) :
    parseAll c (withPort d p) = (parseAll c d).map fun r => (r.1, withPort r.2 p) := by
  induction c generalizing d with
  | nil => rfl
  | cons b c ih =>
    simp only [parseAll, decodeBit_withPort]
    rcases decodeBit b d with d' | ⟨x, d'⟩ | _
    · exact ih d'
    · simp only [ParseResult.withPort, ih]
      rcases parseAll c d' with _ | ⟨xs, e⟩ <;> rfl
    · rfl

theorem parseAll_append (a c : Bits) (d : DecUnit) :
    parseAll (a ++ c) d =
      (parseAll a d).bind fun r => (parseAll c r.2).map fun q => (r.1 ++ q.1, q.2) := by
  induction a generalizing d with
  | nil =>
    rcases h : parseAll c d with _ | ⟨xs, e⟩ <;> simp [parseAll, h]
  | cons b a ih =>
    simp only [List.cons_append, parseAll]
    rcases decodeBit b d with d' | ⟨x, d'⟩ | _
    · exact ih d'
    · simp only [ih]
      rcases parseAll a d' with _ | ⟨xs, e⟩
      · rfl
      · rcases h : parseAll c e with _ | ⟨ys, f⟩ <;> simp [h]
    · rfl

/-- Zero bits in CZ only count (R161, R169). -/
theorem parseAll_zeros (k : Nat) {d : DecUnit} (h : d.dstate = .cz) (hz : d.zrun + k ≤ 30) :
    parseAll (List.replicate k false) d = some ([], { d with zrun := d.zrun + k }) := by
  induction k generalizing d with
  | zero => rfl
  | succ k ih =>
    rw [List.replicate_succ, parseAll, decodeBit_cz_zero h (by omega)]
    simp only
    rw [ih (d := { d with zrun := d.zrun + 1 }) h (by simp; omega)]
    simp [Nat.add_assoc, Nat.add_comm 1 k]

/-- SB takes as many magnitude bits as SREM says, MAG reads them as a number, and RS follows
(R164). -/
theorem parseAll_magnitude (c : Bits) {d : DecUnit} (h : d.dstate = .sb) (hc : c ≠ [])
    (hs : d.srem = c.length) (hm : (d.mag.toNat + 1) * 2 ^ c.length ≤ 2 ^ 31) :
    parseAll c d = some ([], { d with
      mag := BitVec.ofNat 31 (d.mag.toNat * 2 ^ c.length + valueOf c)
      srem := 0
      dstate := .rs }) := by
  induction c generalizing d with
  | nil => exact absurd rfl hc
  | cons b c ih =>
    rw [parseAll, decodeBit_sb b h]
    simp only
    have hlen : d.srem - 1 = c.length := by rw [hs]; simp
    have hmag : d.mag.toNat < 2 ^ 30 := by
      rw [List.length_cons, pow_succ] at hm
      have : 1 ≤ 2 ^ c.length := Nat.one_le_two_pow
      nlinarith
    have hshift := mag_shift d.mag b hmag
    rcases c with _ | ⟨b', c⟩
    · simp only [List.length_nil] at hlen
      simp only [hlen, if_true, parseAll, List.length_singleton, valueOf_singleton, pow_one]
      congr 3
      rw [Nat.mul_comm, ← hshift, BitVec.ofNat_toNat, BitVec.setWidth_eq]
    · have hne : ¬ d.srem - 1 = 0 := by rw [hlen]; simp
      rw [ih (by simp [hne]) (by simp) (by simpa using hlen)]
      · simp only [hshift]
        congr 4
        rw [valueOf_cons b, List.length_cons (a := b), pow_succ]
        ring
      · simp only [hshift]
        rw [List.length_cons, pow_succ] at hm
        have : 2 * d.mag.toNat + b.toNat + 1 ≤ (d.mag.toNat + 1) * 2 := by cases b <;> simp <;> omega
        calc (2 * d.mag.toNat + b.toNat + 1) * 2 ^ (b' :: c).length
            ≤ (d.mag.toNat + 1) * 2 * 2 ^ (b' :: c).length := Nat.mul_le_mul_right _ this
          _ ≤ 2 ^ 31 := by linarith [hm]

/-! ### NextBit and one turn of the loop -/

theorem nextBit_buffered {s : State} (h : s.dec.bitsLeft ≠ 0) :
    nextBit s = .bit (s.dec.byte.getLsbD (s.dec.bitsLeft - 1))
      { s with dec := { s.dec with bitsLeft := s.dec.bitsLeft - 1 } } := by
  simp [nextBit, h, takeBit]

theorem nextBit_byte {s : State} {b : Byte} {rest : List SrcAnswer} (h : s.dec.bitsLeft = 0)
    (hs : s.srcAnswers = .byte b :: rest) :
    nextBit s = .bit (b.getLsbD 7) { s with
      dec := { s.dec with byte := b, bitsLeft := 7 }
      srcAnswers := rest
      trace := s.trace ++ [.sourceRead (.byte b)] } := by
  simp [nextBit, h, sourceRead, hs, takeBit]

theorem nextBit_eof {s : State} {rest : List SrcAnswer} (h : s.dec.bitsLeft = 0)
    (hs : s.srcAnswers = .eof :: rest) :
    nextBit s = .eof { s with
      srcAnswers := rest, trace := s.trace ++ [.sourceRead .eof] } := by
  simp [nextBit, h, sourceRead, hs]

theorem nextBit_err {s : State} {rest : List SrcAnswer} (h : s.dec.bitsLeft = 0)
    (hs : s.srcAnswers = .err :: rest) :
    nextBit s = .failed { s with
      srcAnswers := rest, trace := s.trace ++ [.sourceRead .err] } := by
  simp [nextBit, h, sourceRead, hs]

theorem nextBit_wait {s : State} (h : s.dec.bitsLeft = 0) (hs : s.srcAnswers = []) :
    nextBit s = .wait := by
  simp [nextBit, h, sourceRead, hs]

/-- NextBit returns a bit only by using one up (R160, R61). -/
theorem nextBit_bit_bitsReady {s s' : State} {b : Bool} (h : nextBit s = .bit b s') :
    bitsReady s' + 1 = bitsReady s := by
  by_cases h0 : s.dec.bitsLeft = 0
  · rcases hs : s.srcAnswers with _ | ⟨_ | _ | _, rest⟩
    · rw [nextBit_wait h0 hs] at h; cases h
    · rw [nextBit_byte h0 hs] at h; cases h; simp [bitsReady, h0, hs]; omega
    · rw [nextBit_eof h0 hs] at h; cases h
    · rw [nextBit_err h0 hs] at h; cases h
  · rw [nextBit_buffered h0] at h; cases h; simp [bitsReady]; omega

theorem deltaAccumulate_some {x : Int} {d e : DecUnit} {y : Word32}
    (h : deltaAccumulate x d = some (y, e)) :
    fitsS32 (d.base.toInt + x) = true ∧ y = s32 (d.base.toInt + x) ∧
      e = { d with base := s32 (d.base.toInt + x) } := by
  unfold deltaAccumulate at h
  split at h
  · cases h; exact ⟨‹_›, rfl, rfl⟩
  · cases h

theorem deliver_again_bitsReady {delta : Bool} {x : Int} {s s' : State}
    (h : deliver delta x s = .again s') : bitsReady s' = bitsReady s := by
  unfold deliver at h
  split at h
  · split at h
    · rename_i y d e
      obtain ⟨-, -, rfl⟩ := deltaAccumulate_some e
      cases h; rfl
    · cases h
  · cases h; rfl

theorem parseStep_again_bitsReady {delta b : Bool} {s s' : State}
    (h : parseStep delta b s = .again s') : bitsReady s' = bitsReady s := by
  unfold parseStep at h
  have hf := decodeBit_frame b s.dec
  rcases e : decodeBit b s.dec with d | ⟨x, d⟩ | _ <;> rw [e] at h hf
  · cases h
    injection hf with hf
    rw [hf]; rfl
  · injection hf with _ hf
    have := deliver_again_bitsReady h
    rw [this, hf]; rfl
  · cases h

/-- A turn that goes round again has used up one bit. -/
theorem loopStep_again_bitsReady {n : Nat} {delta : Bool} {s s' : State}
    (h : loopStep n delta s = .again s') : bitsReady s' + 1 = bitsReady s := by
  unfold loopStep at h
  split at h
  · cases h
  · split at h
    · cases h
    · cases h
    · cases h
    · rename_i e
      rw [parseStep_again_bitsReady h, nextBit_bit_bitsReady e]

/-- The number of turns allowed makes no difference once it exceeds the bits that stand ready. -/
theorem decodeTurns_enough {n : Nat} {delta : Bool} (f g : Nat) (s : State)
    (hf : bitsReady s < f) (hg : bitsReady s < g) :
    decodeTurns n delta f s = decodeTurns n delta g s := by
  induction f generalizing g s with
  | zero => omega
  | succ f ih =>
    rcases g with _ | g
    · omega
    · simp only [decodeTurns]
      rcases e : loopStep n delta s with s' | s'
      · have := loopStep_again_bitsReady e
        exact ih g s' (by omega) (by omega)
      · rfl

/-- DecodeLoop's equation: a turn, and then the loop again unless the turn ended it (R167). -/
theorem decodeLoop_unfold (n : Nat) (delta : Bool) (s : State) :
    decodeLoop n delta s =
      match loopStep n delta s with
      | .again s' => decodeLoop n delta s'
      | .stop s' => s' := by
  conv_lhs => rw [decodeLoop, decodeTurns]
  rcases e : loopStep n delta s with s' | s'
  · have := loopStep_again_bitsReady e
    exact decodeTurns_enough _ _ _ (by omega) (by omega)
  · rfl

theorem decodeLoop_again {n : Nat} {delta : Bool} {s s' : State}
    (h : loopStep n delta s = .again s') : decodeLoop n delta s = decodeLoop n delta s' := by
  rw [decodeLoop_unfold, h]

theorem decodeLoop_stop {n : Nat} {delta : Bool} {s s' : State}
    (h : loopStep n delta s = .stop s') : decodeLoop n delta s = s' := by
  rw [decodeLoop_unfold, h]

theorem loopStep_full {n : Nat} {delta : Bool} {s : State} (h : s.out.length = n) :
    loopStep n delta s = .stop (endDecode false s) := by
  simp [loopStep, h]

theorem loopStep_bit {n : Nat} {delta b : Bool} {s s' : State} (h : s.out.length ≠ n)
    (e : nextBit s = .bit b s') : loopStep n delta s = parseStep delta b s' := by
  simp [loopStep, h, e]

theorem loopStep_eof {n : Nat} {delta : Bool} {s : State} {rest : List SrcAnswer}
    (h : s.out.length ≠ n) (h0 : s.dec.bitsLeft = 0) (hs : s.srcAnswers = .eof :: rest) :
    loopStep n delta s = .stop (endDecode true { s with
      srcAnswers := rest, trace := s.trace ++ [.sourceRead .eof] }) := by
  simp [loopStep, h, nextBit_eof h0 hs]

theorem loopStep_err {n : Nat} {delta : Bool} {s : State} {rest : List SrcAnswer}
    (h : s.out.length ≠ n) (h0 : s.dec.bitsLeft = 0) (hs : s.srcAnswers = .err :: rest) :
    loopStep n delta s = .stop (raiseFault 160 (.dec .srcIo) { s with
      srcAnswers := rest, trace := s.trace ++ [.sourceRead .err] }) := by
  simp [loopStep, h, nextBit_err h0 hs]

theorem loopStep_wait {n : Nat} {delta : Bool} {s : State}
    (h : s.out.length ≠ n) (h0 : s.dec.bitsLeft = 0) (hs : s.srcAnswers = []) :
    loopStep n delta s = .stop (hold (.read n delta) s) := by
  simp [loopStep, h, nextBit_wait h0 hs]

/-! ### The loop over bits that stand ready -/

/-- The bits that stand ready, with `bytes` the source's next answers. -/
def readyBits (s : State) (bytes : List Byte) : Bits := s.dec.bufferedBits ++ bitsOfBytes bytes

theorem readyBits_length (s : State) (bytes : List Byte) :
    (readyBits s bytes).length = s.dec.bitsLeft + 8 * bytes.length := by
  simp [readyBits, DecUnit.bufferedBits]

theorem readyBits_buffered {s : State} (bytes : List Byte) (h : s.dec.bitsLeft ≠ 0) :
    readyBits s bytes = s.dec.byte.getLsbD (s.dec.bitsLeft - 1) ::
      readyBits { s with dec := { s.dec with bitsLeft := s.dec.bitsLeft - 1 } } bytes := by
  obtain ⟨k, hk⟩ := Nat.exists_eq_succ_of_ne_zero h
  simp [readyBits, DecUnit.bufferedBits, hk, bitsOf_succ, BitVec.testBit_toNat]

theorem readyBits_byte {s : State} (b : Byte) (bytes : List Byte) (h : s.dec.bitsLeft = 0)
    (rest : List SrcAnswer) (trace : List Event) :
    readyBits s (b :: bytes) = b.getLsbD 7 ::
      readyBits { s with
        dec := { s.dec with byte := b, bitsLeft := 7 }
        srcAnswers := rest
        trace := trace } bytes := by
  simp only [readyBits, DecUnit.bufferedBits, h, bitsOf_zero, List.nil_append, bitsOfBytes_cons,
    bitsOf_succ 7, BitVec.testBit_toNat, List.cons_append]

/-- The emission of one value: what DEC or DDEC does with it when its sum fits (R167, R194). -/
theorem deliver_again (delta : Bool) (x : Int) (s : State) (h : SumsFit delta s.dec.base [x]) :
    deliver delta x s = .again { s with
      dec := { s.dec with base := baseAfter delta s.dec.base [x] }
      out := s.out ++ emittedValues delta s.dec.base [x] } := by
  cases delta
  · simp [deliver, emit, baseAfter, emittedValues]
  · have hx : fitsS32 (s.dec.base.toInt + x) = true := h rfl _ (by simp [runningSums])
    simp [deliver, deltaAccumulate, hx, emit, baseAfter, emittedValues, runningSums]

theorem s32_toInt {x : Int} (h : fitsS32 x = true) : (s32 x).toInt = x := by
  simp only [fitsS32, Bool.and_eq_true, decide_eq_true_eq] at h
  rw [s32, BitVec.toInt_ofInt, Int.bmod_def]
  norm_num
  omega

theorem emittedValues_cons (delta : Bool) (base : Word32) (x : Int) (xs : List Int)
    (h : SumsFit delta base (x :: xs)) :
    emittedValues delta base (x :: xs) =
      emittedValues delta base [x] ++ emittedValues delta (baseAfter delta base [x]) xs := by
  cases delta
  · simp [emittedValues]
  · have hx : fitsS32 (base.toInt + x) = true := h rfl _ (by simp [runningSums])
    simp [emittedValues, baseAfter, runningSums, s32_toInt hx]

theorem baseAfter_cons (delta : Bool) (base : Word32) (x : Int) (xs : List Int)
    (h : SumsFit delta base (x :: xs)) :
    baseAfter delta base (x :: xs) = baseAfter delta (baseAfter delta base [x]) xs := by
  cases delta
  · simp [baseAfter]
  · have e := emittedValues_cons true base x xs h
    unfold baseAfter at e ⊢
    simp only [if_true] at e ⊢
    rw [e]
    rcases hl : emittedValues true ((emittedValues true base [x]).getLastD base) xs with _ | ⟨y, ys⟩
    · simp [emittedValues, runningSums]
    · simp [List.getLastD_eq_getLast?, List.getLast?_append]

theorem sumsFit_head {delta : Bool} {base : Word32} {x : Int} {xs : List Int}
    (h : SumsFit delta base (x :: xs)) : SumsFit delta base [x] := fun hd y hy =>
  h hd y (by simp [runningSums] at hy ⊢; exact .inl hy)

theorem sumsFit_tail {delta : Bool} {base : Word32} {x : Int} {xs : List Int}
    (h : SumsFit delta base (x :: xs)) : SumsFit delta (baseAfter delta base [x]) xs := by
  intro hd y hy
  subst hd
  have hx : fitsS32 (base.toInt + x) = true := h rfl _ (by simp [runningSums])
  refine h rfl y ?_
  simp only [runningSums, List.mem_cons]
  refine .inr ?_
  simpa [baseAfter, emittedValues, runningSums, s32_toInt hx] using hy

@[simp] theorem emittedValues_length (delta : Bool) (base : Word32) (xs : List Int) :
    (emittedValues delta base xs).length = xs.length := by
  have h : ∀ (b : Int) (ys : List Int), (runningSums b ys).length = ys.length := by
    intro b ys
    induction ys generalizing b with
    | nil => rfl
    | cons y ys ih => simp [runningSums, ih]
  cases delta <;> simp [emittedValues, h]

/-- The state after the loop has used `readyBits s bytes` up to its last `unused` bits: the parse
machine's registers `d`, the values `xs`, and the source's answers `tail`. -/
def afterBits (delta : Bool) (s : State) (bytes : List Byte) (unused : Nat) (xs : List Int)
    (d : DecUnit) (tail : List SrcAnswer) : State :=
  { s with
    dec := { d with
      byte := bytes.getLastD s.dec.byte
      bitsLeft := unused
      base := baseAfter delta s.dec.base xs
      dexh := s.dec.dexh
      dfault := s.dec.dfault }
    srcAnswers := tail
    trace := s.trace ++ bytes.map fun b => Event.sourceRead (.byte b)
    out := s.out ++ emittedValues delta s.dec.base xs }

theorem afterBits_withPort (delta : Bool) (s : State) (bytes : List Byte) (unused : Nat)
    (xs : List Int) (d p : DecUnit) (tail : List SrcAnswer) :
    afterBits delta s bytes unused xs (withPort d p) tail =
      afterBits delta s bytes unused xs d tail := rfl

/-- `s` with the byte buffer, the source's answers and the trace as a NextBit leaves them. -/
def taken (s : State) (y : Byte) (k : Nat) (src : List SrcAnswer) (trace : List Event) : State :=
  { s with
    dec := { s.dec with byte := y, bitsLeft := k }, srcAnswers := src, trace := trace }

/-- The next of the bits that stand ready, and the state in which it has been taken (R160). -/
theorem nextBit_ready {m unused : Nat} {s : State} {bytes : List Byte} {tail : List SrcAnswer}
    (hm : s.dec.bitsLeft + 8 * bytes.length = m + 1 + unused) (hu : bytes ≠ [] → unused < 8)
    (hs : s.srcAnswers = bytes.map SrcAnswer.byte ++ tail) :
    ∃ b y k src trace bytes', nextBit s = .bit b (taken s y k src trace) ∧
      readyBits s bytes = b :: readyBits (taken s y k src trace) bytes' ∧
      k + 8 * bytes'.length = m + unused ∧ (bytes' ≠ [] → unused < 8) ∧
      src = bytes'.map SrcAnswer.byte ++ tail ∧ bytes'.getLastD y = bytes.getLastD s.dec.byte ∧
      trace ++ (bytes'.map fun b => Event.sourceRead (.byte b)) =
        s.trace ++ (bytes.map fun b => Event.sourceRead (.byte b)) := by
  by_cases h0 : s.dec.bitsLeft = 0
  · rcases bytes with _ | ⟨b, bytes⟩
    · simp [h0] at hm; omega
    · refine ⟨_, b, 7, bytes.map SrcAnswer.byte ++ tail, s.trace ++ [.sourceRead (.byte b)], bytes,
        nextBit_byte h0 (by simpa using hs), readyBits_byte b bytes h0 _ _, ?_,
        fun _ => hu (by simp), rfl, ?_, by simp⟩
      · simp [h0] at hm ⊢; omega
      · cases bytes <;> rfl
  · exact ⟨_, s.dec.byte, s.dec.bitsLeft - 1, s.srcAnswers, s.trace, bytes,
      nextBit_buffered h0, readyBits_buffered bytes h0, by omega, hu, hs, rfl, rfl⟩

/-- The loop over bits that stand ready: as long as the buffer is not full before the last of them,
the parse machine reads them all, and the loop goes on from there (R167, R171). -/
theorem decodeLoop_afterBits {n : Nat} {delta : Bool} (m : Nat) {s : State} {bytes : List Byte}
    {unused : Nat} {xs : List Int} {d : DecUnit} {tail : List SrcAnswer}
    (hm : s.dec.bitsLeft + 8 * bytes.length = m + unused)
    (hu : bytes ≠ [] → unused < 8)
    (hs : s.srcAnswers = bytes.map SrcAnswer.byte ++ tail)
    (hp : parseAll ((readyBits s bytes).take m) s.dec = some (xs, d))
    (hn : ∀ j < m, ∀ ys e, parseAll ((readyBits s bytes).take j) s.dec = some (ys, e) →
      s.out.length + ys.length < n)
    (hf : SumsFit delta s.dec.base xs) :
    decodeLoop n delta s = decodeLoop n delta (afterBits delta s bytes unused xs d tail) := by
  induction m generalizing s bytes xs d with
  | zero =>
    have hb : bytes = [] := by
      by_contra h
      have := hu h
      have : bytes.length ≠ 0 := by simpa using h
      omega
    subst hb
    simp only [List.take_zero, parseAll, Option.some.injEq, Prod.mk.injEq] at hp
    obtain ⟨rfl, rfl⟩ := hp
    have h0 : unused = s.dec.bitsLeft := by simpa using hm.symm
    congr 1
    simp only [List.map_nil, List.nil_append] at hs
    cases delta <;> simp [afterBits, h0, ← hs, baseAfter, emittedValues, runningSums]
  | succ m ih =>
    have hlt : s.out.length ≠ n := by
      have := hn 0 (by omega) [] s.dec (by simp [parseAll])
      simp at this; omega
    obtain ⟨b, y, k, src, trace, bytes', e, hbits, hm', hu', hs', hlast, htrace⟩ :=
      nextBit_ready hm hu hs
    have hbit : decodeBit b (taken s y k src trace).dec =
        (decodeBit b s.dec).withPort (taken s y k src trace).dec :=
      decodeBit_withPort b s.dec (taken s y k src trace).dec
    have hframe := decodeBit_frame b s.dec
    rw [hbits, List.take_succ_cons, parseAll] at hp
    rcases hd : decodeBit b s.dec with d' | ⟨x, d'⟩ | _
    · rw [hd] at hp hbit hframe
      injection hframe with hframe
      rw [decodeLoop_again (s' := { taken s y k src trace with
        dec := withPort d' (taken s y k src trace).dec })
        (by rw [loopStep_bit hlt e, parseStep, hbit]; rfl)]
      refine (ih (s := { taken s y k src trace with
        dec := withPort d' (taken s y k src trace).dec }) (xs := xs) (bytes := bytes')
        (d := withPort d (taken s y k src trace).dec) hm' hu' hs' ?_ ?_ hf).trans ?_
      rotate_left 2
      · rw [afterBits_withPort]
        congr 1
        simp only [afterBits]
        rw [← hlast, ← htrace]
        rfl
      · exact (parseAll_withPort _ _ _).trans (by
          rw [show readyBits { taken s y k src trace with
            dec := withPort d' (taken s y k src trace).dec } bytes' =
              readyBits (taken s y k src trace) bytes' from rfl]
          simp only at hp
          rw [hp]; rfl)
      · intro j hj ys f hys
        replace hys := (parseAll_withPort _ _ _).symm.trans hys
        obtain ⟨⟨ys', f'⟩, hq, hr⟩ := Option.map_eq_some_iff.1 hys
        cases hr
        refine hn (j + 1) (by omega) ys' f' ?_
        rw [hbits, List.take_succ_cons, parseAll, hd]
        exact hq
    · rw [hd] at hp hbit hframe
      injection hframe with _ hframe
      obtain ⟨⟨xs', f⟩, hq, hr⟩ := Option.map_eq_some_iff.1 hp
      cases hr
      have hbase : d'.base = s.dec.base := by rw [hframe]; rfl
      have h1 := sumsFit_head hf
      rw [decodeLoop_again (s' := { taken s y k src trace with
        dec := { withPort d' (taken s y k src trace).dec with
          base := baseAfter delta s.dec.base [x] }
        out := s.out ++ emittedValues delta s.dec.base [x] })
        (by
          rw [loopStep_bit hlt e, parseStep, hbit]
          exact deliver_again delta x { taken s y k src trace with
            dec := withPort d' (taken s y k src trace).dec } h1)]
      refine (ih (s := { taken s y k src trace with
        dec := { withPort d' (taken s y k src trace).dec with
          base := baseAfter delta s.dec.base [x] }
        out := s.out ++ emittedValues delta s.dec.base [x] }) (xs := xs') (bytes := bytes')
        (d := withPort f { (taken s y k src trace).dec with
          base := baseAfter delta s.dec.base [x] })
        hm' hu' hs' ?_ ?_ (sumsFit_tail hf)).trans ?_
      rotate_left 2
      · rw [afterBits_withPort]
        congr 1
        simp only [afterBits]
        rw [← hlast, ← htrace, emittedValues_cons delta s.dec.base x xs' hf,
          baseAfter_cons delta s.dec.base x xs' hf, ← List.append_assoc]
        rfl
      · exact (parseAll_withPort _ d' { (taken s y k src trace).dec with
          base := baseAfter delta s.dec.base [x] }).trans (by
            rw [show readyBits { taken s y k src trace with
              dec := { withPort d' (taken s y k src trace).dec with
                base := baseAfter delta s.dec.base [x] }
              out := s.out ++ emittedValues delta s.dec.base [x] } bytes' =
                readyBits (taken s y k src trace) bytes' from rfl]
            rw [hq]; rfl)
      · intro j hj ys g hys
        replace hys := (parseAll_withPort _ d' { (taken s y k src trace).dec with
          base := baseAfter delta s.dec.base [x] }).symm.trans hys
        obtain ⟨⟨ys', g'⟩, hq', hr⟩ := Option.map_eq_some_iff.1 hys
        cases hr
        have := hn (j + 1) (by omega) (x :: ys') g' (by
          rw [hbits, List.take_succ_cons, parseAll, hd]
          exact Option.map_eq_some_iff.2 ⟨_, hq', rfl⟩)
        simp at this ⊢
        omega
    · rw [hd] at hp; simp at hp

/-! ### Turns case by case, and induction over the loop -/

/-- What a turn that goes round again does: it takes one bit, which either completes no value or
completes one that is emitted (R167). -/
theorem loopStep_again_cases {n : Nat} {delta : Bool} {s s' : State}
    (h : loopStep n delta s = .again s') :
    s.out.length ≠ n ∧ ∃ b u, nextBit s = .bit b u ∧
      ((∃ d, decodeBit b u.dec = .noValue d ∧ s' = { u with dec := d }) ∨
        ∃ x d, decodeBit b u.dec = .value x d ∧
          deliver delta x { u with dec := d } = .again s') := by
  unfold loopStep at h
  split at h
  · cases h
  · rename_i hn
    refine ⟨hn, ?_⟩
    split at h
    · cases h
    · cases h
    · cases h
    · rename_i b u e
      refine ⟨b, u, e, ?_⟩
      unfold parseStep at h
      split at h
      · rename_i d hd; cases h; exact .inl ⟨d, hd, rfl⟩
      · rename_i x d hd; exact .inr ⟨x, d, hd, h⟩
      · cases h

/-- How a turn ends the loop: the buffer is full; or the source has not answered, is exhausted or
failed; or the bit it takes is a 31st prefix zero, or completes a value whose sum leaves s32 (R167). -/
theorem loopStep_stop_cases {n : Nat} {delta : Bool} {s s' : State}
    (h : loopStep n delta s = .stop s') :
    (s.out.length = n ∧ s' = endDecode false s) ∨
      s.out.length ≠ n ∧
        ((nextBit s = .wait ∧ s' = hold (.read n delta) s) ∨
          (∃ u, nextBit s = .eof u ∧ s' = endDecode true u) ∨
          (∃ u, nextBit s = .failed u ∧ s' = raiseFault 160 (.dec .srcIo) u) ∨
          (∃ b u, nextBit s = .bit b u ∧ decodeBit b u.dec = .overlong ∧
            s' = raiseFault 161 (.dec .overlong) u) ∨
          ∃ b u x d, nextBit s = .bit b u ∧ decodeBit b u.dec = .value x d ∧ delta = true ∧
            fitsS32 (d.base.toInt + x) = false ∧
            s' = raiseFault 194 (.dec .sumOvf) { u with dec := d }) := by
  unfold loopStep at h
  split at h
  · rename_i hn; cases h; exact .inl ⟨hn, rfl⟩
  · rename_i hn
    refine .inr ⟨hn, ?_⟩
    split at h
    · rename_i e; cases h; exact .inl ⟨e, rfl⟩
    · rename_i u e; cases h; exact .inr (.inl ⟨u, e, rfl⟩)
    · rename_i u e; cases h; exact .inr (.inr (.inl ⟨u, e, rfl⟩))
    · rename_i b u e
      unfold parseStep at h
      split at h
      · cases h
      · rename_i x d hd
        unfold deliver at h
        split at h
        · rename_i hdelta
          split at h
          · cases h
          · rename_i hacc
            cases h
            refine .inr (.inr (.inr (.inr ⟨b, u, x, d, e, hd, hdelta, ?_, rfl⟩)))
            simpa [deltaAccumulate] using hacc
        · cases h
      · rename_i hd; cases h; exact .inr (.inr (.inr (.inl ⟨b, u, e, hd, rfl⟩)))

/-- What a value that is emitted does (R167, R194). -/
theorem deliver_again_cases {delta : Bool} {x : Int} {s s' : State}
    (h : deliver delta x s = .again s') :
    (delta = false ∧ s' = emit (s32 x) s) ∨
      (delta = true ∧ fitsS32 (s.dec.base.toInt + x) = true ∧
        s' = emit (s32 (s.dec.base.toInt + x))
          { s with dec := { s.dec with base := s32 (s.dec.base.toInt + x) } }) := by
  unfold deliver at h
  cases delta
  · cases h; exact .inl ⟨rfl, rfl⟩
  · simp only [if_true] at h
    split at h
    · rename_i y d e
      obtain ⟨hf, rfl, rfl⟩ := deltaAccumulate_some e
      cases h; exact .inr ⟨rfl, hf, rfl⟩
    · cases h

/-- The three things NextBit can do to the state when it answers (R160). -/
theorem nextBit_cases (s : State) :
    (s.dec.bitsLeft ≠ 0 ∧ nextBit s = .bit (s.dec.byte.getLsbD (s.dec.bitsLeft - 1))
      { s with dec := { s.dec with bitsLeft := s.dec.bitsLeft - 1 } }) ∨
      s.dec.bitsLeft = 0 ∧
        ((s.srcAnswers = [] ∧ nextBit s = .wait) ∨
          (∃ b rest, s.srcAnswers = .byte b :: rest ∧ nextBit s = .bit (b.getLsbD 7) { s with
            dec := { s.dec with byte := b, bitsLeft := 7 }
            srcAnswers := rest
            trace := s.trace ++ [.sourceRead (.byte b)] }) ∨
          (∃ rest, s.srcAnswers = .eof :: rest ∧ nextBit s = .eof { s with
            srcAnswers := rest, trace := s.trace ++ [.sourceRead .eof] }) ∨
          ∃ rest, s.srcAnswers = .err :: rest ∧ nextBit s = .failed { s with
            srcAnswers := rest, trace := s.trace ++ [.sourceRead .err] }) := by
  by_cases h0 : s.dec.bitsLeft = 0
  · refine .inr ⟨h0, ?_⟩
    rcases hs : s.srcAnswers with _ | ⟨_ | _ | _, rest⟩
    · exact .inl ⟨rfl, nextBit_wait h0 hs⟩
    · exact .inr (.inl ⟨_, rest, rfl, nextBit_byte h0 hs⟩)
    · exact .inr (.inr (.inl ⟨rest, rfl, nextBit_eof h0 hs⟩))
    · exact .inr (.inr (.inr ⟨rest, rfl, nextBit_err h0 hs⟩))
  · exact .inl ⟨h0, nextBit_buffered h0⟩

/-- Induction over the turns of the loop: what holds before the loop and is kept by every turn that
goes round again holds before the turn that ends it. -/
theorem decodeLoop_induct {n : Nat} {delta : Bool} {P Q : State → Prop}
    (again : ∀ s s', P s → loopStep n delta s = .again s' → P s')
    (stop : ∀ s s', P s → loopStep n delta s = .stop s' → Q s') (s : State) (h : P s) :
    Q (decodeLoop n delta s) := by
  suffices hk : ∀ k s, bitsReady s < k → P s → Q (decodeLoop n delta s) from
    hk _ s (Nat.lt_succ_self _) h
  intro k
  induction k with
  | zero => intro s hk; omega
  | succ k ih =>
    intro s hk hs
    rw [decodeLoop_unfold]
    rcases e : loopStep n delta s with s' | s'
    · have := loopStep_again_bitsReady e
      exact ih s' (by omega) (again s s' hs e)
    · exact stop s s' hs e

/-- What two turns from related states must do for the loops to end in related states. -/
def LoopRelated (R Q : State → State → Prop) : LoopStep → LoopStep → Prop
  | .again s, .again t => R s t
  | .stop s, .stop t => Q s t
  | .again _, .stop _ => False
  | .stop _, .again _ => False

/-- Induction over the turns of two loops side by side. -/
theorem decodeLoop_induct₂ {n : Nat} {delta : Bool} {R Q : State → State → Prop}
    (turn : ∀ s t, R s t → LoopRelated R Q (loopStep n delta s) (loopStep n delta t))
    (s t : State) (h : R s t) : Q (decodeLoop n delta s) (decodeLoop n delta t) := by
  suffices hk : ∀ k s t, bitsReady s < k → R s t → Q (decodeLoop n delta s) (decodeLoop n delta t)
    from hk _ s t (Nat.lt_succ_self _) h
  intro k
  induction k with
  | zero => intro s t hk; omega
  | succ k ih =>
    intro s t hk hst
    have hturn := turn s t hst
    rw [decodeLoop_unfold, decodeLoop_unfold n delta t]
    rcases e : loopStep n delta s with s' | s' <;> rcases f : loopStep n delta t with t' | t' <;>
      rw [e, f] at hturn
    · have := loopStep_again_bitsReady e
      exact ih s' t' (by omega) hturn
    · exact hturn.elim
    · exact hturn.elim
    · exact hturn

/-- A prefix of a bit string emits a prefix of its values (R171). -/
theorem parseAll_take {c : Bits} {d e f : DecUnit} {xs ys : List Int} (j : Nat)
    (h : parseAll c d = some (xs, e)) (k : parseAll (c.take j) d = some (ys, f)) :
    ys <+: xs := by
  rw [← List.take_append_drop j c, parseAll_append, k] at h
  simp only [Option.bind_some, Option.map_eq_some_iff] at h
  obtain ⟨⟨zs, g⟩, _, h⟩ := h
  cases h
  exact ⟨zs, rfl⟩

/-- The parse machine leaves the byte buffer, BASE and the STATUS fields alone (R33). -/
theorem parseAll_frame {c : Bits} {d e : DecUnit} {xs : List Int}
    (h : parseAll c d = some (xs, e)) :
    e.byte = d.byte ∧ e.bitsLeft = d.bitsLeft ∧ e.base = d.base ∧ e.dexh = d.dexh ∧
      e.dfault = d.dfault := by
  have k := parseAll_withPort c d d
  rw [withPort_self, h] at k
  simp only [Option.map_some, Option.some.injEq, Prod.mk.injEq, true_and] at k
  rw [k]
  exact ⟨rfl, rfl, rfl, rfl, rfl⟩

/-! ### The loop up to one bit -/

theorem bitsOf_drop (k v x : Nat) : (bitsOf (k + v) x).drop k = bitsOf v x := by
  rw [bitsOf_add, List.drop_append_of_le_length (by simp), List.drop_eq_nil_of_le (by simp)]
  rfl

/-- The last of the bits that stand ready are those of the last byte (R160). -/
theorem readyBits_drop {k v : Nat} {s : State} {bytes : List Byte}
    (hk : k + v = s.dec.bitsLeft + 8 * bytes.length) (hv : bytes ≠ [] → v ≤ 8) :
    (readyBits s bytes).drop k = bitsOf v (bytes.getLastD s.dec.byte).toNat := by
  rcases bytes.eq_nil_or_concat with rfl | ⟨pre, last, rfl⟩
  · have e : s.dec.bitsLeft = k + v := by simpa using hk.symm
    simp only [readyBits, bitsOfBytes_nil, List.append_nil, DecUnit.bufferedBits, e, bitsOf_drop,
      List.getLastD_nil]
  · have h8 := hv (by simp)
    have hlen : (readyBits s pre).length = k - (8 - v) := by
      rw [readyBits_length]; simp at hk; omega
    have hle : 8 - v ≤ k := by simp at hk; omega
    have e : readyBits s (pre ++ [last]) = readyBits s pre ++ bitsOf 8 last.toNat := by
      simp [readyBits]
    rw [List.concat_eq_append, e, List.drop_append, List.drop_eq_nil_of_le (by omega),
      hlen, show k - (k - (8 - v)) = 8 - v by omega, List.nil_append]
    have := bitsOf_drop (8 - v) v last.toNat
    rw [show 8 - v + v = 8 by omega] at this
    simpa using this

/-- The loop up to the point where it takes one bit more: the state in which the bit has been taken
is that after all the bits and this one (R160, R167). -/
theorem decodeLoop_toBit {n : Nat} {delta : Bool} (m : Nat) {s : State} {bytes : List Byte}
    {unused : Nat} {xs : List Int} {d : DecUnit} {tail : List SrcAnswer}
    (hm : s.dec.bitsLeft + 8 * bytes.length = m + 1 + unused)
    (hu : bytes ≠ [] → unused < 8)
    (hs : s.srcAnswers = bytes.map SrcAnswer.byte ++ tail)
    (hp : parseAll ((readyBits s bytes).take m) s.dec = some (xs, d))
    (hn : ∀ j < m, ∀ ys e, parseAll ((readyBits s bytes).take j) s.dec = some (ys, e) →
      s.out.length + ys.length < n)
    (hf : SumsFit delta s.dec.base xs) :
    ∃ u b, decodeLoop n delta s = decodeLoop n delta u ∧
      (readyBits s bytes)[m]? = some b ∧
      nextBit u = .bit b (afterBits delta s bytes unused xs d tail) ∧
      u.out = s.out ++ emittedValues delta s.dec.base xs := by
  have hbit : (readyBits s bytes)[m]? =
      some ((bytes.getLastD s.dec.byte).getLsbD unused) := by
    have h := readyBits_drop (s := s) (bytes := bytes) (k := m) (v := unused + 1) (by omega) (fun h => by have := hu h; omega)
    have h' := congrArg (fun l => l[0]?) h
    simpa [bitsOf_succ, BitVec.testBit_toNat] using h'
  by_cases h7 : bytes ≠ [] ∧ unused = 7
  · obtain ⟨hne, rfl⟩ := h7
    obtain ⟨pre, last, rfl⟩ := (List.eq_nil_or_concat bytes).resolve_left hne
    simp only [List.concat_eq_append, List.length_append, List.length_singleton] at hm hs hp hn hbit ⊢
    have hlen : (readyBits s pre).length = m := by rw [readyBits_length]; omega
    have e : ∀ j ≤ m, (readyBits s (pre ++ [last])).take j = (readyBits s pre).take j := by
      intro j hj
      have : readyBits s (pre ++ [last]) = readyBits s pre ++ bitsOf 8 last.toNat := by
        simp [readyBits]
      rw [this, List.take_append_of_le_length (by omega)]
    refine ⟨afterBits delta s pre 0 xs d (.byte last :: tail), _,
      decodeLoop_afterBits (s := s) (bytes := pre) (unused := 0) m (by omega) (by omega) (by simpa using hs)
        (by rw [← e m le_rfl]; exact hp)
        (fun j hj ys f h => hn j hj ys f (by rw [e j hj.le]; exact h)) hf, hbit, ?_, rfl⟩
    rw [nextBit_byte rfl rfl]
    simp [afterBits]
  · refine ⟨afterBits delta s bytes (unused + 1) xs d tail, _,
      decodeLoop_afterBits (s := s) (bytes := bytes) (unused := unused + 1) m (by omega) (fun h => by
        have := hu h
        have : ¬ unused = 7 := fun h' => h7 ⟨h, h'⟩
        omega) hs hp hn hf, hbit, ?_, rfl⟩
    rw [nextBit_buffered (by simp [afterBits])]
    simp [afterBits]

/-! ### Commands -/

/-- DEC and DDEC on an open decoder run the loop with an empty output list (R167, R194). -/
theorem decoderCommand_open (k : State → State) {s : State} (h : s.DecoderOpen) :
    decoderCommand k s = k s := by
  simp [decoderCommand, h.noFault]

end Sys2Proof.Machine
end

