-- ==== Sys2Proof/Laws/Encoder.lean ====
section
/-!
SUPPORT. What the encoder's procedures can do: the sink's port, FlushWord and AppendBit case by case,
and AppendBits as a whole (R131 to R133, R139).
-/

namespace Sys2Proof.Machine

/-! ### The state that encoding touches -/

/-- `t` is `s` but for ACC, REM, the sink's answers and the trace. -/
def EncFrame (s t : State) : Prop :=
  ∃ acc rem answers trace,
    t = { s with
      enc := { s.enc with acc := acc, rem := rem }, sinkAnswers := answers, trace := trace }

theorem EncFrame.refl (s : State) : EncFrame s s := ⟨_, _, _, _, rfl⟩

theorem EncFrame.trans {s t u : State} (h : EncFrame s t) (k : EncFrame t u) : EncFrame s u := by
  obtain ⟨_, _, _, _, rfl⟩ := h
  obtain ⟨_, _, _, _, rfl⟩ := k
  exact ⟨_, _, _, _, rfl⟩

theorem encFrame_placeBit (b : Bool) (s : State) : EncFrame s (placeBit b s) :=
  ⟨setBit s.enc.acc (s.enc.rem - 1) b, s.enc.rem - 1, s.sinkAnswers, s.trace, rfl⟩

theorem encFrame_clearAcc (s : State) : EncFrame s (clearAcc s) :=
  ⟨0, 8 * s.wordBytes, s.sinkAnswers, s.trace, rfl⟩

/-! ### The sink's port -/

theorem sinkWrite_cases (bs : List Byte) (s : State) :
    (s.sinkAnswers = [] ∧ sinkWrite bs s = .wait) ∨
      (∃ rest, s.sinkAnswers = .ok :: rest ∧
        sinkWrite bs s = .ok { s with sinkAnswers := rest, trace := s.trace ++ [.sinkWrite bs] }) ∨
        ∃ landed rest, s.sinkAnswers = .err landed :: rest ∧
          sinkWrite bs s =
            .err { s with
              sinkAnswers := rest, trace := s.trace ++ landedEvents (bs.take landed) } := by
  unfold sinkWrite
  rcases h : s.sinkAnswers with _ | ⟨_ | landed, rest⟩
  · exact .inl ⟨rfl, rfl⟩
  · exact .inr (.inl ⟨rest, rfl, rfl⟩)
  · exact .inr (.inr ⟨landed, rest, rfl, rfl⟩)

theorem sinkFlush_cases (s : State) :
    (s.sinkAnswers = [] ∧ sinkFlush s = .wait) ∨
      (∃ rest, s.sinkAnswers = .ok :: rest ∧
        sinkFlush s = .ok { s with sinkAnswers := rest, trace := s.trace ++ [.sinkFlush] }) ∨
        ∃ landed rest, s.sinkAnswers = .err landed :: rest ∧
          sinkFlush s = .err { s with sinkAnswers := rest } := by
  unfold sinkFlush
  rcases h : s.sinkAnswers with _ | ⟨_ | landed, rest⟩
  · exact .inl ⟨rfl, rfl⟩
  · exact .inr (.inl ⟨rest, rfl, rfl⟩)
  · exact .inr (.inr ⟨landed, rest, rfl, rfl⟩)

/-! ### FlushWord and AppendBit -/

theorem flushWord_cases (s : State) :
    (s.sinkAnswers = [] ∧ flushWord s = .waiting s []) ∨
      (∃ rest, s.sinkAnswers = .ok :: rest ∧
        flushWord s =
          .done (clearAcc
            { s with
              sinkAnswers := rest
              trace := s.trace ++ [.sinkWrite (accBytes s.enc.acc s.wordBytes)] })) ∨
        ∃ landed rest, s.sinkAnswers = .err landed :: rest ∧
          flushWord s =
            .faulted (raiseFault 133 (.enc .sinkIo) (clearAcc
              { s with
                sinkAnswers := rest
                trace := s.trace ++
                  landedEvents ((accBytes s.enc.acc s.wordBytes).take landed) })) := by
  unfold flushWord
  rcases sinkWrite_cases (accBytes s.enc.acc s.wordBytes) s with
    ⟨h, e⟩ | ⟨rest, h, e⟩ | ⟨landed, rest, h, e⟩
  · exact .inl ⟨h, by rw [e]⟩
  · exact .inr (.inl ⟨rest, h, by rw [e]⟩)
  · exact .inr (.inr ⟨landed, rest, h, by rw [e]⟩)

theorem appendBit_of_one_lt (b : Bool) {s : State} (h : 1 < s.enc.rem) :
    appendBit b s = .done (placeBit b s) := by
  simp [appendBit, show ¬ s.enc.rem - 1 = 0 by omega]

theorem appendBit_of_rem_one (b : Bool) {s : State} (h : s.enc.rem = 1) :
    appendBit b s = flushWord (placeBit b s) := by
  simp [appendBit, h]

@[simp] theorem appendBits_nil (s : State) : appendBits [] s = .done s := rfl

theorem appendBits_cons (b : Bool) (c : Bits) (s : State) :
    appendBits (b :: c) s = (appendBit b s).andThen c (appendBits c) := rfl

theorem accReady_clearAcc {s : State} (hw : 1 ≤ s.wordBytes) : (clearAcc s).AccReady :=
  ⟨⟨by simp [State.width], fun i _ => clearAcc_acc_bit s i⟩, by simp; omega⟩

theorem accReady_placeBit (b : Bool) {s : State} (h : s.AccReady) (h1 : 1 < s.enc.rem) :
    (placeBit b s).AccReady := by
  refine ⟨⟨?_, fun i hi => ?_⟩, by simp; omega⟩
  · have := h.rem_le
    simp [State.width] at this ⊢
    omega
  · simp at hi
    simp only [placeBit, getLsbD_setBit]
    rw [if_neg (by omega)]
    exact h.unused_zero i (by omega)

/-- What AppendBits can do: it appends all bits, or raises SINK_IO, or waits for the sink with REM = 0
(R131 to R133). -/
theorem appendBits_outcome (c : Bits) {s : State} (hw : 1 ≤ s.wordBytes) (h : s.AccReady) :
    (∃ t, appendBits c s = .done t ∧ EncFrame s t ∧ t.AccReady) ∨
      (∃ t, appendBits c s = .faulted (raiseFault 133 (.enc .sinkIo) (clearAcc t)) ∧
        EncFrame s t) ∨
        ∃ t rest, appendBits c s = .waiting t rest ∧ EncFrame s t ∧ t.enc.rem = 0 ∧
          t.sinkAnswers = [] := by
  induction c generalizing s with
  | nil => exact .inl ⟨s, rfl, .refl s, h⟩
  | cons b c ih =>
    rw [appendBits_cons]
    by_cases h1 : s.enc.rem = 1
    · rw [appendBit_of_rem_one b h1]
      have hf := encFrame_placeBit b s
      rcases flushWord_cases (placeBit b s) with ⟨he, e⟩ | ⟨rest, he, e⟩ | ⟨landed, rest, he, e⟩
      · refine .inr (.inr ⟨placeBit b s, c, by rw [e]; rfl, hf, by simp [h1], he⟩)
      · rw [e]
        have hready := accReady_clearAcc (s := { placeBit b s with
          sinkAnswers := rest
          trace := (placeBit b s).trace ++
            [.sinkWrite (accBytes (placeBit b s).enc.acc (placeBit b s).wordBytes)] }) hw
        have hg : EncFrame s (clearAcc { placeBit b s with
            sinkAnswers := rest
            trace := (placeBit b s).trace ++
              [.sinkWrite (accBytes (placeBit b s).enc.acc (placeBit b s).wordBytes)] }) :=
          hf.trans ⟨_, _, _, _, rfl⟩
        rcases ih (by exact hw) hready with ⟨t, e', f, r⟩ | ⟨t, e', f⟩ | ⟨t, rest', e', f, r⟩
        · exact .inl ⟨t, e', hg.trans f, r⟩
        · exact .inr (.inl ⟨t, e', hg.trans f⟩)
        · exact .inr (.inr ⟨t, rest', e', hg.trans f, r⟩)
      · exact .inr (.inl ⟨_, by rw [e]; rfl, hf.trans ⟨_, _, _, _, rfl⟩⟩)
    · have h2 : 1 < s.enc.rem := by have := h.rem_pos; omega
      rw [appendBit_of_one_lt b h2]
      have hf := encFrame_placeBit b s
      rcases ih (by exact hw) (accReady_placeBit b h h2) with
        ⟨t, e', f, r⟩ | ⟨t, e', f⟩ | ⟨t, rest', e', f, r⟩
      · exact .inl ⟨t, e', hf.trans f, r⟩
      · exact .inr (.inl ⟨t, e', hf.trans f⟩)
      · exact .inr (.inr ⟨t, rest', e', hf.trans f, r⟩)

/-! ### The pending bits -/

/-- The first `k` bits of the accumulator, from ACC[W-1] downward. -/
def topBits (s : State) (k : Nat) : Bits :=
  (List.range k).map fun i => s.enc.acc.getLsbD (s.width - 1 - i)

theorem pendingBits_eq_topBits (s : State) : s.pendingBits = topBits s s.pendingCount := rfl

theorem pendingBits_placeBit (b : Bool) {s : State} (h1 : 1 ≤ s.enc.rem)
    (h2 : s.enc.rem ≤ s.width) : (placeBit b s).pendingBits = s.pendingBits ++ [b] := by
  have hp : (placeBit b s).pendingCount = s.pendingCount + 1 := by
    simp [State.pendingCount, State.width] at h2 ⊢
    omega
  have hp' : s.pendingCount = s.width - s.enc.rem := rfl
  rw [pendingBits_eq_topBits, pendingBits_eq_topBits, hp]
  have hwidth : (placeBit b s).width = s.width := rfl
  simp only [topBits, List.range_succ, List.map_append, List.map_cons, List.map_nil, hwidth]
  have hacc : ∀ j, (placeBit b s).enc.acc.getLsbD j =
      (setBit s.enc.acc (s.enc.rem - 1) b).getLsbD j := fun _ => rfl
  simp only [hacc, getLsbD_setBit]
  congr 1
  · refine List.map_congr_left fun i hi => ?_
    rw [List.mem_range] at hi
    rw [if_neg (by omega)]
  · have hw : 8 * s.wordBytes = s.width := rfl
    rw [if_pos (by omega)]

/-- The bytes of the accumulator spell its first bits (R55). -/
theorem bitsOfBytes_accBytes (s : State) (nb : Nat) (h : nb ≤ s.wordBytes) :
    bitsOfBytes (accBytes s.enc.acc nb) = topBits s (8 * nb) := by
  induction nb with
  | zero => rfl
  | succ nb ih =>
    have e : accBytes s.enc.acc (nb + 1) =
        accBytes s.enc.acc nb ++ [s.enc.acc.extractLsb' (8 * s.wordBytes - 8 - 8 * nb) 8] := by
      simp [accBytes, List.range_succ]
    rw [e, bitsOfBytes_append, ih (by omega), topBits, topBits,
      show 8 * (nb + 1) = 8 * nb + 8 by ring, List.range_add, List.map_append]
    congr 1
    have hw : s.width = 8 * s.wordBytes := rfl
    have hb : ∀ j, j < 8 →
        (s.enc.acc.extractLsb' (8 * s.wordBytes - 8 - 8 * nb) 8).toNat.testBit j =
          s.enc.acc.getLsbD (s.width - 1 - (8 * nb + (7 - j))) := by
      intro j hj
      rw [BitVec.testBit_toNat, BitVec.getLsbD_extractLsb']
      simp only [hj, decide_true, Bool.true_and]
      congr 1
      omega
    simp only [bitsOfBytes_cons, bitsOfBytes_nil, List.append_nil, List.map_map]
    simp only [bitsOf, hb 0 (by omega), hb 1 (by omega), hb 2 (by omega), hb 3 (by omega),
      hb 4 (by omega), hb 5 (by omega), hb 6 (by omega), hb 7 (by omega)]
    rfl

@[simp] theorem accBytes_length {wb : Nat} (acc : BitVec (8 * wb)) (nb : Nat) :
    (accBytes acc nb).length = nb := by simp [accBytes]

theorem pendingBits_clearAcc (s : State) : (clearAcc s).pendingBits = [] := by
  simp [State.pendingBits, State.pendingCount, State.width]

/-- The bytes that ENC_FINISH writes spell the pending bits and then the zero bits that fill the last
byte (R137). -/
theorem bitsOfBytes_finishBytes {s : State} (h : s.AccReady) :
    bitsOfBytes (accBytes s.enc.acc (finishBytes s)) =
      s.pendingBits ++ padding s.pendingCount := by
  have hr := h.rem_pos
  have hl := h.rem_le
  have hw : s.width = 8 * s.wordBytes := rfl
  have hp : s.pendingCount = s.width - s.enc.rem := rfl
  have hn : finishBytes s = (s.pendingCount + 7) / 8 := rfl
  rw [bitsOfBytes_accBytes _ _ (by omega), pendingBits_eq_topBits, padding]
  have e : 8 * finishBytes s = s.pendingCount + (8 - s.pendingCount % 8) % 8 := by omega
  rw [e, topBits, topBits, List.range_add, List.map_append]
  congr 1
  rw [List.eq_replicate_iff]
  refine ⟨by simp, fun b hb => ?_⟩
  simp only [List.map_map, List.mem_map, List.mem_range, Function.comp] at hb
  obtain ⟨i, hi, rfl⟩ := hb
  exact h.unused_zero _ (by omega)

theorem pendingCount_clearAcc (s : State) : (clearAcc s).pendingCount = 0 := by
  simp [State.pendingCount, State.width]

/-- AppendBits with a sink that accepts every word it fills (R139). -/
theorem appendBits_appended (c : Bits) {s : State} (hw : 1 ≤ s.wordBytes) (h : s.AccReady)
    (hs : s.SinkAccepts (s.wordsFilled c.length)) :
    ∃ words t, appendBits c s = .done t ∧ Appended c words s t := by
  have hwidth : s.width = 8 * s.wordBytes := rfl
  have hp : s.pendingCount = s.width - s.enc.rem := rfl
  have hr := h.rem_pos
  have hl := h.rem_le
  induction c generalizing s with
  | nil =>
    refine ⟨[], s, rfl, ⟨s.enc.acc, s.enc.rem, by simp⟩, ?_, by simp, by simp, ?_, h⟩
    · simp only [List.length_nil, State.wordsFilled, Nat.add_zero]
      exact (Nat.div_eq_of_lt (by omega)).symm
    · rw [List.length_nil, Nat.add_zero, Nat.mod_eq_of_lt (by omega)]; omega
  | cons b c ih =>
    rw [appendBits_cons]
    by_cases h1 : s.enc.rem = 1
    · have hfill : s.wordsFilled (b :: c).length = c.length / s.width + 1 := by
        unfold State.wordsFilled
        rw [List.length_cons, show s.pendingCount + (c.length + 1) = c.length + s.width by omega,
          Nat.add_div_right _ (by omega)]
      rw [hfill] at hs
      obtain ⟨hlen, hall⟩ := hs
      rw [appendBit_of_rem_one b h1]
      rcases hsa : s.sinkAnswers with _ | ⟨a, rest⟩
      · simp [hsa] at hlen
      rw [hsa] at hlen hall
      have ha : a = .ok := hall a (by simp)
      subst ha
      have hok : flushWord (placeBit b s) = .done (clearAcc { placeBit b s with
          sinkAnswers := rest
          trace := (placeBit b s).trace ++
            [.sinkWrite (accBytes (placeBit b s).enc.acc (placeBit b s).wordBytes)] }) := by
        have hpa : (placeBit b s).sinkAnswers = .ok :: rest := hsa
        rcases flushWord_cases (placeBit b s) with ⟨he, _⟩ | ⟨r, he, e⟩ | ⟨l, r, he, _⟩
        · rw [hpa] at he; cases he
        · rw [hpa] at he; cases he; exact e
        · rw [hpa] at he; cases he
      rw [hok]
      generalize hu : clearAcc { placeBit b s with
          sinkAnswers := rest
          trace := (placeBit b s).trace ++
            [.sinkWrite (accBytes (placeBit b s).enc.acc (placeBit b s).wordBytes)] } = u
      have huw : u.wordBytes = s.wordBytes := by rw [← hu]; rfl
      have hur : u.AccReady := by rw [← hu]; exact accReady_clearAcc hw
      have hup : u.pendingCount = 0 := by rw [← hu]; exact pendingCount_clearAcc _
      have hub : u.pendingBits = [] := by rw [← hu]; exact pendingBits_clearAcc _
      have hus : u.sinkAnswers = rest := by rw [← hu]; rfl
      have huf : u.wordsFilled c.length = c.length / s.width := by
        unfold State.wordsFilled
        rw [hup, Nat.zero_add]
        unfold State.width
        rw [huw]
      obtain ⟨words, t, e, k⟩ := ih (s := u) (by omega) hur
        (by
          rw [huf]
          refine ⟨by rw [hus]; simpa using hlen, fun x hx => hall x ?_⟩
          rw [hus] at hx
          simpa using Or.inr hx)
        rfl rfl hur.rem_pos hur.rem_le
      refine ⟨accBytes (placeBit b s).enc.acc (placeBit b s).wordBytes :: words, t, e, ?_⟩
      refine ⟨?_, ?_, ?_, ?_, ?_, k.ready⟩
      · subst hu
        obtain ⟨acc, rem, ht⟩ := k.frame
        refine ⟨acc, rem, ?_⟩
        rw [ht]
        simp [hsa, clearAcc, placeBit]
      · rw [hfill, List.length_cons, k.words_count, huf]
      · intro w hw'
        rcases List.mem_cons.1 hw' with rfl | hw'
        · simp
        · rw [k.word_size w hw', huw]
      · have hfull : bitsOfBytes (accBytes (placeBit b s).enc.acc (placeBit b s).wordBytes) =
            s.pendingBits ++ [b] := by
          rw [bitsOfBytes_accBytes _ _ le_rfl, ← pendingBits_placeBit b hr hl,
            pendingBits_eq_topBits]
          congr 1
          have : (placeBit b s).pendingCount = (placeBit b s).width := by
            simp [State.pendingCount, h1]
          rw [this]; rfl
        have hb := k.bits
        rw [hub, List.nil_append] at hb
        rw [List.flatten_cons, bitsOfBytes_append, hfull, List.append_assoc, List.append_assoc, hb]
        rfl
      · rw [k.rem_eq, hup, Nat.zero_add, List.length_cons]
        have : u.width = s.width := by unfold State.width; rw [huw]
        rw [this, show s.pendingCount + (c.length + 1) = c.length + s.width by omega,
          Nat.add_mod_right]
    · have h2 : 1 < s.enc.rem := by omega
      rw [appendBit_of_one_lt b h2]
      have hup : (placeBit b s).pendingCount = s.pendingCount + 1 := by
        have : (placeBit b s).pendingCount = s.width - (s.enc.rem - 1) := rfl
        omega
      have hpw : (placeBit b s).width = s.width := rfl
      have hfill : (placeBit b s).wordsFilled c.length = s.wordsFilled (b :: c).length := by
        unfold State.wordsFilled
        rw [hup, hpw, List.length_cons]
        congr 1
        omega
      obtain ⟨words, t, e, k⟩ := ih (s := placeBit b s) hw (accReady_placeBit b h h2)
        (by rw [hfill]; exact hs) rfl rfl (by simp; omega) (by simp [hpw]; omega)
      refine ⟨words, t, e, ?_⟩
      obtain ⟨acc, rem, ht⟩ := k.frame
      refine ⟨⟨acc, rem, ht⟩, by rw [k.words_count, hfill], k.word_size, ?_, ?_, k.ready⟩
      · rw [k.bits, pendingBits_placeBit b hr hl]; simp
      · rw [k.rem_eq, hup, hpw, List.length_cons]
        congr 2
        omega

/-- AppendBits of two strings is AppendBits of the first and then of the second, unless the first faults
or waits (R132). -/
theorem appendBits_append (a c : Bits) (s : State) :
    appendBits (a ++ c) s =
      match appendBits a s with
      | .done t => appendBits c t
      | .faulted t => .faulted t
      | .waiting t rest => .waiting t (rest ++ c) := by
  induction a generalizing s with
  | nil => rfl
  | cons b a ih =>
    rw [List.cons_append, appendBits_cons, appendBits_cons]
    cases appendBit b s with
    | done t => exact ih t
    | faulted t => rfl
    | waiting t rest => rfl

/-- AppendBits up to the `k + 1`-th word that fills, with a sink that accepts the `k` words before it:
the word is in ACC with REM = 0, and what happens next is its FlushWord (R131 to R133). -/
theorem appendBits_toFullWord (bits : Bits) (k : Nat) {s : State} (hw : 1 ≤ s.wordBytes)
    (h : s.AccReady) (hc : s.enc.rem + k * s.width ≤ bits.length) (hs : s.SinkAccepts k) :
    ∃ (words : List (List Byte)) (acc : BitVec (8 * s.wordBytes)), words.length = k ∧
      (∀ w ∈ words, w.length = s.wordBytes) ∧
      bitsOfBytes (words.flatten ++ accBytes acc s.wordBytes) =
        s.pendingBits ++ bits.take (s.enc.rem + k * s.width) ∧
      appendBits bits s =
        (flushWord { s with
          enc := { s.enc with acc := acc, rem := 0 }
          sinkAnswers := s.sinkAnswers.drop k
          trace := s.trace ++ words.map Event.sinkWrite }).andThen
          (bits.drop (s.enc.rem + k * s.width))
          (appendBits (bits.drop (s.enc.rem + k * s.width))) := by
  have hwidth : s.width = 8 * s.wordBytes := rfl
  have hp : s.pendingCount = s.width - s.enc.rem := rfl
  have hr := h.rem_pos
  have hl := h.rem_le
  obtain ⟨m, hm⟩ : ∃ m, s.enc.rem + k * s.width = m + 1 := ⟨s.enc.rem + k * s.width - 1, by omega⟩
  rw [hm] at hc ⊢
  have hlen : (bits.take m).length = m := by rw [List.length_take]; omega
  have hsum : s.pendingCount + m = s.width - 1 + s.width * k := by
    rw [Nat.mul_comm]; omega
  have hfill : s.wordsFilled (bits.take m).length = k := by
    rw [hlen, State.wordsFilled, hsum, Nat.add_mul_div_left _ _ (by omega),
      Nat.div_eq_of_lt (by omega), Nat.zero_add]
  obtain ⟨words, t, e, ha⟩ := appendBits_appended (bits.take m) hw h (by rw [hfill]; exact hs)
  have hrem : t.enc.rem = 1 := by
    rw [ha.rem_eq, hlen, hsum, Nat.add_mul_mod_self_left, Nat.mod_eq_of_lt (by omega)]
    omega
  have hcount : words.length = k := ha.words_count.trans hfill
  have hbits := ha.bits
  obtain ⟨acc, rem, ht⟩ := ha.frame
  obtain ⟨b, hb⟩ : ∃ b, bits.drop m = b :: bits.drop (m + 1) :=
    ⟨_, List.drop_eq_getElem_cons (show m < bits.length by omega)⟩
  have htw : t.width = s.width := by rw [ht]; rfl
  have hpl : (placeBit b t).pendingBits = t.pendingBits ++ [b] :=
    pendingBits_placeBit b (by omega) (by omega)
  have hfull : bitsOfBytes (accBytes (placeBit b t).enc.acc t.wordBytes) =
      t.pendingBits ++ [b] := by
    have hc : (placeBit b t).pendingCount = (placeBit b t).width := by
      simp [State.pendingCount, hrem]
    have hb' := bitsOfBytes_accBytes (placeBit b t) t.wordBytes le_rfl
    rw [hb', ← hpl, pendingBits_eq_topBits, hc]
    rfl
  have hout : appendBits bits s =
      (flushWord (placeBit b t)).andThen (bits.drop (m + 1)) (appendBits (bits.drop (m + 1))) := by
    conv_lhs => rw [← List.take_append_drop m bits, hb]
    rw [appendBits_append, e]
    show appendBits (b :: bits.drop (m + 1)) t = _
    rw [appendBits_cons, appendBit_of_rem_one b hrem]
  have htake : bits.take (m + 1) = bits.take m ++ [b] := by
    have : bits[m]? = some b := by
      have := congrArg (fun l => l[0]?) hb
      simpa using this
    rw [List.take_add_one, this]
    rfl
  subst ht
  have hr1 : rem = 1 := hrem
  subst hr1
  refine ⟨words, setBit acc 0 b, hcount, ha.word_size, ?_, ?_⟩
  · rw [htake, ← List.append_assoc, ← hbits, List.append_assoc, ← hfull, ← bitsOfBytes_append]
    rfl
  · rw [hout, ← hcount]
    rfl

/-! ### Commands -/

/-- On an open encoder the checks of a command pass (R136, R137, R191). -/
theorem encoderCommand_open (rule : Nat) (k : State → State) {s : State} (h : s.EncoderOpen) :
    encoderCommand rule k s = k s := by
  simp [encoderCommand, h.noFault, h.notFinished]

/-- What the flush of ENC_FINISH can do (R137). -/
theorem finishFlush_cases (nb : Nat) (s : State) :
    (s.sinkAnswers = [] ∧ finishFlush nb s = hold (.flush nb) s) ∨
      (∃ rest, s.sinkAnswers = .ok :: rest ∧
        finishFlush nb s = respond (okResponse nb) { s with
          enc := { s.enc with efin := true }
          sinkAnswers := rest
          trace := s.trace ++ [.sinkFlush] }) ∨
        ∃ landed rest, s.sinkAnswers = .err landed :: rest ∧
          finishFlush nb s = raiseFault 137 (.enc .sinkIo) { s with sinkAnswers := rest } := by
  unfold finishFlush
  rcases sinkFlush_cases s with ⟨h, e⟩ | ⟨rest, h, e⟩ | ⟨landed, rest, h, e⟩ <;> rw [e]
  · exact .inl ⟨h, rfl⟩
  · exact .inr (.inl ⟨rest, h, rfl⟩)
  · exact .inr (.inr ⟨landed, rest, h, rfl⟩)

/-- What ENC_FINISH past its checks can do with pending bits (R137). -/
theorem finishStream_cases {s : State} (hb : 0 < finishBytes s) :
    (s.sinkAnswers = [] ∧ finishStream s = hold .tail s) ∨
      (∃ rest, s.sinkAnswers = .ok :: rest ∧
        finishStream s = finishFlush (finishBytes s) (clearAcc { s with
          sinkAnswers := rest
          trace := s.trace ++ [.sinkWrite (accBytes s.enc.acc (finishBytes s))] })) ∨
        ∃ landed rest, s.sinkAnswers = .err landed :: rest ∧
          finishStream s = raiseFault 137 (.enc .sinkIo) (clearAcc { s with
            sinkAnswers := rest
            trace := s.trace ++
              landedEvents ((accBytes s.enc.acc (finishBytes s)).take landed) }) := by
  unfold finishStream
  rw [if_pos hb]
  rcases sinkWrite_cases (accBytes s.enc.acc (finishBytes s)) s with
    ⟨h, e⟩ | ⟨rest, h, e⟩ | ⟨landed, rest, h, e⟩ <;> rw [e]
  · exact .inl ⟨h, rfl⟩
  · exact .inr (.inl ⟨rest, h, rfl⟩)
  · exact .inr (.inr ⟨landed, rest, h, rfl⟩)

/-- ENC_FINISH past its checks with no pending bit (R137). -/
theorem finishStream_empty {s : State} (hb : finishBytes s = 0) :
    finishStream s = finishFlush 0 (clearAcc s) := by
  simp [finishStream, hb]

/-- ENC_ONE and DENC_VAL past their checks with a value in the domain (R136, R191). -/
theorem encodeValue_inDomain (rule : Nat) (newPrev : Option Word32) (s : State) {x : Int}
    (h : inDomain x = true) :
    encodeValue rule x newPrev s =
      finishValue (cw x).length newPrev (appendBits (cw x) s) := by
  simp [encodeValue, h]

end Sys2Proof.Machine
end

