-- ==== Sys2Proof/Laws/PerInstr.lean ====
section
/-!
SUPPORT. A law of every instruction as syntax: the form in which it travels (R80, R90, R112).
-/

namespace Sys2Proof.Laws.WireForm

/-- A command travels as a command word with RSV = 0 and an OP of the map (R90, R92); a codeword
travels as a bit string of 1 to 62 bits (R112). -/
def Statement (i : Instr) : Prop :=
  i.wellFormed = true →
    match encode i with
    | .command w =>
      i.isCommand = true ∧ rsvField w = 0 ∧ opField w ≠ 0 ∧ opField w ≤ 0x0A#8
    | .stream b => i.isCommand = false ∧ 1 ≤ b.length ∧ b.length ≤ 62

/-- The fields of a command word are what it was made of (R90). -/
theorem commandWord_fields (op : BitVec 8) (imm : Word32) :
    opField (commandWord op imm) = op ∧ rsvField (commandWord op imm) = 0 ∧
      immField (commandWord op imm) = imm := by
  refine ⟨?_, ?_, ?_⟩ <;> apply BitVec.eq_of_getLsbD_eq <;> intro i hi
  · have h : BitVec.getLsbD imm (56 + i) = false := BitVec.getLsbD_of_ge _ _ (by omega)
    simp [opField, commandWord, hi, h, show 56 + i < 64 by omega]
  · simp [rsvField, commandWord]
    omega
  · simp [immField, commandWord, hi, show i < 64 by omega, show i < 56 by omega]

theorem command_form {i : Instr} {op : BitVec 8} {imm : Word32} (hc : i.isCommand = true)
    (e : encode i = .command (commandWord op imm)) (h0 : op ≠ 0) (h1 : op ≤ 0x0A#8) :
    Statement i := by
  intro _
  obtain ⟨a, b, -⟩ := commandWord_fields op imm
  rw [e]
  exact ⟨hc, b, by rwa [a], by rwa [a]⟩

theorem encInit : Statement .encInit := command_form rfl rfl (by decide) (by decide)

theorem encOne (v : Word32) : Statement (.encOne v) :=
  command_form rfl rfl (by decide) (by decide)

theorem encFinish : Statement .encFinish := command_form rfl rfl (by decide) (by decide)

theorem decInit : Statement .decInit := command_form rfl rfl (by decide) (by decide)

theorem dec (n : Word32) : Statement (.dec n) := command_form rfl rfl (by decide) (by decide)

theorem dencStart (start : Word32) : Statement (.dencStart start) :=
  command_form rfl rfl (by decide) (by decide)

theorem dencVal (v : Word32) : Statement (.dencVal v) :=
  command_form rfl rfl (by decide) (by decide)

theorem ddecStart (base : Word32) : Statement (.ddecStart base) :=
  command_form rfl rfl (by decide) (by decide)

theorem ddec (n : Word32) : Statement (.ddec n) := command_form rfl rfl (by decide) (by decide)

theorem statusRead : Statement .statusRead := command_form rfl rfl (by decide) (by decide)

theorem cwZero : Statement .cwZero := fun _ => ⟨rfl, by decide, by decide⟩

theorem cwNonzero (n mbits : Nat) (sign : Bool) : Statement (.cwNonzero n mbits sign) := by
  intro h
  simp only [Instr.wellFormed, Bool.and_eq_true, decide_eq_true_eq] at h
  have h30 : n ≤ 30 := h.1.2
  refine ⟨rfl, ?_, ?_⟩ <;> rw [codewordBits_length] <;> omega

end Sys2Proof.Laws.WireForm
end

