-- ==== Sys2Proof/Tests/Slice0.lean ====
section
/-!
SUPPORT. Tests of one step each, with results from the spec's examples and test vectors (named in each
comment), and for every obligation with hypotheses a state and operands that meet them.
-/

namespace Sys2Proof.Tests

open Sys2Proof Sys2Proof.Machine

/-! ### Small states -/

/-- The state after an instruction. -/
def after (i : Instr) (s : State) : State :=
  match exec i s with
  | .next t => t
  | .fault _ => s
  | .refused _ => s

/-- The last response. -/
def answer (s : State) : Option Response := s.responses.getLast?

/-- The reset state with W = 64, a sink that accepts `k` operations, and a source. -/
def fresh (k : Nat) (source : List SrcAnswer) : State :=
  { State.reset with sinkAnswers := List.replicate k .ok, srcAnswers := source }

/-- As `fresh`, with W = 8. -/
def narrow (k : Nat) (source : List SrcAnswer) : State :=
  { State.resetOfWidth 1 with sinkAnswers := List.replicate k .ok, srcAnswers := source }

/-- A source that answers bytes and then `eof`. -/
def bytesThenEof (bs : List Byte) : List SrcAnswer := bs.map SrcAnswer.byte ++ [.eof]

/-- A state with one command word in its program. -/
def withWord (w : CmdWord) : State := { fresh 4 [] with program := [w] }

/-! ### Well-formedness (R80) -/

theorem test_wf_class_low : (Instr.cwNonzero 0 0 false).wellFormed = false := by decide
theorem test_wf_class_high : (Instr.cwNonzero 31 0 false).wellFormed = false := by decide
theorem test_wf_mbits : (Instr.cwNonzero 3 8 false).wellFormed = false := by decide
theorem test_wf_good : (Instr.cwNonzero 30 1073741823 true).wellFormed = true := by decide
theorem test_wf_command : (Instr.encOne 0x80000000).wellFormed = true := by decide

/-! ### Decoding: words written out from R90 to R93, codewords from R80 and R85 -/

theorem test_decode_encInit : decodeCommand 0x0100000000000000 = .ok .encInit := by decide
theorem test_decode_encOne : decodeCommand 0x02000000FFFFFFFE = .ok (.encOne (-2)) := by decide
theorem test_decode_encFinish : decodeCommand 0x0300000000000000 = .ok .encFinish := by decide
theorem test_decode_decInit : decodeCommand 0x0400000000000000 = .ok .decInit := by decide
theorem test_decode_dec : decodeCommand 0x0500000000000010 = .ok (.dec 16) := by decide
theorem test_decode_dencStart : decodeCommand 0x060000000000000A = .ok (.dencStart 10) := by decide
theorem test_decode_dencVal : decodeCommand 0x070000000000000B = .ok (.dencVal 11) := by decide
theorem test_decode_ddecStart :
    decodeCommand 0x0800000080000000 = .ok (.ddecStart (-2147483648)) := by decide
theorem test_decode_ddec : decodeCommand 0x09000000FFFFFFFF = .ok (.ddec 4294967295) := by decide
theorem test_decode_statusRead : decodeCommand 0x0A00000000000000 = .ok .statusRead := by decide
theorem test_decode_op_zero : decodeCommand 0 = .error (.badOpcode 0) := by decide
theorem test_decode_op_high :
    decodeCommand 0x0B00000000000000 = .error (.badOpcode 0x0B) := by decide
theorem test_decode_rsv : decodeCommand 0x0280000000000001 = .error .reservedNonzero := by decide
theorem test_decode_imm : decodeCommand 0x0A00000000000001 = .error .operandNonzero := by decide

theorem test_decode_cwZero : decode (.stream [true]) = .ok .cwZero := by decide
/-- `0111` is the codeword of -2 (R85): class 1, MBITS = 1, SIGN = 1. -/
theorem test_decode_cwNonzero :
    decode (.stream [false, true, true, true]) = .ok (.cwNonzero 1 1 true) := by decide
theorem test_decode_truncated : decode (.stream [false, true, true]) = .error .truncated := by
  decide
theorem test_decode_trailing : decode (.stream [true, true]) = .error .trailing := by decide
theorem test_decode_overlong :
    decode (.stream (List.replicate 31 false)) = .error .overlongPrefix := by decide

/-- The table's row of format Z: position 0 is bit 0. -/
theorem test_tableWord_zero : decodeTableWord 8 1 = some .cwZero := by decide
/-- Positions 0 and 1 are `0` and `1`; the rest, given as zeros, are MBITS and SIGN. -/
theorem test_tableWord_nonzero : decodeTableWord 8 2 = some (.cwNonzero 1 0 false) := by decide
theorem test_tableWord_command :
    decodeTableWord 64 0x020000000000000A = some (.encOne 10) := by decide

/-! ### Codewords (R85, R110, R118) -/

theorem test_cw_short :
    [0, 1, -1, 2, -2].map cw =
      [[true], [false, true, false, false], [false, true, false, true],
        [false, true, true, false], [false, true, true, true]] := by decide
/-- The last codeword of class 30 (R82): 30 zeros, and then ones but for the sign. -/
theorem test_cw_max :
    cw 2147483646 = List.replicate 30 false ++ List.replicate 31 true ++ [false] := by decide
theorem test_parseCW :
    parseCW [false, true, false, true, true] = some (-1, [true]) := by decide

/-! ### The assembler (R97) -/

theorem test_asm_signed : assembleLine "ENC_ONE -2 ; a comment".toList = .ok (some (.encOne (-2))) := by
  decide
theorem test_asm_hex : assembleLine "DEC 0x10".toList = .ok (some (.dec 16)) := by decide
theorem test_asm_range : assembleLine "DEC 4294967296".toList = .error .outOfRange := by decide
theorem test_asm_words : commandWords [.encInit, .encOne (-2)] =
    [0x0100000000000000, 0x02000000FFFFFFFE] := by decide

/-! ### One step each -/

/-- R135: REM = 64 after ENC_INIT. -/
theorem test_encInit : (after .encInit (after (.encOne 1) (fresh 0 []))).enc.rem = 64 := by decide

/-- R136: ENC_ONE 1 from REM = 64 gives ACC[63:60] = 0100, REM = 60, count = 4, no sink event. -/
theorem test_encOne :
    let t := after (.encOne 1) (fresh 0 [])
    t.enc.acc = 0x4000000000000000 ∧ t.enc.rem = 60 ∧ t.sinkMarks = [] ∧
      answer t = some { rc := .ok, count := 4 } := by decide

/-- R136: 2^31 - 1 faults with ENC_RANGE and appends nothing. -/
theorem test_encOne_range :
    let t := after (.encOne 2147483647) (fresh 0 [])
    t.enc.rem = 64 ∧ t.status = 0x10 ∧ answer t = some { rc := .fault, fcode := 1 } := by decide

/-- R131, W = 8: four bits pending and `0101` more fill the word, which is flushed at once. -/
theorem test_encOne_fills :
    let s := { narrow 1 [] with
      enc := { acc := 0x40, rem := 4, prev := 0, efin := false, efault := none } }
    let t := after (.encOne (-1)) s
    t.sinkBytes = [0x45] ∧ t.enc.rem = 8 ∧ t.enc.acc = 0 := by decide

/-- R137: with `0100` pending, ENC_FINISH writes 40H and flushes, count = 1. -/
theorem test_encFinish :
    let t := after .encFinish (after (.encOne 1) (fresh 2 []))
    t.sinkMarks = [.byte 0x40, .flush] ∧ t.status = 1 ∧
      answer t = some { rc := .ok, count := 1 } := by decide

/-- R137: a failing flush leaves EFIN = 0 and raises SINK_IO. -/
theorem test_encFinish_err :
    let t := after .encFinish { fresh 0 [] with sinkAnswers := [.err 0] }
    t.status = 0x30 ∧ t.sinkMarks = [] := by decide

/-- R190: DENC_START 10 gives PREV = 10. -/
theorem test_dencStart : (after (.dencStart 10) (fresh 0 [])).enc.prev = 10 := by decide

/-- R191: with PREV = 10, DENC_VAL 11 appends 0100 and sets PREV = 11. -/
theorem test_dencVal :
    let t := after (.dencVal 11) (after (.dencStart 10) (fresh 0 []))
    t.enc.acc = 0x4000000000000000 ∧ t.enc.rem = 60 ∧ t.enc.prev = 11 := by decide

/-- R191: PREV = -2^31 and v = 2^31 - 1 give a difference out of domain, never wrapped. -/
theorem test_dencVal_range :
    let t := after (.dencVal 2147483647) (after (.dencStart 0x80000000) (fresh 0 []))
    t.status = 0x10 ∧ t.enc.prev = 0x80000000 ∧ t.enc.rem = 64 := by decide

/-- R166: DEC_INIT gives DSTATE = CZ, ZRUN = 0, BITS_LEFT = 0 and clears DFAULT. -/
theorem test_decInit :
    let s := fresh 0 []
    let t := after .decInit { s with
      dec := { s.dec with dstate := .rs, zrun := 3, bitsLeft := 5, dfault := some .srcIo } }
    t.dec.dstate = .cz ∧ t.dec.zrun = 0 ∧ t.dec.bitsLeft = 0 ∧ t.dec.dfault = none := by decide

/-- 95_test_vectors.md C1: A3 90 and `DEC 3`: the values 0, 1, -2, FULL, BITS_LEFT = 7. -/
theorem test_dec_full :
    let t := after (.dec 3) (fresh 0 (bytesThenEof [0xA3, 0x90]))
    answer t = some { rc := .ok, count := 3, dstat := false, values := [0, 1, -2] } ∧
      t.dec.bitsLeft = 7 ∧ t.dec.byte = 0x90 := by decide

/-- 95_test_vectors.md C8: 31 prefix zeros raise DEC_OVERLONG. -/
theorem test_dec_overlong :
    let t := after (.dec 1) (fresh 0 (bytesThenEof [0, 0, 0, 0, 0x80]))
    answer t = some { rc := .fault, fcode := 1 } ∧ t.dec.zrun = 30 ∧ t.dec.bitsLeft = 1 ∧
      t.status = 0x1000 := by decide

/-- R193: DDEC_START 10 gives BASE = 10 and DSTATE = CZ. -/
theorem test_ddecStart :
    let t := after (.ddecStart 10) (fresh 0 [])
    t.dec.base = 10 ∧ t.dec.dstate = .cz := by decide

/-- R194: BASE = 10 and the bytes A3 80: the values 10, 11, 9, EXHAUSTED, BASE = 9. -/
theorem test_ddec :
    let s := fresh 0 (bytesThenEof [0xA3, 0x80])
    let t := after (.ddec 8) { s with dec := { s.dec with base := 10 } }
    t.dec.base = 9 ∧ answer t =
      some { rc := .ok, count := 3, dstat := true, values := [10, 11, 9] } := by decide

/-- R194: BASE = 2^31 - 1 and a residual 1: SUM_OVF, BASE unchanged, nothing emitted. -/
theorem test_ddec_overflow :
    let s := fresh 0 (bytesThenEof [0x40])
    let t := after (.ddec 8) { s with dec := { s.dec with base := 0x7FFFFFFF } }
    t.dec.base = 0x7FFFFFFF ∧ answer t = some { rc := .fault, fcode := 3 } ∧ t.dec.zrun = 0 := by
  decide

/-- R212: after reset STATUS is 0. -/
theorem test_statusRead :
    answer (after .statusRead (fresh 0 [])) = some { rc := .ok, word := 0 } := by decide

/-- R210: 0B00000000000000H gives ILLEGAL and STATUS.ILL = 1. -/
theorem test_illegal :
    (match step (withWord 0x0B00000000000000) with
      | .next t => decide (answer t = some { rc := .illegal } ∧ t.status = 0x10000 ∧ t.cpc = 1)
      | .fault _ => false
      | .refused _ => false) = true := by decide

/-- R162: the single bit `1` emits 0. -/
theorem test_cwZero : (after .cwZero (fresh 0 [])).out = [0] := by decide

/-- R168: class 1, MBITS = 1, SIGN = 1 emits -2, and ends in CZ with ZRUN = 0. -/
theorem test_cwNonzero :
    let t := after (.cwNonzero 1 1 true) (fresh 0 [])
    t.out = [-2] ∧ t.dec.dstate = .cz ∧ t.dec.zrun = 0 := by decide

/-- A codeword row placed by `withFetchWord` is what the next step decodes: `01` and zeros is 1. -/
theorem test_withFetchWord_codeword :
    (match step (State.reset.withFetchWord 8 2) with
      | .next t => decide (answer t = some { rc := .ok, count := 1, values := [1] })
      | .fault _ => false
      | .refused _ => false) = true := by decide

/-- A command row placed by `withFetchWord` is what the next step runs. -/
theorem test_withFetchWord_command :
    (match step (State.reset.withFetchWord 64 0x060000000000000A) with
      | .next t => decide (t.enc.prev = 10 ∧ t.cpc = 1)
      | .fault _ => false
      | .refused _ => false) = true := by decide

/-- R227: a command that the source does not answer holds, with no response. -/
theorem test_hold :
    let t := after (.dec 1) (fresh 0 [])
    t.held = some (.read 1 false) ∧ t.cpc = 0 ∧ t.trace = [] := by decide

/-- R227: a sink that falls silent at the second word: the rest of `0^6 1 000000 0` still to append. -/
theorem test_hold_word :
    let t := after (.encOne 63) { narrow 0 [] with sinkAnswers := [] }
    t.held = some (.word [false, false, false, false, false, false] 14 none) ∧ t.enc.rem = 0 ∧
      t.trace = [] := by decide

/-- R98, R227: a loop form whose source answers late goes on after the hold: A3 80 are 10, 11, 9. -/
theorem test_deltaDecode_late :
    (match deltaDecode 10 2 4 [⟨[], [.byte 0xA3]⟩, ⟨[], [.byte 0x80, .eof]⟩] (fresh 0 []) with
      | .next (t, left) => decide (resultValues (fresh 0 []) t = [10, 11, 9] ∧ left = [] ∧
          t.held = none)
      | .fault _ => false
      | .refused _ => false) = true := by decide

/-- R10 (4), R45: from EFAULT = 1, the order of ENC_INIT and DEC_INIT shows in the values of STATUS. -/
theorem test_statusValues :
    (match runCommands [.encOne 0x7FFFFFFF, .encInit, .decInit] [] (fresh 0 []),
        runCommands [.encOne 0x7FFFFFFF, .decInit, .encInit] [] (fresh 0 []) with
      | .next (t, _), .next (u, _) =>
        decide (t.observe.status = [0, 0x10, 0, 0] ∧ u.observe.status = [0, 0x10, 0x10, 0])
      | _, _ => false) = true := by decide

/-- R250: the reset input clears ILL and the pending bits, with no sink event. -/
theorem test_reset :
    (match step (assertReset { after (.encOne 1) (fresh 0 []) with ill := true }) with
      | .next t => decide (t.enc.rem = 64 ∧ t.status = 0 ∧ t.sinkMarks = [] ∧ t.cpc = 0)
      | .fault _ => false
      | .refused _ => false) = true := by decide

/-! ### Witnesses of the obligations' hypotheses -/

/-- The encoder takes values in a fresh state. -/
theorem encoderOpen_fresh (k : Nat) (source : List SrcAnswer) : (fresh k source).EncoderOpen :=
  ⟨rfl, rfl, rfl⟩

theorem encoderOpen_narrow (k : Nat) (source : List SrcAnswer) : (narrow k source).EncoderOpen :=
  ⟨rfl, rfl, rfl⟩

theorem decoderOpen_fresh (k : Nat) (source : List SrcAnswer) : (fresh k source).DecoderOpen :=
  ⟨rfl, rfl⟩

theorem accReady_narrow (k : Nat) (source : List SrcAnswer) : (narrow k source).AccReady :=
  { rem_le := show 8 ≤ 8 by decide
    unused_zero := show ∀ i, i < 8 → (0#(8 * 1)).getLsbD i = false by decide
    rem_pos := show 1 ≤ 8 by decide }

theorem sinkAccepts_fresh (k j : Nat) (source : List SrcAnswer) (h : j ≤ k) :
    (fresh k source).SinkAccepts j :=
  ⟨by simpa [fresh] using h, fun _ ha => List.eq_of_mem_replicate (List.mem_of_mem_take ha)⟩

theorem sinkAccepts_narrow (k j : Nat) (source : List SrcAnswer) (h : j ≤ k) :
    (narrow k source).SinkAccepts j :=
  ⟨by simpa [narrow] using h, fun _ ha => List.eq_of_mem_replicate (List.mem_of_mem_take ha)⟩

theorem parseInv_reset : State.reset.dec.ParseInv :=
  { bitsLeft_le := by decide
    zrun_le := by decide
    srem_lt := by decide
    in_sb := by decide
    in_rs := by decide }

theorem inv_reset : State.reset.Inv :=
  { width := show 1 ≤ 8 by decide
    acc :=
      { rem_le := by decide
        unused_zero := show ∀ i, i < 64 → (0#64).getLsbD i = false by decide }
    parse := parseInv_reset
    heldPoint := show 1 ≤ 64 by decide
    cpc_le := by decide }

theorem witness_DecodeOfEncode : (Instr.cwNonzero 1 1 true).wellFormed = true := by decide

theorem witness_EncodeOfDecodedWord :
    decodeCommand 0x0500000000000000 = .ok (.dec 0) := by decide

theorem witness_StreamParserStopsAtCodewordEnd :
    (Instr.cwNonzero 30 0 false).wellFormed = true := by decide

/-- A legal word; and illegal ones by (a) at both ends of the map, (b), and (c). -/
theorem witness_IllegalCommandWords :
    ¬ IllegalWord 0x0A00000000000000 ∧ IllegalWord 0x0000000000000000 ∧
      IllegalWord 0x0B00000000000000 ∧ IllegalWord 0xFF00000000000000 ∧
      IllegalWord 0x0200000100000000 ∧ IllegalWord 0x0100000000000001 ∧
      (withWord 0x0B00000000000000).resetIn = false ∧ (withWord 0x0B00000000000000).held = none ∧
      fetch (withWord 0x0B00000000000000) = some 0x0B00000000000000 := by
  unfold IllegalWord
  decide

theorem witness_StepRunsDecodedCommand :
    (withWord 0x0100000000000000).program[(withWord 0x0100000000000000).cpc]? =
        some 0x0100000000000000 ∧
      (withWord 0x0100000000000000).resetIn = false ∧
      (withWord 0x0100000000000000).held = none ∧
      decodeCommand 0x0100000000000000 = .ok .encInit := by decide

theorem witness_IdleKeepsState :
    State.reset.resetIn = false ∧ State.reset.held = none ∧
      State.reset.program.length ≤ State.reset.cpc := by decide

theorem witness_CommandEndsWithOneResponse :
    (Instr.dec 4).isCommand = true ∧ (fresh 0 []).held = none := by decide

theorem witness_OverlappingCommandRefused :
    Instr.statusRead.isCommand = true ∧ (after (.dec 1) (fresh 0 [])).held = some (.read 1 false) := by
  decide

/-- A state of W = 64 in which a command holds at `h`, with silent collaborators. -/
def heldAt (h : Held) (rem : Nat) : State :=
  { State.reset with
    enc := { acc := 0, rem := rem, prev := 0, efin := false, efault := none }
    held := some h
    program := [0x0300000000000000] }

theorem inv_heldAt (h : Held) (rem : Nat) (hr : rem ≤ 64) (hp : (heldAt h rem).HeldInv) :
    (heldAt h rem).Inv :=
  { width := show 1 ≤ 8 by decide
    acc := ⟨hr, fun _ _ => BitVec.getLsbD_zero⟩
    parse := parseInv_reset
    heldPoint := hp
    cpc_le := by simp [heldAt, State.reset] }

/-- Its first two clauses: an idle decoder, and pending bits at a silent sink. -/
theorem witness_SilentCollaboratorHoldsCommand :
    ((fresh 0 []).DecoderOpen ∧ (fresh 0 []).dec.bitsLeft = 0 ∧ (fresh 0 []).srcAnswers = [] ∧
      (1 : Word32) ≠ 0) ∧
    ((after (.encOne 1) (fresh 0 [])).EncoderOpen ∧ 0 < finishBytes (after (.encOne 1) (fresh 0 [])) ∧
      (after (.encOne 1) (fresh 0 [])).sinkAnswers = []) :=
  ⟨⟨decoderOpen_fresh 0 [], by decide, by decide, by decide⟩,
    ⟨⟨by decide, by decide, by decide⟩, by decide, by decide⟩⟩

/-- Its third clause, at each point where a command can hold. -/
theorem witness_SilentCollaboratorHoldsCommand_held :
    (heldAt (.read 1 false) 64).Inv ∧ (heldAt (.word [true] 62 none) 0).Inv ∧
      (heldAt .tail 60).Inv ∧ (heldAt (.flush 0) 64).Inv :=
  ⟨inv_heldAt _ _ (by decide) ⟨by decide, by decide, by decide, by decide, by decide⟩,
    inv_heldAt _ _ (by decide) ⟨by decide, by decide, by decide, by decide⟩,
    inv_heldAt _ _ (by decide) ⟨by decide, by decide, by decide, by decide, by decide⟩,
    inv_heldAt _ _ (by decide) ⟨by decide, by decide, by decide, by decide⟩⟩

/-- The first word silent, and the last of seven; then ENC_FINISH with no bit and with four pending. -/
theorem witness_SilentSinkHoldsEncoder :
    let v : Word32 := 0x7FFFFFFE
    let u := { after (.encOne 1) (fresh 0 []) with sinkAnswers := [.ok] }
    (1 ≤ (narrow 6 []).wordBytes ∧ (narrow 6 []).EncoderOpen ∧ (narrow 6 []).AccReady ∧
      v.toInt = (if false then v.toInt - (narrow 6 []).enc.prev.toInt else v.toInt) ∧
      inDomain v.toInt = true ∧
      (narrow 0 []).enc.rem + 0 * (narrow 0 []).width ≤ (cw v.toInt).length ∧
      (narrow 6 []).enc.rem + 6 * (narrow 6 []).width ≤ (cw v.toInt).length ∧
      (narrow 6 []).sinkAnswers = List.replicate 6 .ok) ∧
    ((fresh 0 []).EncoderOpen ∧ (fresh 0 []).pendingCount = 0 ∧ (fresh 0 []).sinkAnswers = []) ∧
    u.EncoderOpen ∧ 0 < (u.pendingCount + 7) / 8 ∧ u.sinkAnswers = [.ok] :=
  ⟨⟨by decide, encoderOpen_narrow 6 [], accReady_narrow 6 [], by decide, by decide, by decide,
      by decide, rfl⟩,
    ⟨encoderOpen_fresh 0 [], by decide, by decide⟩,
    ⟨by decide, by decide, by decide⟩, by decide, by decide⟩

/-- A3 is `1010 0011`: 0, 1, and the first bits of a codeword. -/
theorem witness_DecodeHoldsAfterReadyBits :
    let s := fresh 0 [.byte 0xA3]
    s.DecoderOpen ∧ s.srcAnswers = [0xA3].map SrcAnswer.byte ∧
      (∃ d, parseAll (s.dec.bufferedBits ++ bitsOfBytes [0xA3]) s.dec = some ([0, 1], d)) ∧
      [0, 1].length < (3 : Word32).toNat ∧ SumsFit true s.dec.base [0, 1] :=
  ⟨decoderOpen_fresh 0 _, by decide, ⟨_, rfl⟩, by decide, fun _ => (by decide)⟩

theorem witness_HoldIsTransparent :
    (fresh 0 []).held = none ∧ (fresh 0 []).resetIn = false ∧
      exec .encFinish (fresh 0 []) = .next (after .encFinish (fresh 0 [])) ∧
      (after .encFinish (fresh 0 [])).held ≠ none := by
  refine ⟨by decide, by decide, rfl, by decide⟩

theorem witness_StepKeepsHistory : step State.reset = .next State.reset := rfl

theorem witness_ResetMeetsInvariant : 1 ≤ State.reset.wordBytes := by decide

theorem witness_StepKeepsInvariant : State.reset.Inv ∧ step State.reset = .next State.reset :=
  ⟨inv_reset, rfl⟩

/-- Two states that differ in dead registers only. -/
theorem witness_UnspecifiedRegistersAreUnobservable :
    let t : State := { State.reset with
      dec := { State.reset.dec with byte := 0xFF, mag := 5, srem := 7 }, freeCount := 3 }
    State.reset.live = t.live ∧ State.reset ≠ t := by decide

theorem witness_ResetInputLeavesResetState : (assertReset State.reset).resetIn = true := by decide

/-- For EncInitStartsStream, DencStartStartsStream, DecInitStartsStream, DdecStartStartsStream and
StatusReadReturnsStatus; and one reserved bit of STATUS of each range. -/
theorem witness_starts :
    (fresh 0 []).held = none ∧
      ((1 ≤ 1 ∧ 1 ≤ 3) ∧ (9 ≤ 11 ∧ 11 ≤ 11) ∧ (17 ≤ 17 ∧ 17 ≤ 31)) ∧
      exec .statusRead (fresh 0 []) = .next (after .statusRead (fresh 0 [])) := by
  refine ⟨by decide, by decide, rfl⟩

theorem witness_CodewordIntermediateValues :
    (2147483646 : Int) ≠ 0 ∧ inDomain 2147483646 = true ∧ (-1 : Int) ≠ 0 ∧ inDomain (-1) = true := by
  decide

theorem witness_CodewordLength :
    (-2147483646 : Int) ≠ 0 ∧ inDomain (-2147483646) = true ∧ inDomain 0 = true := by decide

theorem witness_CodewordsArePrefixFree : inDomain 3 = true ∧ cw 3 <+: cw 3 := by decide

theorem witness_MagnitudeClassRanges :
    1 ≤ magnitudeClass 6 ∧ magnitudeClass 6 = 2 ∧ magnitudeClass 7 = 3 ∧ magnitudeClass 0 = 0 := by
  decide

/-- A state of W = 8 with one bit free, and one with more. -/
theorem witness_AppendBitPlacesAndFlushes :
    1 ≤ (narrow 1 []).wordBytes ∧ (narrow 1 []).AccReady ∧ (narrow 1 []).enc.rem ≠ 1 ∧
      ({ narrow 1 [] with
        enc := { acc := 0, rem := 1, prev := 0, efin := false, efault := none } } : State).AccReady :=
  ⟨by decide, accReady_narrow 1 [], by decide,
    { rem_le := by decide
      unused_zero := show ∀ i, i < 1 → (0#(8 * 1)).getLsbD i = false by decide
      rem_pos := by decide }⟩

/-- A codeword of 62 bits on an 8-bit word, whose sink accepts the seven words. -/
theorem witness_EncOneAppendsCodeword :
    1 ≤ (narrow 7 []).wordBytes ∧ (narrow 7 []).EncoderOpen ∧ (narrow 7 []).AccReady ∧
      inDomain (0x7FFFFFFE : Word32).toInt = true ∧
      (narrow 7 []).SinkAccepts
        ((narrow 7 []).wordsFilled (cw (0x7FFFFFFE : Word32).toInt).length) :=
  ⟨by decide, encoderOpen_narrow 7 [], accReady_narrow 7 [], by decide,
    sinkAccepts_narrow 7 _ [] (by decide)⟩

theorem witness_DencValAppendsDifference :
    1 ≤ (narrow 7 []).wordBytes ∧ (narrow 7 []).EncoderOpen ∧ (narrow 7 []).AccReady ∧
      inDomain ((0x7FFFFFFE : Word32).toInt - (narrow 7 []).enc.prev.toInt) = true ∧
      (narrow 7 []).SinkAccepts ((narrow 7 []).wordsFilled
        (cw ((0x7FFFFFFE : Word32).toInt - (narrow 7 []).enc.prev.toInt)).length) :=
  ⟨by decide, encoderOpen_narrow 7 [], accReady_narrow 7 [], by decide,
    sinkAccepts_narrow 7 _ [] (by decide)⟩

theorem witness_OutOfDomainRaisesEncRange :
    (fresh 0 []).EncoderOpen ∧ inDomain (0x7FFFFFFF : Word32).toInt = false ∧
      inDomain ((0x80000000 : Word32).toInt - (fresh 0 []).enc.prev.toInt) = false :=
  ⟨encoderOpen_fresh 0 [], by decide, by decide⟩

theorem witness_FinishedStreamRaisesAfterFin :
    let s := after .encFinish (fresh 1 [])
    s.held = none ∧ s.enc.efault = none ∧ s.enc.efin = true := by decide

/-- A faulted encoder; a faulted decoder; and a decoder that is not. -/
theorem witness_FaultedUnitRefusesCommands :
    ((after (.encOne 0x7FFFFFFF) (fresh 0 [])).held = none ∧
      (after (.encOne 0x7FFFFFFF) (fresh 0 [])).enc.efault = some .range) ∧
    ((after (.dec 1) (fresh 0 [.err])).held = none ∧
      (after (.dec 1) (fresh 0 [.err])).dec.dfault = some .srcIo) ∧
    (fresh 0 []).dec.dfault = none := by decide

/-- With no bit pending, and with three. -/
theorem witness_EncFinishWritesPaddedTail :
    (1 ≤ (narrow 2 []).wordBytes ∧ (narrow 2 []).EncoderOpen ∧ (narrow 2 []).AccReady ∧
      (narrow 2 []).pendingCount = 0 ∧ (narrow 2 []).SinkAccepts 1) ∧
    (({ narrow 2 [] with
        enc := { acc := 0xA0, rem := 5, prev := 0, efin := false, efault := none } } : State).AccReady ∧
      (narrow 2 []).SinkAccepts 2) :=
  ⟨⟨by decide, encoderOpen_narrow 2 [], accReady_narrow 2 [], by decide,
      sinkAccepts_narrow 2 1 [] (by decide)⟩,
    { rem_le := by decide
      unused_zero := show ∀ i, i < 5 → (0xA0#(8 * 1)).getLsbD i = false by decide
      rem_pos := by decide },
    sinkAccepts_narrow 2 2 [] (by decide)⟩

/-- A failing write of pending bits. -/
theorem witness_EncFinishSinkFailure_write :
    let s := { after (.encOne 1) (fresh 0 []) with sinkAnswers := [.err 0] }
    s.EncoderOpen ∧ 0 < (s.pendingCount + 7) / 8 ∧ s.sinkAnswers = .err 0 :: [] :=
  ⟨⟨by decide, by decide, by decide⟩, by decide, by decide⟩

/-- A failing flush after a write. -/
theorem witness_EncFinishSinkFailure_flush :
    let s := { after (.encOne 1) (fresh 0 []) with sinkAnswers := [.ok, .err 0] }
    s.EncoderOpen ∧ s.sinkAnswers =
      (if (s.pendingCount + 7) / 8 = 0 then [] else [.ok]) ++ .err 0 :: [] :=
  ⟨⟨by decide, by decide, by decide⟩, by decide⟩

/-- A failing flush of no bits. -/
theorem witness_EncFinishSinkFailure_empty :
    let s := { fresh 0 [] with sinkAnswers := [.err 0] }
    s.EncoderOpen ∧ s.sinkAnswers =
      (if (s.pendingCount + 7) / 8 = 0 then [] else [.ok]) ++ .err 0 :: [] :=
  ⟨⟨by decide, by decide, by decide⟩, by decide⟩

/-- As `narrow`, with a sink that accepts `k` operations and then fails. -/
def failing (k : Nat) : State :=
  { narrow 0 [] with sinkAnswers := List.replicate k .ok ++ .err 1 :: [] }

theorem accReady_failing (k : Nat) : (failing k).AccReady :=
  { rem_le := (accReady_narrow 0 []).rem_le
    unused_zero := (accReady_narrow 0 []).unused_zero
    rem_pos := (accReady_narrow 0 []).rem_pos }

/-- A codeword of 62 bits on an 8-bit word: the write of the first word fails, and that of the last one
it fills, after six. -/
theorem witness_WordWriteFailureRaisesSinkIo :
    let v : Word32 := 0x7FFFFFFE
    ∀ k ∈ [0, 6], 1 ≤ (failing k).wordBytes ∧ (failing k).EncoderOpen ∧ (failing k).AccReady ∧
      v.toInt = (if true then v.toInt - (failing k).enc.prev.toInt else v.toInt) ∧
      inDomain v.toInt = true ∧
      (failing k).enc.rem + k * (failing k).width ≤ (cw v.toInt).length ∧
      (failing k).sinkAnswers = List.replicate k .ok ++ .err 1 :: [] := by
  intro v k hk
  refine ⟨show 1 ≤ 1 by decide, ⟨rfl, rfl, rfl⟩, accReady_failing k, rfl, by decide, ?_, rfl⟩
  revert k
  decide

/-- For FinishedStreamIsCodewords and, with the state of W = 64 beside it, for
FinishedStreamIndependentOfWidth: a raw value and a difference. -/
theorem witness_FinishedStreamIsCodewords :
    1 ≤ (narrow 126 []).wordBytes ∧ (narrow 126 []).held = none ∧
      (∀ d ∈ encodedValues ((some 3 : Option Word32).getD 0) [(false, 5), (true, 1)],
        inDomain d = true) ∧
      (narrow 126 []).SinkAccepts (62 * 2 + 2) :=
  ⟨by decide, by decide, by decide, sinkAccepts_narrow 126 _ [] (by decide)⟩

theorem witness_FinishedStreamIndependentOfWidth :
    1 ≤ (fresh 64 []).wordBytes ∧ (fresh 64 []).held = none ∧
      (fresh 64 []).SinkAccepts (62 * 1 + 2) ∧ (narrow 64 []).SinkAccepts (62 * 1 + 2) ∧
      (∃ t, runCommands (streamCommands none [(false, 5)]) [] (fresh 64 []) = .next (t, [])) ∧
      ∃ t, runCommands (streamCommands none [(false, 5)]) [] (narrow 64 []) = .next (t, []) :=
  ⟨by decide, by decide, sinkAccepts_fresh 64 _ [] (by decide),
    sinkAccepts_narrow 64 _ [] (by decide), ⟨_, rfl⟩, ⟨_, rfl⟩⟩

theorem witness_DeltaEncodeWritesDifferences :
    1 ≤ (narrow 126 []).wordBytes ∧ (narrow 126 []).held = none ∧
      (∀ d ∈ differences (10 : Word32).toInt (([11, 9] : List Word32).map BitVec.toInt),
        inDomain d = true) ∧
      (narrow 126 []).SinkAccepts (62 * 2 + 2) :=
  ⟨by decide, by decide, by decide, sinkAccepts_narrow 126 _ [] (by decide)⟩

/-- The decoder right after a start, in each parse state. -/
theorem witness_ParseMachineRules :
    State.reset.dec.dstate = .cz ∧ State.reset.dec.zrun = 0 ∧
      ({ State.reset.dec with dstate := .sb, zrun := 2, srem := 2, mag := 1 } : DecUnit).ParseInv ∧
      ({ State.reset.dec with dstate := .sb, zrun := 2, srem := 1, mag := 2 } : DecUnit).ParseInv ∧
      ({ State.reset.dec with dstate := .rs, zrun := 30, mag := 0x7FFFFFFF } : DecUnit).ParseInv :=
  ⟨by decide, by decide,
    { bitsLeft_le := by decide, zrun_le := by decide, srem_lt := by decide, in_sb := by decide,
      in_rs := by decide },
    { bitsLeft_le := by decide, zrun_le := by decide, srem_lt := by decide, in_sb := by decide,
      in_rs := by decide },
    { bitsLeft_le := by decide, zrun_le := by decide, srem_lt := by decide, in_sb := by decide,
      in_rs := by decide }⟩

theorem witness_CodewordEmitsItsValueOnLastBit :
    inDomain 2147483646 = true ∧ (2147483646 : Int) ≠ 0 ∧ inDomain 0 = true ∧
      State.reset.dec.dstate = .cz ∧ State.reset.dec.zrun = 0 ∧ 0 < (cw 0).length := by decide

theorem witness_CodewordInstructionEmitsValue :
    (fresh 0 []).dec.dfault = none ∧ (fresh 0 []).dec.dstate = .cz ∧ (fresh 0 []).dec.zrun = 0 ∧
      (Instr.cwNonzero 30 1073741823 true).wellFormed = true := by decide

/-- A3 is `1010 0011`: 0, 1, and the first bits of a codeword. -/
theorem witness_DecReadsUntilExhausted :
    (fresh 0 (bytesThenEof [0xA3])).DecoderOpen ∧
      (fresh 0 (bytesThenEof [0xA3])).srcAnswers = [0xA3].map SrcAnswer.byte ++ .eof :: [] ∧
      (∃ d, parseAll ((fresh 0 []).dec.bufferedBits ++ bitsOfBytes [0xA3]) (fresh 0 []).dec =
        some ([0, 1], d)) ∧
      [0, 1].length < (3 : Word32).toNat ∧
      ∀ y ∈ runningSums (fresh 0 []).dec.base.toInt [0, 1], -(2 ^ 31) ≤ y ∧ y ≤ 2 ^ 31 - 1 :=
  ⟨decoderOpen_fresh 0 _, by decide, ⟨_, rfl⟩, by decide, by decide⟩

/-- `DEC 2` over A3: five bits used, three left. -/
theorem witness_DecodeStopsWhenFull :
    let s := fresh 0 [.byte 0xA3]
    s.DecoderOpen ∧ s.srcAnswers = [0xA3].map SrcAnswer.byte ++ [] ∧
      5 + 3 = s.dec.bitsLeft + 8 * [(0xA3 : Byte)].length ∧ ([(0xA3 : Byte)] ≠ [] → 3 < 8) ∧
      (∃ d, parseAll ((s.dec.bufferedBits ++ bitsOfBytes [0xA3]).take 5) s.dec =
        some ([0, 1], d)) ∧
      [0, 1].length = (2 : Word32).toNat ∧
      (∀ j < 5, (match parseAll ((s.dec.bufferedBits ++ bitsOfBytes [0xA3]).take j) s.dec with
        | some (ys, _) => decide (ys.length < (2 : Word32).toNat)
        | none => true) = true) ∧
      SumsFit false s.dec.base [0, 1] ∧ SumsFit true s.dec.base [0, 1] :=
  ⟨decoderOpen_fresh 0 _, by decide, by decide, by decide, ⟨_, rfl⟩, by decide, by decide,
    fun h => (by cases h), fun _ => (by decide)⟩

theorem witness_SourceFailureRaisesSrcIo :
    let s := fresh 0 [.byte 0xA3, .err]
    s.DecoderOpen ∧ s.srcAnswers = [0xA3].map SrcAnswer.byte ++ .err :: [] ∧
      (∃ d, parseAll (s.dec.bufferedBits ++ bitsOfBytes [0xA3]) s.dec = some ([0, 1], d)) ∧
      [0, 1].length < (3 : Word32).toNat ∧ SumsFit true s.dec.base [0, 1] :=
  ⟨decoderOpen_fresh 0 _, by decide, ⟨_, rfl⟩, by decide, fun _ => (by decide)⟩

/-- Four zero bytes: 30 bits, the faulting one, and one more. -/
theorem witness_OverlongPrefixRaisesFault :
    let s := fresh 0 ([0, 0, 0, 0].map SrcAnswer.byte)
    s.DecoderOpen ∧ s.srcAnswers = [0, 0, 0, 0].map SrcAnswer.byte ++ [] ∧
      30 + 1 + 1 = s.dec.bitsLeft + 8 * [(0 : Byte), 0, 0, 0].length ∧
      (∃ d, parseAll ((s.dec.bufferedBits ++ bitsOfBytes [0, 0, 0, 0]).take 30) s.dec =
        some ([], d) ∧ d.dstate = .cz ∧ d.zrun = 30) ∧
      (s.dec.bufferedBits ++ bitsOfBytes [0, 0, 0, 0])[30]? = some false ∧
      ([] : List Int).length < (1 : Word32).toNat ∧ SumsFit true s.dec.base [] :=
  ⟨decoderOpen_fresh 0 _, by decide, by decide, ⟨_, rfl, by decide, by decide⟩, by decide,
    by decide, fun _ => (by decide)⟩

/-- BASE = 2^31 - 1, the residuals 0 and 1 (A3 is `1`, `0100`, `011`): the second leaves s32. -/
theorem witness_SumOverflowRaisesFault :
    let s := { fresh 0 [.byte 0xA3] with
      dec := { State.reset.dec with base := 0x7FFFFFFF } }
    s.DecoderOpen ∧ s.srcAnswers = [0xA3].map SrcAnswer.byte ++ [] ∧
      4 + 1 + 3 = s.dec.bitsLeft + 8 * [(0xA3 : Byte)].length ∧
      (∃ e, parseAll ((s.dec.bufferedBits ++ bitsOfBytes [0xA3]).take 4) s.dec = some ([0], e)) ∧
      (∃ d, parseAll ((s.dec.bufferedBits ++ bitsOfBytes [0xA3]).take (4 + 1)) s.dec =
        some ([0] ++ [1], d)) ∧
      [0].length < (2 : Word32).toNat ∧ SumsFit true s.dec.base [0] ∧
      2 ^ 31 - 1 < (baseAfter true s.dec.base [0]).toInt + 1 :=
  ⟨⟨by decide, by decide⟩, by decide, by decide, ⟨_, rfl⟩, ⟨_, rfl⟩, by decide,
    fun _ => (by decide), by decide⟩

/-- The stream of 0, 1, -1 is `1 0100 0101` and padding: A2 80. -/
theorem witness_StreamRoundTrip :
    let s := fresh 0 (bytesThenEof [0xA2, 0x80])
    s.held = none ∧ (∀ v ∈ ([0, 1, -1] : List Int), inDomain v = true) ∧
      bitsOfBytes [0xA2, 0x80] =
        codewordStream [0, 1, -1] ++ padding (codewordStream [0, 1, -1]).length ∧
      s.srcAnswers = [0xA2, 0x80].map SrcAnswer.byte ++ .eof :: [] ∧
      (∀ n ∈ ([1, 2, 1] : List Word32), n ≠ 0) ∧
      (([1, 2, 1] : List Word32).dropLast.map BitVec.toNat).sum ≤ 3 ∧
      3 < (([1, 2, 1] : List Word32).map BitVec.toNat).sum :=
  ⟨by decide, by decide, rfl, by decide, by simp, by decide, by decide⟩

/-- 95_test_vectors.md: DELTA_ENCODE 10 of 10, 11, 9 is A3 80. -/
theorem witness_DeltaRoundTrip :
    let e := fresh 188 []
    let s := fresh 0 (bytesThenEof [0xA3, 0x80])
    1 ≤ e.wordBytes ∧ e.held = none ∧
      (∀ d ∈ differences (10 : Word32).toInt (([10, 11, 9] : List Word32).map BitVec.toInt),
        inDomain d = true) ∧
      e.SinkAccepts (62 * 3 + 2) ∧
      (∃ e', runCommands (deltaEncode 10 [10, 11, 9]) [] e = .next (e', []) ∧
        resultBytes e e' = [0xA3, 0x80]) ∧
      s.held = none ∧ s.srcAnswers = [0xA3, 0x80].map SrcAnswer.byte ++ .eof :: [] ∧
      (1 : Word32) ≠ 0 ∧ [10, 11, 9].length < 4 :=
  ⟨by decide, by decide, by decide, sinkAccepts_fresh 188 _ [] (by decide), ⟨_, rfl, by decide⟩,
    by decide, by decide, by decide, by decide⟩

/-- A codeword of -1 split over two bytes, with an `eof` between them. -/
theorem witness_DecodeIsResumable :
    let s := fresh 0 [.byte 0xA2, .eof, .byte 0x80, .eof]
    s.DecoderOpen ∧
      s.srcAnswers =
        [0xA2].map SrcAnswer.byte ++ .eof :: ([0x80].map SrcAnswer.byte ++ .eof :: []) ∧
      (∃ d, parseAll (s.dec.bufferedBits ++ bitsOfBytes ([0xA2] ++ [0x80])) s.dec =
        some ([0, 1, -1], d)) ∧
      [0, 1, -1].length < (4 : Word32).toNat :=
  ⟨decoderOpen_fresh 0 _, by decide, ⟨_, rfl⟩, by decide⟩

theorem witness_UnitsAreIndependent :
    IsEncoderCommand .encFinish ∧ IsDecoderCommand (.dec 1) ∧ (fresh 0 []).held = none :=
  ⟨trivial, trivial, by decide⟩

/-- A state with pending bits and buffered ones, and one with the reset input asserted. -/
theorem witness_ResetStateIsStartState :
    let s := after (.dec 1) (after (.encOne 1) (fresh 0 [.byte 0xA3]))
    s.held = none ∧ s.enc.rem = 60 ∧ s.dec.bitsLeft = 7 ∧ (assertReset s).resetIn = true := by
  decide

theorem witness_RawCommandsLeaveDeltaRegisters :
    (fresh 0 []).held = none ∧ (∃ v, Instr.encOne 1 = .encOne v) := ⟨by decide, ⟨1, rfl⟩⟩

theorem witness_DecodeOfNothingIsFull : (fresh 0 []).DecoderOpen := decoderOpen_fresh 0 []

theorem witness_CodewordFieldForm : (-1 : Int) ≠ 0 ∧ (2147483646 : Int) ≠ 0 := by decide

theorem witness_ParseInvertsCodeword : inDomain 0 = true ∧ inDomain (-2147483646) = true := by decide

end Sys2Proof.Tests
end

section
/-!
PROOF. What a step does, said once, and the step of a decoded command (R210, R211).
-/

namespace Sys2Proof.Machine

/-- Only commands stand in the opcode map (R92). -/
theorem opcodeForm_isCommand {op : BitVec 8} {form : OpcodeForm} (h : opcodeForm op = some form) :
    match form with
    | .plain i => i.isCommand = true
    | .operand mk => ∀ imm, (mk imm).isCommand = true := by
  unfold opcodeForm at h
  split at h <;> cases h <;> simp [Instr.isCommand]

/-- A command word never decodes to a codeword of the stream (R92, R93). -/
theorem decodeCommand_isCommand {w : CmdWord} {i : Instr} (h : decodeCommand w = .ok i) :
    i.isCommand = true := by
  unfold decodeCommand at h
  split at h
  · cases h
  · rename_i form hform
    have hc := opcodeForm_isCommand hform
    split at h
    · cases h
    · cases form with
      | plain j =>
        simp only at h hc
        split at h
        · cases h
        · cases h; exact hc
      | operand mk => cases h; exact hc _

/-- The step of a decoded command is its `exec` and then the record of STATUS (R210, R211). -/
theorem step_of_decoded {s : State} {w : CmdWord} {i : Instr} (hr : s.resetIn = false)
    (hh : s.held = none) (hf : fetch s = some w) (hd : decodeCommand w = .ok i) :
    step s = logOutcome (exec i s) := by
  simp [step, hr, hh, hf, hd]

/-- Everything a step can do: reset, go on with a held command, idle at the end of the program, run
the command at `cpc`, or answer an illegal word (R210, R211, R227, R237, R250). -/
theorem step_cases {s t : State} (h : step s = .next t) :
    (s.resetIn = true ∧ t = logStatus (applyReset s)) ∨
      (∃ p, s.held = some p ∧ t = logStatus (resume p s)) ∨
      (s.held = none ∧ fetch s = none ∧ t = s) ∨
      (∃ w i u, s.held = none ∧ fetch s = some w ∧ decodeCommand w = .ok i ∧
        exec i s = .next u ∧ t = logStatus u) ∨
      ∃ w e, s.held = none ∧ fetch s = some w ∧ decodeCommand w = .error e ∧
        t = logStatus (illegalCommand s) := by
  unfold step at h
  split at h
  · rename_i hr; cases h; exact .inl ⟨hr, rfl⟩
  · split at h
    · rename_i p hp; cases h; exact .inr (.inl ⟨p, hp, rfl⟩)
    · rename_i hh
      split at h
      · rename_i hf; cases h; exact .inr (.inr (.inl ⟨hh, hf, rfl⟩))
      · rename_i w hf
        split at h
        · rename_i i hd
          rcases hu : exec i s with u | f | r <;> rw [hu] at h <;> cases h
          exact .inr (.inr (.inr (.inl ⟨w, i, u, hh, hf, hd, hu, rfl⟩)))
        · rename_i e hd; cases h
          exact .inr (.inr (.inr (.inr ⟨w, e, hh, hf, hd, rfl⟩)))

/-- Settles O7: the step hands the decoded command to `exec`, and around it only records STATUS. -/
theorem stepRunsDecodedCommand : Obligations.StepRunsDecodedCommand := by
  unfold Obligations.StepRunsDecodedCommand
  intro s w i hr hh hf hd
  rw [step_of_decoded hr hh hf hd]
  cases exec i s <;> rfl

end Sys2Proof.Machine
end

section
/-!
PROOF. The machine's invariant: what each operation of a command in progress keeps of it, and from that
the invariant of every step (R21, R22, R32, R34).
-/

namespace Sys2Proof.Machine

/-! ### The invariant of the parse machine (R32) -/

theorem parseInv_start (k : Nat) (base : Word32) : (DecUnit.start k base).ParseInv :=
  ⟨by simp [DecUnit.start], by simp [DecUnit.start],
    by have := (Config.freeSrem k).isLt; simpa [DecUnit.start] using this,
    by simp [DecUnit.start], by simp [DecUnit.start]⟩

/-- The parse invariant speaks of the parse registers and of BITS_LEFT alone. -/
theorem DecUnit.ParseInv.withPort {d p : DecUnit} (h : d.ParseInv) (hp : p.bitsLeft ≤ 8) :
    (withPort d p).ParseInv :=
  ⟨hp, h.zrun_le, h.srem_lt, h.in_sb, h.in_rs⟩

/-- A magnitude bit keeps the bounds of MAG and moves them up by one place (R164). -/
theorem mag_shift_bounds {m : BitVec 31} {b : Bool} {k : Nat} (hk : k < 30)
    (h1 : 2 ^ k ≤ m.toNat) (h2 : m.toNat < 2 ^ (k + 1)) :
    2 ^ (k + 1) ≤ ((m <<< 1) ||| BitVec.setWidth 31 (BitVec.ofBool b)).toNat ∧
      ((m <<< 1) ||| BitVec.setWidth 31 (BitVec.ofBool b)).toNat < 2 ^ (k + 2) := by
  have h30 : 2 ^ (k + 1) ≤ 2 ^ 30 := Nat.pow_le_pow_right (by norm_num) (by omega)
  rw [mag_shift m b (by omega), pow_succ, pow_succ _ (k + 1)]
  have hb := b.toNat_le
  omega

/-- A magnitude bit in SB keeps the parse invariant: SB goes on, or RS follows (R164). -/
theorem parseInv_shift {d : DecUnit} (h : d.ParseInv) (hd : d.dstate = .sb) (b : Bool) :
    DecUnit.ParseInv { d with
      mag := (d.mag <<< 1) ||| BitVec.setWidth 31 (BitVec.ofBool b)
      srem := d.srem - 1
      dstate := if d.srem - 1 = 0 then .rs else .sb } := by
  obtain ⟨hpos, hle, hlow, hhigh⟩ := h.in_sb hd
  have hz := h.zrun_le
  have hs := h.srem_lt
  obtain ⟨hlow', hhigh'⟩ := mag_shift_bounds (b := b) (by omega) hlow hhigh
  refine ⟨h.bitsLeft_le, hz, by simp only; omega, fun hsb => ?_, fun hrs => ?_⟩
  · have hne : d.srem - 1 ≠ 0 := fun h0 => by simp [h0] at hsb
    have e : d.zrun - (d.srem - 1) = d.zrun - d.srem + 1 := by omega
    exact ⟨by simp only; omega, by simp only; omega, by simpa only [e] using hlow',
      by simpa only [e] using hhigh'⟩
  · have h0 : d.srem - 1 = 0 := by
      by_contra hne
      simp [hne] at hrs
    have e : d.zrun - d.srem + 1 = d.zrun := by omega
    rw [e] at hlow'
    rw [show d.zrun - d.srem + 2 = d.zrun + 1 by omega] at hhigh'
    exact ⟨h0, by simp only; omega, hlow', hhigh'⟩

/-- The registers a result of DecodeBit leaves, if it leaves any, meet the parse invariant. -/
def ParseResult.Inv : ParseResult → Prop
  | .noValue d => d.ParseInv
  | .value _ d => d.ParseInv
  | .overlong => True

/-- DecodeBit keeps the parse invariant in each of the three states (R161 to R165). -/
theorem decodeBit_inv (b : Bool) {d : DecUnit} (h : d.ParseInv) : (decodeBit b d).Inv := by
  have hz := h.zrun_le
  rcases hd : d.dstate with _ | _ | _
  · cases b
    · by_cases h30 : d.zrun = 30
      · rw [decodeBit_cz_overlong hd h30]; trivial
      · rw [decodeBit_cz_zero hd h30]
        exact ⟨h.bitsLeft_le, by simp only; omega, h.srem_lt, by simp [hd], by simp [hd]⟩
    · by_cases h0 : d.zrun = 0
      · rw [decodeBit_cz_one_zero hd h0]; exact h
      · rw [decodeBit_cz_one_pos hd h0]
        exact ⟨h.bitsLeft_le, hz, by simp only; omega, fun _ => ⟨by simp only; omega, le_rfl,
          by simp, by simp⟩, by simp⟩
  · rw [decodeBit_sb b hd]; exact parseInv_shift h hd b
  · rw [decodeBit_rs b hd]
    exact ⟨h.bitsLeft_le, by simp, h.srem_lt, by simp, by simp⟩

/-! ### Commands in progress -/

/-- What holds of the machine inside a command, between two of its operations: the invariant but for
what it says of the point a command holds at, and the command's word is in the program (R34). -/
structure State.Busy (s : State) : Prop where
  width : s.LegalWidth
  acc : s.AccInv
  parse : s.dec.ParseInv
  cpc_lt : s.cpc < s.program.length

theorem State.Inv.busy {s : State} (h : s.Inv) (hc : s.cpc < s.program.length) : s.Busy :=
  ⟨h.width, h.acc, h.parse, hc⟩

/-- Between two commands, one of which stands at `cpc`. -/
theorem State.Inv.busy_of_fetch {s : State} {w : CmdWord} (h : s.Inv) (hf : fetch s = some w) :
    s.Busy :=
  h.busy (List.getElem?_eq_some_iff.1 hf).1

theorem State.Inv.rem_pos_of_idle {s : State} (h : s.Inv) (hh : s.held = none) : 1 ≤ s.enc.rem := by
  have hp := h.heldPoint
  rwa [State.HeldInv, hh] at hp

theorem State.Busy.accReady {s : State} (h : s.Busy) (hr : 1 ≤ s.enc.rem) : s.AccReady :=
  ⟨h.acc, hr⟩

/-- A response ends a command that is between two bits (R22, R34). -/
theorem State.Busy.respond {s : State} (h : s.Busy) (hr : 1 ≤ s.enc.rem) (r : Response) :
    (respond r s).Inv :=
  ⟨h.width, ⟨h.acc.rem_le, h.acc.unused_zero⟩, h.parse, hr, h.cpc_lt⟩

theorem State.Busy.hold {s : State} (h : s.Busy) (p : Held) (hp : (hold p s).HeldInv) :
    (hold p s).Inv :=
  ⟨h.width, ⟨h.acc.rem_le, h.acc.unused_zero⟩, h.parse, hp, h.cpc_lt.le⟩

/-- A fault ends a command that is between two bits (R22, R224). -/
theorem State.Busy.raiseFault {s : State} (h : s.Busy) (hr : 1 ≤ s.enc.rem) (rule : Nat)
    (f : UnitFault) : (raiseFault rule f s).Inv := by
  cases f with
  | enc e =>
    have hb : (recordFault rule (.enc e) s).Busy :=
      ⟨h.width, ⟨h.acc.rem_le, h.acc.unused_zero⟩, h.parse, h.cpc_lt⟩
    exact hb.respond hr _
  | dec d =>
    have hb : (recordFault rule (.dec d) s).Busy :=
      ⟨h.width, ⟨h.acc.rem_le, h.acc.unused_zero⟩,
        h.parse.withPort (p := (recordFault rule (.dec d) s).dec) h.parse.bitsLeft_le, h.cpc_lt⟩
    exact hb.respond hr _

theorem State.Busy.clearAcc {s : State} (h : s.Busy) : (clearAcc s).Busy :=
  ⟨h.width, (accReady_clearAcc h.width).toAccInv, h.parse, h.cpc_lt⟩

theorem clearAcc_rem_pos {s : State} (hw : s.LegalWidth) : 1 ≤ (clearAcc s).enc.rem :=
  (accReady_clearAcc hw).rem_pos

/-- What encoding touches is ACC, REM, the sink's answers and the trace. -/
theorem State.Busy.encFrame {s t : State} (h : s.Busy) (hf : EncFrame s t) (ha : t.AccInv) :
    t.Busy := by
  obtain ⟨acc, rem, answers, trace, rfl⟩ := hf
  exact ⟨h.width, ha, h.parse, h.cpc_lt⟩

/-- The encoder starts a new stream between two bits (R135, R190). -/
theorem State.Busy.startEncoder {s : State} (h : s.Busy) (prev : Word32) :
    (startEncoder prev s).Busy ∧ 1 ≤ (startEncoder prev s).enc.rem := by
  have hw : 1 ≤ s.wordBytes := h.width
  exact ⟨⟨h.width, ⟨le_rfl, fun i _ => startEncoder_acc_bit prev s i⟩, h.parse, h.cpc_lt⟩,
    by simp; omega⟩

theorem State.Busy.startDecoder {s : State} (h : s.Busy) (base : Word32) :
    (startDecoder base s).Busy :=
  ⟨h.width, ⟨h.acc.rem_le, h.acc.unused_zero⟩, parseInv_start _ _, h.cpc_lt⟩

/-! ### The encoder's commands -/

/-- A command of an encoder that takes values is in progress (R136, R137, R191). -/
structure State.Encoding (s : State) : Prop extends State.Busy s where
  noFault : s.enc.efault = none
  notFinished : s.enc.efin = false

theorem State.Encoding.encFrame {s t : State} (h : s.Encoding) (hf : EncFrame s t)
    (ha : t.AccInv) : t.Encoding := by
  have hb := h.toBusy.encFrame hf ha
  obtain ⟨acc, rem, answers, trace, rfl⟩ := hf
  exact ⟨hb, h.noFault, h.notFinished⟩

theorem State.Encoding.clearAcc {s : State} (h : s.Encoding) : (clearAcc s).Encoding :=
  ⟨h.toBusy.clearAcc, h.noFault, h.notFinished⟩

/-- The sink's answers and the trace are outside the invariant. -/
theorem State.Encoding.withSink {s : State} (h : s.Encoding) (answers : List SinkAnswer)
    (trace : List Event) : State.Encoding { s with sinkAnswers := answers, trace := trace } :=
  ⟨⟨h.width, ⟨h.acc.rem_le, h.acc.unused_zero⟩, h.parse, h.cpc_lt⟩, h.noFault, h.notFinished⟩

/-- With REM = 0 the accumulator is full, and no unused bit is left (R21). -/
theorem accInv_of_full {s : State} (h : s.enc.rem = 0) : s.AccInv :=
  ⟨by omega, by omega⟩

/-- What an append leaves: a command between two bits, a command ended by a fault, or a full word that
waits for the sink. -/
def AppendResult.Inv : AppendResult → Prop
  | .done s => s.Encoding ∧ 1 ≤ s.enc.rem
  | .faulted s => s.Inv
  | .waiting s _ => s.Encoding ∧ s.enc.rem = 0

theorem appendBits_inv (c : Bits) {s : State} (h : s.Encoding) (hr : 1 ≤ s.enc.rem) :
    (appendBits c s).Inv := by
  rcases appendBits_outcome c h.width (h.accReady hr) with
    ⟨t, e, hf, ht⟩ | ⟨t, e, hf⟩ | ⟨t, rest, e, hf, h0, -⟩ <;> rw [e]
  · exact ⟨h.encFrame hf ht.toAccInv, ht.rem_pos⟩
  · have hb : (Machine.clearAcc t).Busy :=
      h.toBusy.encFrame (hf.trans (encFrame_clearAcc t)) (accReady_clearAcc (by
        obtain ⟨acc, rem, answers, trace, rfl⟩ := hf; exact h.width)).toAccInv
    exact hb.raiseFault (clearAcc_rem_pos hb.width) _ _
  · exact ⟨h.encFrame hf (accInv_of_full h0), h0⟩

/-- The write of a full word, and the rest of the codeword after it (R133). -/
theorem flushWord_inv {s : State} (h : s.Encoding) (h0 : s.enc.rem = 0) (rest : Bits) :
    ((flushWord s).andThen rest (appendBits rest)).Inv := by
  rcases flushWord_cases s with ⟨-, e⟩ | ⟨answers, -, e⟩ | ⟨landed, answers, -, e⟩ <;> rw [e]
  · exact ⟨h, h0⟩
  · have hs := (h.withSink answers (s.trace ++ [.sinkWrite (accBytes s.enc.acc s.wordBytes)])).clearAcc
    exact appendBits_inv rest hs (clearAcc_rem_pos hs.width)
  · have hs := (h.withSink answers
      (s.trace ++ landedEvents ((accBytes s.enc.acc s.wordBytes).take landed))).clearAcc
    exact hs.toBusy.raiseFault (clearAcc_rem_pos hs.width) _ _

theorem finishValue_inv (count : Nat) (newPrev : Option Word32) {r : AppendResult} (h : r.Inv) :
    (finishValue count newPrev r).Inv := by
  cases r with
  | done s =>
    obtain ⟨hs, hr⟩ := h
    have hb : State.Busy { s with enc := { s.enc with prev := newPrev.getD s.enc.prev } } :=
      ⟨hs.width, ⟨hs.acc.rem_le, hs.acc.unused_zero⟩, hs.parse, hs.cpc_lt⟩
    exact hb.respond hr _
  | faulted s => exact h
  | waiting s rest =>
    obtain ⟨hs, h0⟩ := h
    exact hs.toBusy.hold _ ⟨h0, hs.noFault, hs.notFinished, hs.cpc_lt⟩

theorem encodeValue_inv (rule : Nat) (x : Int) (newPrev : Option Word32) {s : State}
    (h : s.Encoding) (hr : 1 ≤ s.enc.rem) : (encodeValue rule x newPrev s).Inv := by
  unfold encodeValue
  split
  · exact finishValue_inv _ _ (appendBits_inv _ h hr)
  · exact h.toBusy.raiseFault hr _ _

/-- The flush of ENC_FINISH, with ACC cleared before it (R137). -/
theorem finishFlush_inv (nb : Nat) {s : State} (h : s.Encoding) (hr : s.enc.rem = s.width) :
    (finishFlush nb s).Inv := by
  have hw : 1 ≤ s.wordBytes := h.width
  have h1 : 1 ≤ s.enc.rem := by rw [hr, State.width]; omega
  rcases finishFlush_cases nb s with ⟨-, e⟩ | ⟨rest, -, e⟩ | ⟨landed, rest, -, e⟩ <;> rw [e]
  · exact h.toBusy.hold _ ⟨hr, h.noFault, h.notFinished, h.cpc_lt⟩
  · have hb : State.Busy { s with
        enc := { s.enc with efin := true }
        sinkAnswers := rest
        trace := s.trace ++ [.sinkFlush] } :=
      ⟨h.width, ⟨h.acc.rem_le, h.acc.unused_zero⟩, h.parse, h.cpc_lt⟩
    exact hb.respond h1 _
  · exact (h.withSink rest s.trace).toBusy.raiseFault h1 _ _

theorem finishStream_inv {s : State} (h : s.Encoding) (hr : 1 ≤ s.enc.rem) :
    (finishStream s).Inv := by
  by_cases hb : finishBytes s = 0
  · rw [finishStream_empty hb]
    exact finishFlush_inv _ h.clearAcc rfl
  · have hpos : 0 < finishBytes s := Nat.pos_of_ne_zero hb
    rcases finishStream_cases hpos with ⟨-, e⟩ | ⟨rest, -, e⟩ | ⟨landed, rest, -, e⟩ <;> rw [e]
    · exact h.toBusy.hold _ ⟨hr, hpos, h.noFault, h.notFinished, h.cpc_lt⟩
    · exact finishFlush_inv _ (h.withSink rest _).clearAcc rfl
    · have hs := (h.withSink rest
        (s.trace ++ landedEvents ((accBytes s.enc.acc (finishBytes s)).take landed))).clearAcc
      exact hs.toBusy.raiseFault (clearAcc_rem_pos hs.width) _ _

/-- The checks before a command of the encoder (R222, R225, R228). -/
theorem encoderCommand_inv (rule : Nat) {k : State → State} {s : State} (h : s.Busy)
    (hr : 1 ≤ s.enc.rem) (hk : s.Encoding → (k s).Inv) : (encoderCommand rule k s).Inv := by
  unfold encoderCommand
  split
  · exact h.respond hr _
  · rename_i hf
    split
    · exact h.raiseFault hr _ _
    · rename_i hfin
      exact hk ⟨h, hf, by simpa using hfin⟩

/-! ### The decoder's commands -/

/-- DEC or DDEC with buffer length `n` is in progress, between two turns of its loop (R167). -/
structure State.Decoding (n : Nat) (s : State) : Prop extends State.Busy s where
  rem_pos : 1 ≤ s.enc.rem
  noFault : s.dec.dfault = none
  out_le : s.out.length ≤ n

/-- The decoder, the source's port and the trace are replaced inside a DEC or DDEC. -/
theorem State.Decoding.withDec {n : Nat} {s : State} (h : s.Decoding n) {d : DecUnit}
    (hd : d.ParseInv) (hf : d.dfault = none) (answers : List SrcAnswer) (trace : List Event) :
    State.Decoding n { s with dec := d, srcAnswers := answers, trace := trace } :=
  ⟨⟨h.width, ⟨h.acc.rem_le, h.acc.unused_zero⟩, hd, h.cpc_lt⟩, h.rem_pos, hf, h.out_le⟩

theorem State.Decoding.nextBit_bit {n : Nat} {s u : State} {b : Bool} (h : s.Decoding n)
    (e : nextBit s = .bit b u) : u.Decoding n ∧ u.out = s.out := by
  have hle := h.parse.bitsLeft_le
  rcases nextBit_cases s with ⟨-, e'⟩ | ⟨-, ⟨-, e'⟩ | ⟨c, rest, -, e'⟩ | ⟨rest, -, e'⟩ |
    ⟨rest, -, e'⟩⟩ <;> rw [e'] at e <;> cases e
  · have hp := h.parse.withPort (p := { s.dec with bitsLeft := s.dec.bitsLeft - 1 })
      (by simp only; omega)
    exact ⟨h.withDec hp h.noFault s.srcAnswers s.trace, rfl⟩
  · have hp := h.parse.withPort (p := { s.dec with byte := c, bitsLeft := 7 }) (by simp)
    exact ⟨h.withDec hp h.noFault _ _, rfl⟩

/-- A source that ends or fails leaves the registers as they are (R160). -/
theorem State.Decoding.nextBit_end {n : Nat} {s u : State} (h : s.Decoding n)
    (e : nextBit s = .eof u ∨ nextBit s = .failed u) : u.Decoding n := by
  rcases nextBit_cases s with ⟨-, e'⟩ | ⟨-, ⟨-, e'⟩ | ⟨c, rest, -, e'⟩ | ⟨rest, -, e'⟩ |
    ⟨rest, -, e'⟩⟩ <;> rw [e'] at e <;> rcases e with e | e <;> cases e
  · exact h.withDec h.parse h.noFault _ _
  · exact h.withDec h.parse h.noFault _ _

/-- The state with the parse machine's registers after a bit (R161 to R165). -/
theorem State.Decoding.parsed {n : Nat} {s : State} (h : s.Decoding n) {b : Bool} {d : DecUnit}
    (e : decodeBit b s.dec = .noValue d ∨ ∃ x, decodeBit b s.dec = .value x d) :
    State.Decoding n { s with dec := d } := by
  have hi := decodeBit_inv b h.parse
  have hf := decodeBit_frame b s.dec
  rcases e with e | ⟨x, e⟩
  · rw [e] at hi hf
    injection hf with hf
    exact h.withDec hi (by rw [hf]; exact h.noFault) s.srcAnswers s.trace
  · rw [e] at hi hf
    injection hf with _ hf
    exact h.withDec hi (by rw [hf]; exact h.noFault) s.srcAnswers s.trace

theorem State.Decoding.emit {n : Nat} {s : State} (h : s.Decoding n) (hn : s.out.length < n)
    (y : Word32) : (emit y s).Decoding n :=
  ⟨⟨h.width, ⟨h.acc.rem_le, h.acc.unused_zero⟩, h.parse, h.cpc_lt⟩, h.rem_pos, h.noFault,
    by simpa using hn⟩

/-- A value that is emitted has room in the output list (R167, R194). -/
theorem State.Decoding.deliver_again {n : Nat} {delta : Bool} {x : Int} {s s' : State}
    (h : s.Decoding n) (hn : s.out.length < n) (e : deliver delta x s = .again s') :
    s'.Decoding n := by
  rcases deliver_again_cases e with ⟨-, rfl⟩ | ⟨-, -, rfl⟩
  · exact h.emit hn _
  · have hp := h.parse.withPort (p := { s.dec with base := s32 (s.dec.base.toInt + x) })
      h.parse.bitsLeft_le
    exact (h.withDec hp h.noFault s.srcAnswers s.trace).emit hn _

theorem loopStep_again_inv {n : Nat} {delta : Bool} {s s' : State} (h : s.Decoding n)
    (e : loopStep n delta s = .again s') : s'.Decoding n := by
  obtain ⟨hn, b, u, hb, hcase⟩ := loopStep_again_cases e
  obtain ⟨hu, hout⟩ := h.nextBit_bit hb
  have hlt : u.out.length < n := by rw [hout]; exact lt_of_le_of_ne h.out_le hn
  rcases hcase with ⟨d, hd, rfl⟩ | ⟨x, d, hd, hx⟩
  · exact hu.parsed (.inl hd)
  · exact (hu.parsed (.inr ⟨x, hd⟩)).deliver_again hlt hx

theorem endDecode_inv {n : Nat} {s : State} (h : s.Decoding n) (exhausted : Bool) :
    (endDecode exhausted s).Inv := by
  have hp := h.parse.withPort (p := { s.dec with dexh := exhausted }) h.parse.bitsLeft_le
  exact (h.withDec hp h.noFault s.srcAnswers s.trace).toBusy.respond h.rem_pos _

theorem loopStep_stop_inv {n : Nat} {delta : Bool} {s s' : State} (h : s.Decoding n)
    (e : loopStep n delta s = .stop s') : s'.Inv := by
  rcases loopStep_stop_cases e with ⟨-, rfl⟩ | ⟨hn, ⟨hw, rfl⟩ | ⟨u, hu, rfl⟩ | ⟨u, hu, rfl⟩ |
    ⟨b, u, hu, -, rfl⟩ | ⟨b, u, x, d, hu, hd, -, -, rfl⟩⟩
  · exact endDecode_inv h false
  · have h0 : s.dec.bitsLeft = 0 := by
      by_contra h0
      rw [nextBit_buffered h0] at hw
      cases hw
    exact h.toBusy.hold _ ⟨h.rem_pos, lt_of_le_of_ne h.out_le hn, h0, h.noFault, h.cpc_lt⟩
  · exact endDecode_inv (h.nextBit_end (.inl hu)) true
  · have hd := h.nextBit_end (.inr hu)
    exact hd.toBusy.raiseFault hd.rem_pos _ _
  · have hd := (h.nextBit_bit hu).1
    exact hd.toBusy.raiseFault hd.rem_pos _ _
  · have hp := (h.nextBit_bit hu).1.parsed (.inr ⟨x, hd⟩)
    exact hp.toBusy.raiseFault hp.rem_pos _ _

theorem decodeLoop_inv {n : Nat} (delta : Bool) {s : State} (h : s.Decoding n) :
    (decodeLoop n delta s).Inv :=
  decodeLoop_induct (P := State.Decoding n) (fun _ _ => loopStep_again_inv)
    (fun _ _ => loopStep_stop_inv) s h

theorem startDecode_inv (n : Nat) (delta : Bool) {s : State} (h : s.Busy) (hr : 1 ≤ s.enc.rem)
    (hf : s.dec.dfault = none) : (startDecode n delta s).Inv :=
  decodeLoop_inv delta
    ⟨⟨h.width, ⟨h.acc.rem_le, h.acc.unused_zero⟩, h.parse, h.cpc_lt⟩, hr, hf, Nat.zero_le n⟩

/-- The check before a command of the decoder (R225). -/
theorem decoderCommand_inv {k : State → State} {s : State} (h : s.Busy) (hr : 1 ≤ s.enc.rem)
    (hk : s.dec.dfault = none → (k s).Inv) : (decoderCommand k s).Inv := by
  unfold decoderCommand
  split
  · exact h.respond hr _
  · rename_i hf; exact hk hf

/-! ### The step -/

theorem whenIdle_of_idle {s : State} (t : State) (h : s.held = none) : whenIdle s t = .next t := by
  simp [whenIdle, h]

theorem logStatus_inv {s : State} (h : s.Inv) : (logStatus s).Inv := by
  obtain ⟨values, e⟩ := logStatus_frame s
  rw [e]
  exact ⟨h.width, ⟨h.acc.rem_le, h.acc.unused_zero⟩, h.parse, h.heldPoint, h.cpc_le⟩

theorem whenIdle_inv {s t u : State} (hh : s.held = none) (e : whenIdle s u = .next t)
    (hu : u.Inv) : t.Inv := by
  cases (whenIdle_of_idle u hh).symm.trans e
  exact hu

/-- Every command, executed between two others, leaves the invariant. -/
theorem exec_inv {i : Instr} {s t : State} (hi : i.isCommand = true) (hh : s.held = none)
    (h : s.Busy) (hr : 1 ≤ s.enc.rem) (e : exec i s = .next t) : t.Inv := by
  cases i with
  | encInit => exact whenIdle_inv hh e ((h.startEncoder 0).1.respond (h.startEncoder 0).2 _)
  | encOne v =>
    exact whenIdle_inv hh e (encoderCommand_inv _ h hr fun ho => encodeValue_inv _ _ _ ho hr)
  | encFinish =>
    exact whenIdle_inv hh e (encoderCommand_inv _ h hr fun ho => finishStream_inv ho hr)
  | decInit => exact whenIdle_inv hh e ((h.startDecoder 0).respond hr _)
  | dec n => exact whenIdle_inv hh e (decoderCommand_inv h hr (startDecode_inv _ _ h hr))
  | dencStart start =>
    exact whenIdle_inv hh e ((h.startEncoder start).1.respond (h.startEncoder start).2 _)
  | dencVal v =>
    exact whenIdle_inv hh e (encoderCommand_inv _ h hr fun ho => encodeValue_inv _ _ _ ho hr)
  | ddecStart base => exact whenIdle_inv hh e ((h.startDecoder base).respond hr _)
  | ddec n => exact whenIdle_inv hh e (decoderCommand_inv h hr (startDecode_inv _ _ h hr))
  | statusRead => exact whenIdle_inv hh e (h.respond hr _)
  | cwZero => cases hi
  | cwNonzero n mbits sign => cases hi

/-- A held command that goes on leaves the invariant, wherever it held (R227). -/
theorem resume_inv {s : State} {p : Held} (h : s.Inv) (hp : s.held = some p) :
    (resume p s).Inv := by
  have hpoint := h.heldPoint
  rw [State.HeldInv, hp] at hpoint
  cases p with
  | word rest count newPrev =>
    obtain ⟨h0, hf, hfin, hc⟩ := hpoint
    exact finishValue_inv _ _ (flushWord_inv ⟨h.busy hc, hf, hfin⟩ h0 rest)
  | tail =>
    obtain ⟨hr, -, hf, hfin, hc⟩ := hpoint
    exact finishStream_inv ⟨h.busy hc, hf, hfin⟩ hr
  | flush nb =>
    obtain ⟨hr, hf, hfin, hc⟩ := hpoint
    exact finishFlush_inv nb ⟨h.busy hc, hf, hfin⟩ hr
  | read n delta =>
    obtain ⟨hr, hout, -, hf, hc⟩ := hpoint
    exact decodeLoop_inv delta
      ⟨⟨h.width, ⟨h.acc.rem_le, h.acc.unused_zero⟩, h.parse, hc⟩, hr, hf, hout.le⟩

/-- The reset input leaves the invariant in every state of a legal width (R250). -/
theorem applyReset_inv {s : State} (hw : s.LegalWidth) : (applyReset s).Inv := by
  have h1 : 1 ≤ s.wordBytes := hw
  exact ⟨hw, ⟨le_rfl, fun i _ => startEncoder_acc_bit 0 s i⟩, parseInv_start _ _,
    show 1 ≤ 8 * s.wordBytes by omega, Nat.zero_le _⟩

/-- Settles O18: by cases on what the step does, each of which leaves the invariant. -/
theorem stepKeepsInvariant : Obligations.StepKeepsInvariant := by
  unfold Obligations.StepKeepsInvariant
  intro s t h hstep
  rcases step_cases hstep with ⟨-, rfl⟩ | ⟨p, hp, rfl⟩ | ⟨-, -, rfl⟩ | ⟨w, i, u, hh, hf, hd, hu, rfl⟩ |
    ⟨w, e, hh, hf, -, rfl⟩
  · exact logStatus_inv (applyReset_inv h.width)
  · exact logStatus_inv (resume_inv h hp)
  · exact h
  · exact logStatus_inv (exec_inv (decodeCommand_isCommand hd) hh (h.busy_of_fetch hf)
      (h.rem_pos_of_idle hh) hu)
  · have hb := h.busy_of_fetch hf
    have hill : State.Busy { s with ill := true } :=
      ⟨hb.width, ⟨hb.acc.rem_le, hb.acc.unused_zero⟩, hb.parse, hb.cpc_lt⟩
    exact logStatus_inv (hill.respond (h.rem_pos_of_idle hh) _)

/-- The reset state of a legal width meets the invariant (R4, R250). -/
theorem resetOfWidth_inv {wordBytes : Nat} (hw : 1 ≤ wordBytes) :
    (State.resetOfWidth wordBytes).Inv :=
  ⟨hw, ⟨le_rfl, fun i _ => startEncoder_acc_bit 0 (State.resetOfWidth wordBytes) i⟩,
    ⟨Nat.zero_le 8, Nat.zero_le 30, Nat.zero_lt_succ 31, fun h => (by cases h), fun h => (by cases h)⟩,
    show 1 ≤ 8 * wordBytes by omega, Nat.zero_le _⟩

/-- Settles O17: the registers of R250 meet the invariant, and State.reset is the reset state of the
default width. -/
theorem resetMeetsInvariant : Obligations.ResetMeetsInvariant := by
  unfold Obligations.ResetMeetsInvariant
  exact ⟨resetOfWidth_inv (wordBytes := Config.defaultWordBytes) (by decide),
    fun _ => resetOfWidth_inv⟩

end Sys2Proof.Machine
end

section
/-!
PROOF. The two units apart (R33): each unit's commands run on that unit's side of the state alone, the
same whatever the rest of the state is, and end with one response or with a hold (R8, R34, R227).
-/

namespace Sys2Proof.Machine

/-! ### The command port -/

/-- What both units share of the command in progress: where it holds, its index, and the channel
events so far. -/
structure Port where
  held : Option Held
  cpc : Nat
  trace : List Event

/-- The port after a response (R34). -/
def Port.respond (r : Response) (p : Port) : Port :=
  { held := none, cpc := p.cpc + 1, trace := p.trace ++ [.response r] }

/-- The port of a command that holds (R227). -/
def Port.hold (h : Held) (p : Port) : Port := { p with held := some h }

/-- The port after more channel events. -/
def Port.events (vs : List Event) (p : Port) : Port := { p with trace := p.trace ++ vs }

/-- From `p` to `q` a command has gone on, with events of the kind `P` only. -/
def Port.Progress (P : Event → Prop) (p q : Port) : Prop :=
  q.cpc = p.cpc ∧ ∃ events, (∀ v ∈ events, P v) ∧ q.trace = p.trace ++ events

/-- From `p` to `q` a command has run, with events of the kind `P`, up to its response or up to where
it holds. -/
def Port.Ends (P : Event → Prop) (p q : Port) : Prop :=
  ∃ events, (∀ v ∈ events, P v) ∧
    ((q.held = none ∧ q.cpc = p.cpc + 1 ∧ ∃ r, q.trace = p.trace ++ events ++ [.response r]) ∨
      (q.held ≠ none ∧ q.cpc = p.cpc ∧ q.trace = p.trace ++ events))

variable {P : Event → Prop} {p q r : Port}

theorem Port.Progress.refl (p : Port) : p.Progress P p := ⟨rfl, [], by simp, by simp⟩

theorem Port.progress_events {vs : List Event} (h : ∀ v ∈ vs, P v) : p.Progress P (p.events vs) :=
  ⟨rfl, vs, h, rfl⟩

theorem Port.Progress.trans (h : p.Progress P q) (k : q.Progress P r) : p.Progress P r := by
  obtain ⟨hcpc, a, ha, hta⟩ := h
  obtain ⟨kcpc, b, hb, htb⟩ := k
  exact ⟨kcpc.trans hcpc, a ++ b, List.forall_mem_append.2 ⟨ha, hb⟩,
    by rw [htb, hta, List.append_assoc]⟩

theorem Port.Progress.ends (h : p.Progress P q) (k : q.Ends P r) : p.Ends P r := by
  obtain ⟨hcpc, a, ha, hta⟩ := h
  obtain ⟨b, hb, hcase⟩ := k
  refine ⟨a ++ b, List.forall_mem_append.2 ⟨ha, hb⟩, ?_⟩
  simpa only [hta, hcpc, List.append_assoc] using hcase

theorem Port.ends_respond (a : Response) (p : Port) : p.Ends P (p.respond a) :=
  ⟨[], by simp, .inl ⟨rfl, rfl, a, by simp [Port.respond]⟩⟩

theorem Port.ends_hold (h : Held) (p : Port) : p.Ends P (p.hold h) :=
  ⟨[], by simp, .inr ⟨by simp [Port.hold], rfl, by simp [Port.hold]⟩⟩

/-- What neither a response nor an event inside the command shows, the whole command does not show. -/
theorem Port.Ends.trace_flatMap {α : Type} {f : Event → List α} (h : p.Ends P q)
    (hP : ∀ v, P v → f v = []) (hr : ∀ a, f (.response a) = []) :
    ∃ events, events.flatMap f = [] ∧ q.trace = p.trace ++ events := by
  obtain ⟨events, hev, hcase⟩ := h
  have hnil : events.flatMap f = [] := List.flatMap_eq_nil_iff.2 fun v hv => hP v (hev v hv)
  rcases hcase with ⟨-, -, a, ht⟩ | ⟨-, -, ht⟩
  · exact ⟨events ++ [.response a], by simp [hnil, hr], by rw [ht, List.append_assoc]⟩
  · exact ⟨events, hnil, ht⟩

/-! ### The encoder's side -/

/-- The part of the state that the encoder's commands read and write, for a width. -/
structure EncSide (wordBytes : Nat) where
  enc : EncUnit wordBytes
  port : Port
  sinkAnswers : List SinkAnswer
  faultLog : List FaultRecord

variable {wb : Nat}

/-- The state `s` with its width and its encoder's side replaced. -/
def EncSide.on (e : EncSide wb) (s : State) : State :=
  { s with
    wordBytes := wb, enc := e.enc, held := e.port.held, cpc := e.port.cpc
    sinkAnswers := e.sinkAnswers, trace := e.port.trace, faultLog := e.faultLog }

/-- The command port of a state. -/
def State.port (s : State) : Port := { held := s.held, cpc := s.cpc, trace := s.trace }

/-- The encoder's side of a state, of which `s.encSide.on s` is the state itself. -/
def State.encSide (s : State) : EncSide s.wordBytes :=
  { enc := s.enc, port := s.port, sinkAnswers := s.sinkAnswers, faultLog := s.faultLog }

/-- An event of the encoder inside a command: neither a response nor a source read (R68). -/
def Event.IsSink (v : Event) : Prop := v.responses = [] ∧ v.sourceReads = []

/-- From `e` to `e'` a command of the encoder has gone on. -/
abbrev EncSide.Progress (e e' : EncSide wb) : Prop := e.port.Progress Event.IsSink e'.port

/-- From `e` to `e'` a command of the encoder has run up to its response or to where it holds. -/
abbrev EncSide.Ends (e e' : EncSide wb) : Prop := e.port.Ends Event.IsSink e'.port

/-- The command `k` on the encoder's side `e` ends in the same way whatever the rest of the state is. -/
def EncLocal (e : EncSide wb) (k : State → State) : Prop :=
  ∃ e' : EncSide wb, e.Ends e' ∧ ∀ s, k (e.on s) = e'.on s

/-- Going on with `k` from a later point of the same command. -/
theorem EncLocal.after {e f : EncSide wb} {k l : State → State} (hk : EncLocal f k)
    (h : e.Progress f) (hl : ∀ s, l (e.on s) = k (f.on s)) : EncLocal e l := by
  obtain ⟨g, hg, hon⟩ := hk
  exact ⟨g, h.ends hg, fun s => (hl s).trans (hon s)⟩

theorem encLocal_respond (e : EncSide wb) (r : Response) : EncLocal e (respond r) :=
  ⟨{ e with port := e.port.respond r }, Port.ends_respond r e.port, fun _ => rfl⟩

theorem encLocal_hold (e : EncSide wb) (p : Held) : EncLocal e (hold p) :=
  ⟨{ e with port := e.port.hold p }, Port.ends_hold p e.port, fun _ => rfl⟩

theorem encLocal_raiseFault (e : EncSide wb) (rule : Nat) (f : EncFault) :
    EncLocal e (raiseFault rule (.enc f)) :=
  (encLocal_respond
    { e with
      enc := { e.enc with efault := e.enc.efault <|> some f }
      faultLog := e.faultLog ++ [⟨rule, e.port.cpc, .enc f⟩] }
    { rc := .fault, fcode := f.code }).after (.refl _) fun _ => rfl

/-- What an operation of the sink's port does is decided by the encoder's side. -/
inductive SinkLocal (e : EncSide wb) (k : State → SinkResult) : Prop
  | ok (e' : EncSide wb) (h : e.Progress e') (hk : ∀ s, k (e.on s) = .ok (e'.on s))
  | err (e' : EncSide wb) (h : e.Progress e') (hk : ∀ s, k (e.on s) = .err (e'.on s))
  | wait (hk : ∀ s, k (e.on s) = .wait)

theorem isSink_of_mem_landedEvents {bs : List Byte} {v : Event} (h : v ∈ landedEvents bs) :
    v.IsSink := by
  cases bs with
  | nil => cases h
  | cons b rest =>
    obtain rfl : v = .sinkWrite (b :: rest) := by simpa [landedEvents] using h
    exact ⟨rfl, rfl⟩

theorem isSink_sinkWrite (bs : List Byte) : ∀ v ∈ [Event.sinkWrite bs], v.IsSink := by
  simp [Event.IsSink, Event.responses, Event.sourceReads]

theorem isSink_sinkFlush : ∀ v ∈ [Event.sinkFlush], v.IsSink := by
  simp [Event.IsSink, Event.responses, Event.sourceReads]

theorem sinkLocal_sinkWrite (e : EncSide wb) (bs : List Byte) : SinkLocal e (sinkWrite bs) := by
  rcases ha : e.sinkAnswers with _ | ⟨_ | landed, rest⟩
  · exact .wait fun s => by simp [sinkWrite, EncSide.on, ha]
  · exact .ok { e with sinkAnswers := rest, port := e.port.events [.sinkWrite bs] }
      (Port.progress_events (isSink_sinkWrite bs))
      fun s => by simp [sinkWrite, EncSide.on, ha, Port.events]
  · exact .err { e with sinkAnswers := rest, port := e.port.events (landedEvents (bs.take landed)) }
      (Port.progress_events fun _ => isSink_of_mem_landedEvents)
      fun s => by simp [sinkWrite, EncSide.on, ha, Port.events]

/-- A write of the first bytes of ACC, as many as the encoder's side says. -/
theorem sinkLocal_writeAcc {e : EncSide wb} {nb : State → Nat} (n : Nat)
    (hn : ∀ s, nb (e.on s) = n) : SinkLocal e fun s =>
      sinkWrite (accBytes s.enc.acc (nb s)) s := by
  have he : ∀ s, accBytes (e.on s).enc.acc (nb (e.on s)) = accBytes e.enc.acc n := fun s => by
    rw [hn]; rfl
  rcases sinkLocal_sinkWrite e (accBytes e.enc.acc n) with ⟨f, hf, hk⟩ | ⟨f, hf, hk⟩ | hk
  · exact .ok f hf fun s => by rw [he]; exact hk s
  · exact .err f hf fun s => by rw [he]; exact hk s
  · exact .wait fun s => by rw [he]; exact hk s

theorem sinkLocal_sinkFlush (e : EncSide wb) : SinkLocal e sinkFlush := by
  rcases ha : e.sinkAnswers with _ | ⟨_ | landed, rest⟩
  · exact .wait fun s => by simp [sinkFlush, EncSide.on, ha]
  · exact .ok { e with sinkAnswers := rest, port := e.port.events [.sinkFlush] }
      (Port.progress_events isSink_sinkFlush)
      fun s => by simp [sinkFlush, EncSide.on, ha, Port.events]
  · exact .err { e with sinkAnswers := rest } (.refl _) fun s => by simp [sinkFlush, EncSide.on, ha]

/-- The encoder's side with ACC cleared (R133). -/
def EncSide.clearAcc (e : EncSide wb) : EncSide wb :=
  { e with enc := { e.enc with acc := 0, rem := 8 * wb } }

/-- What an append does is decided by the encoder's side. -/
inductive AppendLocal (e : EncSide wb) (k : State → AppendResult) : Prop
  | done (e' : EncSide wb) (h : e.Progress e') (hk : ∀ s, k (e.on s) = .done (e'.on s))
  | faulted (e' : EncSide wb) (h : e.Ends e') (hk : ∀ s, k (e.on s) = .faulted (e'.on s))
  | waiting (e' : EncSide wb) (rest : Bits) (h : e.Progress e')
      (hk : ∀ s, k (e.on s) = .waiting (e'.on s) rest)

/-- Going on with `k` from a later point of the same append. -/
theorem AppendLocal.after {e f : EncSide wb} {k l : State → AppendResult} (hk : AppendLocal f k)
    (h : e.Progress f) (hl : ∀ s, l (e.on s) = k (f.on s)) : AppendLocal e l := by
  rcases hk with ⟨g, hg, hon⟩ | ⟨g, hg, hon⟩ | ⟨g, rest, hg, hon⟩
  · exact .done g (h.trans hg) fun s => (hl s).trans (hon s)
  · exact .faulted g (h.ends hg) fun s => (hl s).trans (hon s)
  · exact .waiting g rest (h.trans hg) fun s => (hl s).trans (hon s)

theorem appendLocal_flushWord (e : EncSide wb) : AppendLocal e flushWord := by
  have hwrite := sinkLocal_writeAcc (e := e) (nb := State.wordBytes) wb fun _ => rfl
  rcases hwrite with ⟨f, hf, hk⟩ | ⟨f, hf, hk⟩ | hk
  · exact .done f.clearAcc hf fun s => by rw [flushWord, hk]; rfl
  · obtain ⟨g, hg, hon⟩ := encLocal_raiseFault f.clearAcc 133 .sinkIo
    exact .faulted g (hf.ends hg) fun s => by rw [flushWord, hk, ← hon]; rfl
  · exact .waiting e [] (.refl _) fun s => by rw [flushWord, hk]

/-- The encoder's side with a bit placed (R131). -/
def EncSide.placeBit (b : Bool) (e : EncSide wb) : EncSide wb :=
  { e with enc := { e.enc with acc := setBit e.enc.acc (e.enc.rem - 1) b, rem := e.enc.rem - 1 } }

theorem appendLocal_appendBit (e : EncSide wb) (b : Bool) : AppendLocal e (appendBit b) := by
  by_cases h0 : (e.placeBit b).enc.rem = 0
  · exact (appendLocal_flushWord (e.placeBit b)).after (.refl _) fun s => if_pos h0
  · exact .done (e.placeBit b) (.refl _) fun s => if_neg h0

theorem appendLocal_appendBits (c : Bits) (e : EncSide wb) : AppendLocal e (appendBits c) := by
  induction c generalizing e with
  | nil => exact .done e (.refl _) fun _ => rfl
  | cons b c ih =>
    rcases appendLocal_appendBit e b with ⟨f, hf, hk⟩ | ⟨f, hf, hk⟩ | ⟨f, rest, hf, hk⟩
    · exact (ih f).after hf fun s => by rw [appendBits_cons, hk]; rfl
    · exact .faulted f hf fun s => by rw [appendBits_cons, hk]; rfl
    · exact .waiting f c hf fun s => by rw [appendBits_cons, hk]; rfl

theorem encLocal_finishValue {e : EncSide wb} {k : State → AppendResult} (count : Nat)
    (newPrev : Option Word32) (h : AppendLocal e k) :
    EncLocal e fun s => finishValue count newPrev (k s) := by
  rcases h with ⟨f, hf, hk⟩ | ⟨f, hf, hk⟩ | ⟨f, rest, hf, hk⟩
  · have hr := encLocal_respond
      { f with enc := { f.enc with prev := newPrev.getD f.enc.prev } } (okResponse count)
    exact hr.after hf fun s => congrArg (finishValue count newPrev) (hk s)
  · exact ⟨f, hf, fun s => congrArg (finishValue count newPrev) (hk s)⟩
  · exact (encLocal_hold f _).after hf fun s => congrArg (finishValue count newPrev) (hk s)

theorem encLocal_encodeValue (e : EncSide wb) (rule : Nat) (x : Int) (newPrev : Option Word32) :
    EncLocal e (encodeValue rule x newPrev) := by
  by_cases hx : inDomain x = true
  · exact (encLocal_finishValue _ newPrev (appendLocal_appendBits (cw x) e)).after (.refl _)
      fun s => encodeValue_inDomain rule newPrev _ hx
  · exact (encLocal_raiseFault e rule .range).after (.refl _) fun s => if_neg hx

/-- DENC_VAL takes its difference from the PREV of the encoder's own side (R191). -/
theorem encLocal_encodeDelta (e : EncSide wb) (v : Word32) : EncLocal e (encodeDelta v) :=
  (encLocal_encodeValue e 191 (signedOperand v - e.enc.prev.toInt) (some v)).after (.refl _)
    fun _ => rfl

theorem encLocal_finishFlush (e : EncSide wb) (nb : Nat) : EncLocal e (finishFlush nb) := by
  rcases sinkLocal_sinkFlush e with ⟨f, hf, hk⟩ | ⟨f, hf, hk⟩ | hk
  · have hr := encLocal_respond { f with enc := { f.enc with efin := true } } (okResponse nb)
    exact hr.after hf fun s => by rw [finishFlush, hk]; rfl
  · exact (encLocal_raiseFault f 137 .sinkIo).after hf fun s => by rw [finishFlush, hk]
  · exact (encLocal_hold e _).after (.refl _) fun s => by rw [finishFlush, hk]

/-- The bytes that the pending bits of the encoder's side need (R137). -/
def EncSide.finishBytes (e : EncSide wb) : Nat := (8 * wb - e.enc.rem + 7) / 8

theorem encLocal_finishStream (e : EncSide wb) : EncLocal e finishStream := by
  by_cases hb : 0 < e.finishBytes
  · have hif : ∀ s, finishStream (e.on s) = _ := fun s => if_pos hb
    have hwrite := sinkLocal_writeAcc (e := e) (nb := finishBytes) e.finishBytes fun _ => rfl
    rcases hwrite with ⟨f, hf, hk⟩ | ⟨f, hf, hk⟩ | hk
    · exact (encLocal_finishFlush f.clearAcc e.finishBytes).after hf fun s => by rw [hif, hk]; rfl
    · exact (encLocal_raiseFault f.clearAcc 137 .sinkIo).after hf fun s => by rw [hif, hk]; rfl
    · exact (encLocal_hold e .tail).after (.refl _) fun s => by rw [hif, hk]
  · exact (encLocal_finishFlush e.clearAcc 0).after (.refl _) fun s => if_neg hb

/-- The checks before a command read the encoder's own EFAULT and EFIN (R225, R228). -/
theorem encLocal_encoderCommand {e : EncSide wb} (rule : Nat) {k : State → State}
    (h : EncLocal e k) : EncLocal e (encoderCommand rule k) := by
  rcases hf : e.enc.efault with _ | f
  · rcases hfin : e.enc.efin with _ | _
    · exact h.after (.refl _) fun s => by simp [encoderCommand, EncSide.on, hf, hfin]
    · exact (encLocal_raiseFault e rule .afterFin).after (.refl _)
        fun s => by simp [encoderCommand, EncSide.on, hf, hfin]
  · exact (encLocal_respond e (refusedResponse f.code)).after (.refl _)
      fun s => by simp [encoderCommand, EncSide.on, hf]

theorem encLocal_startEncoder (e : EncSide wb) (prev : Word32) (r : Response) :
    EncLocal e fun s => respond r (startEncoder prev s) :=
  (encLocal_respond { e with enc := EncUnit.start wb prev } r).after (.refl _) fun _ => rfl

/-- Every command of the encoder, executed while none is in progress, is decided by the encoder's side
and changes nothing else. -/
theorem exec_encoder_local {i : Instr} {e : EncSide wb} (hi : IsEncoderCommand i)
    (he : e.port.held = none) :
    ∃ e' : EncSide wb, e.Ends e' ∧ ∀ s, exec i (e.on s) = .next (e'.on s) := by
  suffices hk : ∃ k, EncLocal e k ∧ ∀ s, exec i s = whenIdle s (k s) by
    obtain ⟨k, ⟨e', hends, hon⟩, hexec⟩ := hk
    exact ⟨e', hends, fun s => by rw [hexec, whenIdle_of_idle _ (by exact he), hon]⟩
  cases i with
  | encInit => exact ⟨_, encLocal_startEncoder e 0 _, fun _ => rfl⟩
  | encOne v =>
    exact ⟨_, encLocal_encoderCommand _ (encLocal_encodeValue e _ _ _), fun _ => rfl⟩
  | encFinish => exact ⟨_, encLocal_encoderCommand _ (encLocal_finishStream e), fun _ => rfl⟩
  | dencStart start => exact ⟨_, encLocal_startEncoder e start _, fun _ => rfl⟩
  | dencVal v => exact ⟨_, encLocal_encoderCommand _ (encLocal_encodeDelta e v), fun _ => rfl⟩
  | decInit => cases hi
  | dec n => cases hi
  | ddecStart base => cases hi
  | ddec n => cases hi
  | statusRead => cases hi
  | cwZero => cases hi
  | cwNonzero n mbits sign => cases hi

end Sys2Proof.Machine
end

section
/-!
PROOF. The decoder's side of the state, as the encoder's above; and from both, that a command ends with
one response or holds, and that the units are independent (R8, R33, R40).
-/

namespace Sys2Proof.Machine

/-! ### The decoder's side -/

/-- The part of the state that the decoder's commands read and write. -/
structure DecSide where
  dec : DecUnit
  port : Port
  srcAnswers : List SrcAnswer
  out : List Word32
  faultLog : List FaultRecord
  freeCount : Nat

/-- The state `s` with its decoder's side replaced. -/
def DecSide.on (d : DecSide) (s : State) : State :=
  { s with
    dec := d.dec, held := d.port.held, cpc := d.port.cpc, srcAnswers := d.srcAnswers, out := d.out
    trace := d.port.trace, faultLog := d.faultLog, freeCount := d.freeCount }

/-- The decoder's side of a state, of which `s.decSide.on s` is the state itself. -/
def State.decSide (s : State) : DecSide :=
  { dec := s.dec, port := s.port, srcAnswers := s.srcAnswers, out := s.out
    faultLog := s.faultLog, freeCount := s.freeCount }

/-- An event of the decoder inside a command: neither a response nor an event at the sink (R68). -/
def Event.IsRead (v : Event) : Prop := v.responses = [] ∧ v.sinkMarks = []

/-- From `d` to `d'` a command of the decoder has gone on. -/
abbrev DecSide.Progress (d d' : DecSide) : Prop := d.port.Progress Event.IsRead d'.port

/-- From `d` to `d'` a command of the decoder has run up to its response or to where it holds. -/
abbrev DecSide.Ends (d d' : DecSide) : Prop := d.port.Ends Event.IsRead d'.port

/-- The command `k` on the decoder's side `d` ends in the same way whatever the rest of the state is. -/
def DecLocal (d : DecSide) (k : State → State) : Prop :=
  ∃ d' : DecSide, d.Ends d' ∧ ∀ s, k (d.on s) = d'.on s

/-- Going on with `k` from a later point of the same command. -/
theorem DecLocal.after {d e : DecSide} {k l : State → State} (hk : DecLocal e k) (h : d.Progress e)
    (hl : ∀ s, l (d.on s) = k (e.on s)) : DecLocal d l := by
  obtain ⟨f, hf, hon⟩ := hk
  exact ⟨f, h.ends hf, fun s => (hl s).trans (hon s)⟩

theorem decLocal_respond (d : DecSide) (r : Response) : DecLocal d (respond r) :=
  ⟨{ d with port := d.port.respond r }, Port.ends_respond r d.port, fun _ => rfl⟩

theorem decLocal_hold (d : DecSide) (p : Held) : DecLocal d (hold p) :=
  ⟨{ d with port := d.port.hold p }, Port.ends_hold p d.port, fun _ => rfl⟩

theorem decLocal_raiseFault (d : DecSide) (rule : Nat) (f : DecFault) :
    DecLocal d (raiseFault rule (.dec f)) :=
  (decLocal_respond
    { d with
      dec := { d.dec with dfault := d.dec.dfault <|> some f }
      faultLog := d.faultLog ++ [⟨rule, d.port.cpc, .dec f⟩] }
    (faultResponse (.dec f) d.out)).after (.refl _) fun _ => rfl

theorem isRead_sourceRead (a : SrcAnswer) : ∀ v ∈ [Event.sourceRead a], v.IsRead := by
  simp [Event.IsRead, Event.responses, Event.sinkMarks]

/-- What NextBit does is decided by the decoder's side. -/
inductive BitLocal (d : DecSide) : Prop
  | bit (b : Bool) (d' : DecSide) (h : d.Progress d') (hk : ∀ s, nextBit (d.on s) = .bit b (d'.on s))
  | eof (d' : DecSide) (h : d.Progress d') (hk : ∀ s, nextBit (d.on s) = .eof (d'.on s))
  | failed (d' : DecSide) (h : d.Progress d') (hk : ∀ s, nextBit (d.on s) = .failed (d'.on s))
  | wait (hk : ∀ s, nextBit (d.on s) = .wait)

theorem bitLocal (d : DecSide) : BitLocal d := by
  by_cases h0 : d.dec.bitsLeft = 0
  · rcases ha : d.srcAnswers with _ | ⟨b | _ | _, rest⟩
    · exact .wait fun s => nextBit_wait (s := d.on s) h0 ha
    · exact .bit (b.getLsbD 7)
        { d with
          dec := { d.dec with byte := b, bitsLeft := 7 }
          srcAnswers := rest
          port := d.port.events [.sourceRead (.byte b)] }
        (Port.progress_events (isRead_sourceRead _)) fun s => nextBit_byte (s := d.on s) h0 ha
    · exact .eof { d with srcAnswers := rest, port := d.port.events [.sourceRead .eof] }
        (Port.progress_events (isRead_sourceRead _)) fun s => nextBit_eof (s := d.on s) h0 ha
    · exact .failed { d with srcAnswers := rest, port := d.port.events [.sourceRead .err] }
        (Port.progress_events (isRead_sourceRead _)) fun s => nextBit_err (s := d.on s) h0 ha
  · exact .bit (d.dec.byte.getLsbD (d.dec.bitsLeft - 1))
      { d with dec := { d.dec with bitsLeft := d.dec.bitsLeft - 1 } } (.refl _)
      fun s => nextBit_buffered (s := d.on s) h0

/-- What a turn of DecodeLoop does is decided by the decoder's side. -/
inductive TurnLocal (d : DecSide) (k : State → LoopStep) : Prop
  | again (d' : DecSide) (h : d.Progress d') (hk : ∀ s, k (d.on s) = .again (d'.on s))
  | stop (d' : DecSide) (h : d.Ends d') (hk : ∀ s, k (d.on s) = .stop (d'.on s))

/-- Going on with `k` from a later point of the same turn. -/
theorem TurnLocal.after {d e : DecSide} {k l : State → LoopStep} (hk : TurnLocal e k)
    (h : d.Progress e) (hl : ∀ s, l (d.on s) = k (e.on s)) : TurnLocal d l := by
  rcases hk with ⟨f, hf, hon⟩ | ⟨f, hf, hon⟩
  · exact .again f (h.trans hf) fun s => (hl s).trans (hon s)
  · exact .stop f (h.ends hf) fun s => (hl s).trans (hon s)

/-- A turn that ends its command. -/
theorem DecLocal.turn {d e : DecSide} {k : State → State} {l : State → LoopStep} (hk : DecLocal e k)
    (h : d.Progress e) (hl : ∀ s, l (d.on s) = .stop (k (e.on s))) : TurnLocal d l := by
  obtain ⟨f, hf, hon⟩ := hk
  exact .stop f (h.ends hf) fun s => by rw [hl, hon]

theorem turnLocal_deliver (d : DecSide) (delta : Bool) (x : Int) :
    TurnLocal d (deliver delta x) := by
  cases delta with
  | false =>
    exact .again { d with out := d.out ++ [s32 x] } (.refl _) fun _ => rfl
  | true =>
    rcases hacc : deltaAccumulate x d.dec with _ | ⟨y, dec⟩
    · exact (decLocal_raiseFault d 194 .sumOvf).turn (.refl _) fun s => by
        simp [deliver, DecSide.on, hacc]
    · exact .again { d with dec := dec, out := d.out ++ [y] } (.refl _)
        fun s => by simp [deliver, DecSide.on, hacc, emit]

theorem turnLocal_parseStep (d : DecSide) (delta b : Bool) : TurnLocal d (parseStep delta b) := by
  rcases hd : decodeBit b d.dec with dec | ⟨x, dec⟩ | _
  · exact .again { d with dec := dec } (.refl _) fun s => by
      simp [parseStep, DecSide.on, hd]
  · exact (turnLocal_deliver { d with dec := dec } delta x).after (.refl _)
      fun s => by simp [parseStep, DecSide.on, hd]
  · exact (decLocal_raiseFault d 161 .overlong).turn (.refl _) fun s => by
      simp [parseStep, DecSide.on, hd]

theorem decLocal_endDecode (d : DecSide) (exhausted : Bool) : DecLocal d (endDecode exhausted) :=
  (decLocal_respond { d with dec := { d.dec with dexh := exhausted } }
    (decodeResponse exhausted d.out)).after (.refl _) fun _ => rfl

theorem turnLocal_loopStep (d : DecSide) (n : Nat) (delta : Bool) :
    TurnLocal d (loopStep n delta) := by
  by_cases hn : d.out.length = n
  · exact (decLocal_endDecode d false).turn (.refl _) fun s => loopStep_full (s := d.on s) hn
  · have hif : ∀ s, loopStep n delta (d.on s) = _ := fun s => if_neg hn
    rcases bitLocal d with ⟨b, e, he, hk⟩ | ⟨e, he, hk⟩ | ⟨e, he, hk⟩ | hk
    · exact (turnLocal_parseStep e delta b).after he fun s => by rw [hif, hk]
    · exact (decLocal_endDecode e true).turn he fun s => by rw [hif, hk]
    · exact (decLocal_raiseFault e 160 .srcIo).turn he fun s => by rw [hif, hk]
    · exact (decLocal_hold d (.read n delta)).turn (.refl _) fun s => by rw [hif, hk]

/-- DecodeLoop, by induction over the bits that stand ready. -/
theorem decLocal_decodeLoop (d : DecSide) (n : Nat) (delta : Bool) :
    DecLocal d (decodeLoop n delta) := by
  suffices hk : ∀ k d, bitsReady (d.on State.reset) < k → DecLocal d (decodeLoop n delta) from
    hk _ d (Nat.lt_succ_self _)
  intro k
  induction k with
  | zero => intro d hk; omega
  | succ k ih =>
    intro d hk
    rcases turnLocal_loopStep d n delta with ⟨e, he, hon⟩ | ⟨e, he, hon⟩
    · have hless := loopStep_again_bitsReady (hon State.reset)
      exact (ih e (by omega)).after he fun s => decodeLoop_again (hon s)
    · exact ⟨e, he, fun s => decodeLoop_stop (hon s)⟩

theorem decLocal_startDecode (d : DecSide) (n : Nat) (delta : Bool) :
    DecLocal d (startDecode n delta) :=
  (decLocal_decodeLoop { d with out := [] } n delta).after (.refl _) fun _ => rfl

/-- The check before a command reads the decoder's own DFAULT (R225). -/
theorem decLocal_decoderCommand {d : DecSide} {k : State → State} (h : DecLocal d k) :
    DecLocal d (decoderCommand k) := by
  rcases hf : d.dec.dfault with _ | f
  · exact h.after (.refl _) fun s => by simp [decoderCommand, DecSide.on, hf]
  · exact (decLocal_respond d (refusedResponse f.code)).after (.refl _)
      fun s => by simp [decoderCommand, DecSide.on, hf]

theorem decLocal_startDecoder (d : DecSide) (base : Word32) (r : Response) :
    DecLocal d fun s => respond r (startDecoder base s) :=
  (decLocal_respond
    { d with dec := DecUnit.start d.freeCount base, freeCount := d.freeCount + 1 } r).after
    (.refl _) fun _ => rfl

/-- Every command of the decoder, executed while none is in progress, is decided by the decoder's side
and changes nothing else. -/
theorem exec_decoder_local {i : Instr} {d : DecSide} (hi : IsDecoderCommand i)
    (hd : d.port.held = none) : ∃ d' : DecSide, d.Ends d' ∧ ∀ s, exec i (d.on s) = .next (d'.on s) := by
  suffices hk : ∃ k, DecLocal d k ∧ ∀ s, exec i s = whenIdle s (k s) by
    obtain ⟨k, ⟨d', hends, hon⟩, hexec⟩ := hk
    exact ⟨d', hends, fun s => by rw [hexec, whenIdle_of_idle _ (by exact hd), hon]⟩
  cases i with
  | decInit => exact ⟨_, decLocal_startDecoder d 0 _, fun _ => rfl⟩
  | dec n => exact ⟨_, decLocal_decoderCommand (decLocal_startDecode d _ _), fun _ => rfl⟩
  | ddecStart base => exact ⟨_, decLocal_startDecoder d base _, fun _ => rfl⟩
  | ddec n => exact ⟨_, decLocal_decoderCommand (decLocal_startDecode d _ _), fun _ => rfl⟩
  | encInit => cases hi
  | encOne v => cases hi
  | encFinish => cases hi
  | dencStart start => cases hi
  | dencVal v => cases hi
  | statusRead => cases hi
  | cwZero => cases hi
  | cwNonzero n mbits sign => cases hi

/-! ### What commands do to the channels -/

theorem command_cases {i : Instr} (h : i.isCommand = true) :
    IsEncoderCommand i ∨ IsDecoderCommand i ∨ i = .statusRead := by
  cases i <;> simp [IsEncoderCommand, IsDecoderCommand, Instr.isCommand] at h ⊢

/-- Settles O10: an encoder command ends on the encoder's side, a decoder command on the decoder's, and
STATUS_READ only responds. -/
theorem commandEndsWithOneResponse : Obligations.CommandEndsWithOneResponse := by
  unfold Obligations.CommandEndsWithOneResponse
  intro i s hi hh
  rcases command_cases hi with henc | hdec | rfl
  · obtain ⟨e, ⟨events, hev, hcase⟩, hexec⟩ := exec_encoder_local (e := s.encSide) henc hh
    exact ⟨e.on s, events, hexec s, List.flatMap_eq_nil_iff.2 fun v hv => (hev v hv).1, hcase⟩
  · obtain ⟨d, ⟨events, hev, hcase⟩, hexec⟩ := exec_decoder_local (d := s.decSide) hdec hh
    exact ⟨d.on s, events, hexec s, List.flatMap_eq_nil_iff.2 fun v hv => (hev v hv).1, hcase⟩
  · exact ⟨respond (statusResponse s.status) s, [], whenIdle_of_idle _ hh, rfl,
      .inl ⟨rfl, rfl, statusResponse s.status, by simp⟩⟩

/-- Settles O59: a command of a unit is a function of that unit's side of the state, and replaces that
side alone. -/
theorem unitsAreIndependent : Obligations.UnitsAreIndependent := by
  unfold Obligations.UnitsAreIndependent
  constructor
  · intro i s hi hh
    obtain ⟨⟨enc, ⟨held, cpc, trace⟩, sinkAs, log⟩, hends, hexec⟩ :=
      exec_encoder_local (e := s.encSide) hi hh
    obtain ⟨events, hev, htrace⟩ :=
      hends.trace_flatMap (f := Event.sourceReads) (fun _ hv => hv.2) fun _ => rfl
    obtain rfl : trace = s.trace ++ events := htrace
    exact ⟨enc, held, cpc, sinkAs, events, log, hev, fun dec out srcAs =>
      hexec { s with dec := dec, out := out, srcAnswers := srcAs }⟩
  · intro i s hi hh
    obtain ⟨⟨dec, ⟨held, cpc, trace⟩, srcAs, out, log, freeCount⟩, hends, hexec⟩ :=
      exec_decoder_local (d := s.decSide) hi hh
    obtain ⟨events, hev, htrace⟩ :=
      hends.trace_flatMap (f := Event.sinkMarks) (fun _ hv => hv.2) fun _ => rfl
    obtain rfl : trace = s.trace ++ events := htrace
    exact ⟨dec, held, cpc, srcAs, out, events, log, freeCount, hev, fun enc sinkAs =>
      hexec { s with enc := enc, sinkAnswers := sinkAs }⟩

end Sys2Proof.Machine
end

section
/-!
PROOF. A finished encoder stream run by the host: its bytes spell the codewords and their padding
(R53, R140), and so do not depend on W (R56).
-/

namespace Sys2Proof

/-- A byte list is determined by its bits (R54). -/
theorem bitsOfBytes_injective {a b : List Byte} (h : bitsOfBytes a = bitsOfBytes b) : a = b := by
  induction a generalizing b with
  | nil =>
    have hlen := congrArg List.length h
    rw [bitsOfBytes_length, bitsOfBytes_length, List.length_nil] at hlen
    exact (List.length_eq_zero_iff.1 (by omega)).symm
  | cons x a ih =>
    cases b with
    | nil => simp [bitsOf] at h
    | cons y b =>
      rw [bitsOfBytes_cons, bitsOfBytes_cons] at h
      obtain ⟨hxy, hab⟩ := List.append_inj h (by simp)
      rw [BitVec.eq_of_toNat_eq (bitsOf_injective x.isLt y.isLt hxy), ih hab]

namespace Machine

/-! ### Lengths -/

/-- The class of a value in the domain is at most NBITS_MAX (R6, R111). -/
theorem magnitudeClass_le {v : Int} (h : inDomain v = true) : magnitudeClass v ≤ 30 := by
  have hlow := (magnitudeClass_bounds v).1
  have hmag := biasedMagnitude_le h
  by_contra hgt
  have h31 : 2 ^ 31 ≤ 2 ^ magnitudeClass v := Nat.pow_le_pow_right (by norm_num) (by omega)
  omega

/-- No codeword of the domain is longer than 62 bits (R112). -/
theorem cw_length_le {v : Int} (h : inDomain v = true) : (cw v).length ≤ 62 := by
  have hclass := magnitudeClass_le h
  unfold cw
  split
  · simp
  · simp only [List.length_append, List.length_replicate, bitsOf_length]; omega

/-- Between two bits, `k` more bits fill at most `k` words. -/
theorem wordsFilled_le {s : State} (hw : s.LegalWidth) (h : s.AccReady) (k : Nat) :
    s.wordsFilled k ≤ k := by
  have hpos : 1 ≤ s.wordBytes := hw
  have hrem := h.rem_pos
  have hwidth : s.width = 8 * s.wordBytes := rfl
  have hpending : s.pendingCount = s.width - s.enc.rem := rfl
  have hmul : k ≤ s.width * k := Nat.le_mul_of_pos_left k (by omega)
  refine Nat.lt_succ_iff.1 (Nat.div_lt_of_lt_mul ?_)
  rw [Nat.mul_succ]
  omega

/-- The padding depends on the bits after the last whole byte only (R140). -/
theorem padding_add_bytes (j k : Nat) : padding (8 * j + k) = padding k := by
  simp [padding]

/-! ### A sink that accepts -/

theorem State.SinkAccepts.mono {s : State} {j k : Nat} (h : s.SinkAccepts k) (hjk : j ≤ k) :
    s.SinkAccepts j :=
  ⟨hjk.trans h.1, fun a ha => h.2 a (List.take_subset_take_left _ hjk ha)⟩

/-- After `j` operations, a sink that accepts `j + k` of them accepts `k` more. -/
theorem State.SinkAccepts.drop {s t : State} {j k : Nat} (h : s.SinkAccepts (j + k))
    (ht : t.sinkAnswers = s.sinkAnswers.drop j) : t.SinkAccepts k := by
  obtain ⟨hlen, hall⟩ := h
  refine ⟨by rw [ht, List.length_drop]; omega, fun a ha => hall a ?_⟩
  rw [List.take_add]
  exact List.mem_append_right _ (ht ▸ ha)

theorem State.SinkAccepts.succ {s : State} {k : Nat} (h : s.SinkAccepts (k + 1)) :
    ∃ rest, s.sinkAnswers = .ok :: rest := by
  obtain ⟨hlen, hall⟩ := h
  rcases hs : s.sinkAnswers with _ | ⟨a, rest⟩
  · simp [hs] at hlen
  · exact ⟨rest, by rw [hall a (by simp [hs])]⟩

/-! ### What a run shows at the sink -/

/-- From `s` to `t` the sink has received `marks`, and no fault is recorded. -/
structure Emits (marks : List SinkMark) (s t : State) : Prop where
  trace : ∃ events, t.trace = s.trace ++ events ∧ events.flatMap Event.sinkMarks = marks
  faultLog : t.faultLog = s.faultLog

theorem Emits.trans {a b : List SinkMark} {s t u : State} (h : Emits a s t) (k : Emits b t u) :
    Emits (a ++ b) s u := by
  obtain ⟨v, hv, hva⟩ := h.trace
  obtain ⟨w, hw, hwb⟩ := k.trace
  exact ⟨⟨v ++ w, by rw [hw, hv, List.append_assoc], by rw [List.flatMap_append, hva, hwb]⟩,
    k.faultLog.trans h.faultLog⟩

theorem Emits.logStatus {marks : List SinkMark} {s t : State} (h : Emits marks s t) :
    Emits marks s (logStatus t) :=
  ⟨by simpa using h.trace, by simpa using h.faultLog⟩

/-- The byte that a mark shows, if it is not a flush. -/
def SinkMark.byte? : SinkMark → Option Byte
  | .byte b => some b
  | .flush => none

theorem filterMap_bytes (bs : List Byte) :
    (bs.map SinkMark.byte).filterMap SinkMark.byte? = bs := by
  rw [List.filterMap_map]
  exact List.filterMap_some

theorem sinkBytes_eq_filterMap (v : Event) : v.sinkBytes = v.sinkMarks.filterMap SinkMark.byte? := by
  cases v with
  | sinkWrite bs => exact (filterMap_bytes bs).symm
  | _ => rfl

/-- The bytes among the marks are the bytes that the sink has received. -/
theorem Emits.sinkBytes {marks : List SinkMark} {s t : State} (h : Emits marks s t) :
    t.sinkBytes = s.sinkBytes ++ marks.filterMap SinkMark.byte? := by
  obtain ⟨events, htrace, rfl⟩ := h.trace
  have hbytes := funext sinkBytes_eq_filterMap
  rw [State.sinkBytes, htrace, List.flatMap_append, List.filterMap_flatMap, ← hbytes]
  rfl

theorem filterMap_bytes_flush (bs : List Byte) :
    (bs.map SinkMark.byte ++ [SinkMark.flush]).filterMap SinkMark.byte? = bs := by
  rw [List.filterMap_append, filterMap_bytes]
  exact List.append_nil bs

theorem sinkMarks_writes (words : List (List Byte)) :
    (words.map Event.sinkWrite).flatMap Event.sinkMarks = words.flatten.map SinkMark.byte := by
  rw [List.flatMap_map, List.flatMap_def, List.map_flatten]
  rfl

/-! ### The commands of a stream -/

/-- Between two commands of an encoder stream. -/
structure State.Streaming (s : State) : Prop where
  width : s.LegalWidth
  isOpen : s.EncoderOpen
  ready : s.AccReady

theorem State.Streaming.logStatus {s : State} (h : s.Streaming) : (logStatus s).Streaming := by
  obtain ⟨values, e⟩ := logStatus_frame s
  rw [e]
  exact ⟨h.width, ⟨h.isOpen.idle, h.isOpen.noFault, h.isOpen.notFinished⟩,
    ⟨⟨h.ready.rem_le, h.ready.unused_zero⟩, h.ready.rem_pos⟩⟩

@[simp] theorem logStatus_pendingBits (s : State) : (logStatus s).pendingBits = s.pendingBits := by
  obtain ⟨values, e⟩ := logStatus_frame s
  rw [e]; rfl

/-- The value that one command of a stream encodes, from a PREV (R136, R191). -/
def encodedValue (prev : Word32) (x : Bool × Word32) : Int :=
  if x.1 then x.2.toInt - prev.toInt else x.2.toInt

/-- The PREV that the command leaves: only DENC_VAL changes it (R198). -/
def prevAfter (prev : Word32) (x : Bool × Word32) : Word32 := if x.1 then x.2 else prev

theorem encodedValues_cons (prev : Word32) (x : Bool × Word32) (xs : List (Bool × Word32)) :
    encodedValues prev (x :: xs) = encodedValue prev x :: encodedValues (prevAfter prev x) xs := by
  obtain ⟨_ | _, v⟩ := x <;> rfl

/-- ENC_ONE and DENC_VAL on an open encoder append the codeword of their value (R136, R191). -/
theorem exec_valueCommand {s : State} (h : s.EncoderOpen) (x : Bool × Word32)
    (hd : inDomain (encodedValue s.enc.prev x) = true) :
    exec (valueCommand x) s =
      .next (finishValue (cw (encodedValue s.enc.prev x)).length (if x.1 then some x.2 else none)
        (appendBits (cw (encodedValue s.enc.prev x)) s)) := by
  obtain ⟨_ | _, v⟩ := x
  · refine (whenIdle_of_idle _ h.idle).trans ?_
    rw [encoderCommand_open _ _ h]
    exact congrArg _ (encodeValue_inDomain 136 none s hd)
  · refine (whenIdle_of_idle _ h.idle).trans ?_
    rw [encoderCommand_open _ _ h]
    exact congrArg _ (encodeValue_inDomain 191 (some v) s hd)

/-- A value command with a sink that accepts: what it hands the sink and what it leaves pending spell
what was pending and then the codeword (R139). -/
theorem exec_valueCommand_streaming {s : State} (h : s.Streaming) (x : Bool × Word32)
    (hd : inDomain (encodedValue s.enc.prev x) = true) (hs : s.SinkAccepts 62) :
    ∃ t bs j, exec (valueCommand x) s = .next t ∧ t.Streaming ∧
      t.enc.prev = prevAfter s.enc.prev x ∧ Emits (bs.map SinkMark.byte) s t ∧
      bitsOfBytes bs ++ t.pendingBits = s.pendingBits ++ cw (encodedValue s.enc.prev x) ∧
      j ≤ 62 ∧ t.sinkAnswers = s.sinkAnswers.drop j := by
  have hfill : s.wordsFilled (cw (encodedValue s.enc.prev x)).length ≤ 62 :=
    (wordsFilled_le h.width h.ready _).trans (cw_length_le hd)
  obtain ⟨words, t, happend, ht⟩ := appendBits_appended _ h.width h.ready (hs.mono hfill)
  obtain ⟨acc, rem, hframe⟩ := ht.frame
  have hbits := ht.bits
  have hready := ht.ready
  rw [exec_valueCommand h.isOpen x hd, happend]
  subst hframe
  refine ⟨_, words.flatten, words.length, rfl, ?_, ?_, ⟨⟨words.map Event.sinkWrite ++
    [.response (okResponse (cw (encodedValue s.enc.prev x)).length)], ?_, ?_⟩, rfl⟩, hbits,
    ht.words_count.trans_le hfill, rfl⟩
  · exact ⟨h.width, ⟨rfl, h.isOpen.noFault, h.isOpen.notFinished⟩,
      ⟨⟨hready.rem_le, hready.unused_zero⟩, hready.rem_pos⟩⟩
  · obtain ⟨_ | _, v⟩ := x <;> rfl
  · exact List.append_assoc _ _ _
  · rw [List.flatMap_append, sinkMarks_writes]; simp [Event.sinkMarks]

/-- The flush of ENC_FINISH at a sink that accepts it (R137). -/
theorem finishFlush_ok (nb : Nat) {s : State} {rest : List SinkAnswer}
    (hs : s.sinkAnswers = .ok :: rest) :
    finishFlush nb s = respond (okResponse nb) { s with
      enc := { s.enc with efin := true }
      sinkAnswers := rest
      trace := s.trace ++ [.sinkFlush] } := by
  rcases finishFlush_cases nb s with ⟨he, -⟩ | ⟨r, he, e⟩ | ⟨l, r, he, -⟩ <;> rw [hs] at he <;>
    cases he
  exact e

/-- ENC_FINISH with a sink that accepts hands it the pending bits, padded to whole bytes, and a flush
(R137, R140). -/
theorem exec_encFinish_streaming {s : State} (h : s.Streaming) (hs : s.SinkAccepts 2) :
    ∃ t bs, exec .encFinish s = .next t ∧ t.held = none ∧ t.enc.efin = true ∧
      Emits (bs.map SinkMark.byte ++ [.flush]) s t ∧
      bitsOfBytes bs = s.pendingBits ++ padding s.pendingCount := by
  have hexec : exec .encFinish s = .next (finishStream s) :=
    (whenIdle_of_idle _ h.isOpen.idle).trans (by rw [encoderCommand_open _ _ h.isOpen])
  obtain ⟨rest, hrest⟩ := hs.succ
  have hbits := bitsOfBytes_finishBytes h.ready
  rw [hexec]
  by_cases hb : finishBytes s = 0
  · rw [finishStream_empty hb, finishFlush_ok 0 (s := clearAcc s) hrest]
    refine ⟨_, [], rfl, rfl, rfl, ⟨⟨[.sinkFlush, .response (okResponse 0)], ?_, rfl⟩, rfl⟩, ?_⟩
    · exact List.append_assoc _ _ _
    · rw [hb] at hbits; exact hbits
  · have hs' : State.SinkAccepts { s with sinkAnswers := rest } 1 :=
      State.SinkAccepts.drop (s := s) (j := 1) hs (by simp [hrest])
    obtain ⟨rest', hrest'⟩ := hs'.succ
    rcases finishStream_cases (Nat.pos_of_ne_zero hb) with ⟨he, -⟩ | ⟨r, he, e⟩ | ⟨l, r, he, -⟩ <;>
      rw [hrest] at he <;> cases he
    rw [e, finishFlush_ok _ (by exact hrest')]
    refine ⟨_, accBytes s.enc.acc (finishBytes s), rfl, rfl, rfl,
      ⟨⟨[.sinkWrite (accBytes s.enc.acc (finishBytes s)), .sinkFlush,
        .response (okResponse (finishBytes s))], ?_, ?_⟩, rfl⟩, hbits⟩
    · simp
    · simp [Event.sinkMarks]

/-- A start leaves an empty stream with the PREV it gives, and hands the sink nothing (R135, R190). -/
theorem exec_startCommand (start : Option Word32) {s : State} (hw : s.LegalWidth)
    (hh : s.held = none) :
    ∃ t, exec (startCommand start) s = .next t ∧ t.Streaming ∧ t.enc.prev = start.getD 0 ∧
      Emits [] s t ∧ t.pendingBits = [] ∧ t.sinkAnswers = s.sinkAnswers := by
  have hexec : exec (startCommand start) s =
      .next (respond (okResponse 0) (startEncoder (start.getD 0) s)) := by
    cases start <;> exact whenIdle_of_idle _ hh
  have hwidth : 1 ≤ 8 * s.wordBytes := by have : 1 ≤ s.wordBytes := hw; omega
  refine ⟨_, hexec, ⟨hw, ⟨rfl, rfl, rfl⟩, ⟨⟨le_rfl, fun i _ => startEncoder_acc_bit _ s i⟩, hwidth⟩⟩,
    rfl, ⟨⟨[.response (okResponse 0)], rfl, rfl⟩, rfl⟩, ?_, rfl⟩
  simp [State.pendingBits, State.pendingCount, State.width]

/-! ### The whole stream -/

/-- The value commands of a stream and its ENC_FINISH, by induction over the values: the bytes spell
the bits pending before, the codewords, and the padding (R53, R139, R140). -/
theorem runCommands_values (arrivals : List Arrival) (xs : List (Bool × Word32)) {s : State}
    (h : s.Streaming) (hd : ∀ d ∈ encodedValues s.enc.prev xs, inDomain d = true)
    (hs : s.SinkAccepts (62 * xs.length + 2)) :
    ∃ t bs, runCommands (xs.map valueCommand ++ [.encFinish]) arrivals s = .next (t, arrivals) ∧
      t.enc.efin = true ∧ Emits (bs.map SinkMark.byte ++ [.flush]) s t ∧
      bitsOfBytes bs = s.pendingBits ++ codewordStream (encodedValues s.enc.prev xs) ++
        padding (s.pendingBits ++ codewordStream (encodedValues s.enc.prev xs)).length := by
  induction xs generalizing s with
  | nil =>
    obtain ⟨t, bs, hexec, hheld, hefin, hemits, hbits⟩ := exec_encFinish_streaming h hs
    refine ⟨logStatus t, bs, runCommands_cons_completes [] arrivals hexec hheld, by simpa using hefin,
      hemits.logStatus, ?_⟩
    simpa [encodedValues, codewordStream, pendingBits_length] using hbits
  | cons x xs ih =>
    rw [encodedValues_cons, List.forall_mem_cons] at hd
    obtain ⟨hx, hxs⟩ := hd
    obtain ⟨t, bs, j, hexec, ht, hprev, hemits, hbits, hj, hanswers⟩ :=
      exec_valueCommand_streaming h x hx (hs.mono (by simp; omega))
    have hs' : (logStatus t).SinkAccepts (62 * xs.length + 2) :=
      State.SinkAccepts.drop (j := j) (hs.mono (by simp; omega)) (by simpa using hanswers)
    obtain ⟨u, cs, hrun, hefin, hemits', hbits'⟩ :=
      ih ht.logStatus (by rw [logStatus_enc_prev, hprev]; exact hxs) hs'
    refine ⟨u, bs ++ cs, ?_, hefin, ?_, ?_⟩
    · exact (runCommands_cons_completes _ arrivals hexec ht.isOpen.idle).trans hrun
    · simpa using hemits.logStatus.trans hemits'
    · have hstream : codewordStream (encodedValues s.enc.prev (x :: xs)) =
          cw (encodedValue s.enc.prev x) ++
            codewordStream (encodedValues (prevAfter s.enc.prev x) xs) := by
        simp [encodedValues_cons, codewordStream]
      rw [logStatus_pendingBits, logStatus_enc_prev, hprev] at hbits'
      rw [hstream, ← List.append_assoc, ← hbits, bitsOfBytes_append, hbits']
      simp only [List.append_assoc, List.length_append (as := bitsOfBytes bs), bitsOfBytes_length,
        padding_add_bytes]

/-- A finished stream, run by the host from any state between commands with a sink that accepts: it
completes with no fault, and the sink gets the codewords' bits padded to bytes, and then a flush
(R53, R140). -/
theorem runCommands_streamCommands (arrivals : List Arrival) (start : Option Word32)
    (xs : List (Bool × Word32)) {s : State} (hw : s.LegalWidth) (hh : s.held = none)
    (hd : ∀ d ∈ encodedValues (start.getD 0) xs, inDomain d = true)
    (hs : s.SinkAccepts (62 * xs.length + 2)) :
    ∃ t bs, runCommands (streamCommands start xs) arrivals s = .next (t, arrivals) ∧
      t.enc.efin = true ∧ Emits (bs.map SinkMark.byte ++ [.flush]) s t ∧
      bitsOfBytes bs = codewordStream (encodedValues (start.getD 0) xs) ++
        padding (codewordStream (encodedValues (start.getD 0) xs)).length := by
  obtain ⟨u, hexec, hu, hprev, hemits, hpending, hanswers⟩ := exec_startCommand start hw hh
  have hs' : (logStatus u).SinkAccepts (62 * xs.length + 2) :=
    State.SinkAccepts.drop (j := 0) (by simpa using hs) (by simpa using hanswers)
  obtain ⟨t, bs, hrun, hefin, hemits', hbits⟩ := runCommands_values arrivals xs hu.logStatus
    (by rwa [logStatus_enc_prev, hprev]) hs'
  refine ⟨t, bs, ?_, hefin, hemits.logStatus.trans hemits', ?_⟩
  · exact (runCommands_cons_completes _ arrivals hexec hu.isOpen.idle).trans hrun
  · simpa [hpending, hprev] using hbits

/-- Settles O44: on both machines the bytes spell the same bits, in which W does not occur. -/
theorem finishedStreamIndependentOfWidth : Obligations.FinishedStreamIndependentOfWidth := by
  unfold Obligations.FinishedStreamIndependentOfWidth
  intro s t s' t' a b a' b' start xs hws hwt hhs hht hd hss hst hrunS hrunT
  obtain ⟨u, bs, hrunU, -, hemitsU, hbitsU⟩ := runCommands_streamCommands a start xs hws hhs hd hss
  obtain ⟨v, cs, hrunV, -, hemitsV, hbitsV⟩ := runCommands_streamCommands b start xs hwt hht hd hst
  cases hrunU.symm.trans hrunS
  cases hrunV.symm.trans hrunT
  obtain rfl : bs = cs := bitsOfBytes_injective (hbitsU.trans hbitsV.symm)
  exact ⟨bs, by rw [hemitsU.sinkBytes, filterMap_bytes_flush],
    by rw [hemitsV.sinkBytes, filterMap_bytes_flush]⟩

end Machine

end Sys2Proof
end

section
/-!
PROOF. The step case by case; and the unspecified registers. `live` sets them to 0, so two states with
the same `live` agree but for them: every operation of a command takes such states to such states, and
so does a step (R26, R28, R29).
-/

namespace Sys2Proof.Machine

/-! ### The step, case by case -/

theorem step_of_reset {s : State} (h : s.resetIn = true) :
    step s = .next (logStatus (applyReset s)) := by
  simp [step, h]

theorem step_of_held {s : State} {p : Held} (hr : s.resetIn = false) (hp : s.held = some p) :
    step s = .next (logStatus (resume p s)) := by
  simp [step, hr, hp]

theorem step_of_no_fetch {s : State} (hr : s.resetIn = false) (hh : s.held = none)
    (hf : fetch s = none) : step s = .next s := by
  simp [step, hr, hh, hf]

theorem step_of_illegal {s : State} {w : CmdWord} {e : DecodeError} (hr : s.resetIn = false)
    (hh : s.held = none) (hf : fetch s = some w) (hd : decodeCommand w = .error e) :
    step s = .next (logStatus (illegalCommand s)) := by
  simp [step, hr, hh, hf, hd]

/-- Settles O8: past the last command word nothing is fetched. -/
theorem idleKeepsState : Obligations.IdleKeepsState := by
  unfold Obligations.IdleKeepsState
  intro s hr hh hlen
  exact step_of_no_fetch hr hh (List.getElem?_eq_none hlen)

/-! ### Registers that agree but for dead ones -/

/-- The decoders agree but for BYTE while no bit is left in it, MAG in CZ, and SREM outside SB. -/
structure DecUnit.Agree (d e : DecUnit) : Prop where
  bitsLeft : d.bitsLeft = e.bitsLeft
  dstate : d.dstate = e.dstate
  zrun : d.zrun = e.zrun
  base : d.base = e.base
  dexh : d.dexh = e.dexh
  dfault : d.dfault = e.dfault
  byte : d.bitsLeft ≠ 0 → d.byte = e.byte
  mag : d.dstate ≠ .cz → d.mag = e.mag
  srem : d.dstate = .sb → d.srem = e.srem

/-- What reads no dead register has one value on two decoders with the same live ones. -/
theorem DecUnit.eq_of_live_eq {α : Type} {d e : DecUnit} (h : d.live = e.live) (f : DecUnit → α)
    (hf : ∀ d, f d = f d.live) : f d = f e := by
  rw [hf d, h, ← hf e]

theorem DecUnit.agree_of_live_eq {d e : DecUnit} (h : d.live = e.live) : d.Agree e := by
  have hbits := DecUnit.eq_of_live_eq h DecUnit.bitsLeft fun _ => rfl
  have hstate := DecUnit.eq_of_live_eq h DecUnit.dstate fun _ => rfl
  have hbyte := congrArg DecUnit.byte h
  have hmag := congrArg DecUnit.mag h
  have hsrem := congrArg DecUnit.srem h
  simp only [DecUnit.live, ← hbits, ← hstate] at hbyte hmag hsrem
  exact {
    bitsLeft := hbits
    dstate := hstate
    zrun := DecUnit.eq_of_live_eq h DecUnit.zrun fun _ => rfl
    base := DecUnit.eq_of_live_eq h DecUnit.base fun _ => rfl
    dexh := DecUnit.eq_of_live_eq h DecUnit.dexh fun _ => rfl
    dfault := DecUnit.eq_of_live_eq h DecUnit.dfault fun _ => rfl
    byte := fun h0 => by simpa only [if_neg h0] using hbyte
    mag := fun h0 => by simpa only [if_neg h0] using hmag
    srem := fun h0 => by simpa only [if_pos h0] using hsrem }

theorem DecUnit.Agree.live_eq {d e : DecUnit} (h : d.Agree e) : d.live = e.live := by
  unfold DecUnit.live
  rw [h.zrun, h.base, h.dexh, h.dfault]
  congr 1
  · rw [← h.bitsLeft]; exact ite_congr rfl (fun _ => rfl) h.byte
  · exact h.bitsLeft
  · exact h.dstate
  · rw [← h.dstate]; exact ite_congr rfl (fun _ => rfl) h.mag
  · rw [← h.dstate]; exact ite_congr rfl h.srem fun _ => rfl

theorem DecUnit.Agree.withBase {d e : DecUnit} (h : d.Agree e) (base : Word32) :
    DecUnit.Agree { d with base := base } { e with base := base } :=
  { h with base := rfl }

/-- DecodeBit reads no dead register: what it does to two decoders that agree (R161 to R165). -/
inductive ParseAgree (b : Bool) (d e : DecUnit) : Prop
  | noValue (d' e' : DecUnit) (hd : decodeBit b d = .noValue d') (he : decodeBit b e = .noValue e')
      (h : d'.Agree e')
  | value (x : Int) (d' e' : DecUnit) (hd : decodeBit b d = .value x d')
      (he : decodeBit b e = .value x e') (h : d'.Agree e')
  | overlong (hd : decodeBit b d = .overlong) (he : decodeBit b e = .overlong)

theorem DecUnit.Agree.decodeBit (b : Bool) {d e : DecUnit} (h : d.Agree e) : ParseAgree b d e := by
  have hz := h.zrun
  have hs := h.dstate
  rcases hd : d.dstate with _ | _ | _ <;> rw [hd] at hs
  · cases b
    · by_cases h30 : d.zrun = 30
      · exact .overlong (decodeBit_cz_overlong hd h30) (decodeBit_cz_overlong hs.symm (hz ▸ h30))
      · exact .noValue _ _ (decodeBit_cz_zero hd h30) (decodeBit_cz_zero hs.symm (hz ▸ h30))
          { h with zrun := congrArg (· + 1) hz }
    · by_cases h0 : d.zrun = 0
      · exact .value 0 d e (decodeBit_cz_one_zero hd h0) (decodeBit_cz_one_zero hs.symm (hz ▸ h0)) h
      · exact .noValue _ _ (decodeBit_cz_one_pos hd h0) (decodeBit_cz_one_pos hs.symm (hz ▸ h0))
          { h with dstate := rfl, mag := fun _ => rfl, srem := fun _ => hz }
  · have hmag := h.mag (by simp [hd])
    have hsrem := h.srem hd
    exact .noValue _ _ (decodeBit_sb b hd) (decodeBit_sb b hs.symm)
      { h with
        dstate := by simp only [hsrem]
        mag := fun _ => by simp only [hmag]
        srem := fun _ => by simp only [hsrem] }
  · have hmag := h.mag (by simp [hd])
    have he := decodeBit_rs b hs.symm
    rw [← hmag] at he
    exact .value _ _ _ (decodeBit_rs b hd) he
      { h with zrun := rfl, dstate := rfl, mag := fun _ => rfl, srem := fun h => nomatch h }

/-! ### States that agree but for dead registers -/

/-- What reads no dead register has one value on two states with the same live ones. -/
theorem State.eq_of_live_eq {α : Type} {s t : State} (h : s.live = t.live) (f : State → α)
    (hf : ∀ u, f u = f u.live) : f s = f t := by
  rw [hf s, h, ← hf t]

theorem State.dec_agree {s t : State} (h : s.live = t.live) : s.dec.Agree t.dec :=
  DecUnit.agree_of_live_eq (congrArg State.dec h)

/-- The decoders of two such states are replaced by two that agree. -/
theorem live_withDec {s t : State} (h : s.live = t.live) {d e : DecUnit} (hd : d.Agree e) :
    State.live { s with dec := d } = State.live { t with dec := e } :=
  (congrArg (fun u : State => { u with dec := d.live }) h).trans
    (congrArg (fun x => { t.live with dec := x }) hd.live_eq)

theorem live_respond {s t : State} (h : s.live = t.live) (r : Response) :
    (respond r s).live = (respond r t).live :=
  congrArg (respond r) h

theorem live_hold {s t : State} (h : s.live = t.live) (p : Held) :
    (hold p s).live = (hold p t).live :=
  congrArg (hold p) h

theorem live_emit {s t : State} (h : s.live = t.live) (x : Word32) :
    (emit x s).live = (emit x t).live :=
  congrArg (emit x) h

theorem logStatus_live (s : State) : (logStatus s).live = logStatus s.live := by
  cases hh : s.held with
  | none => rw [logStatus_of_idle hh, logStatus_of_idle (s := s.live) hh]; rfl
  | some p => rw [logStatus_of_held hh, logStatus_of_held (s := s.live) hh]

theorem live_logStatus {s t : State} (h : s.live = t.live) :
    (logStatus s).live = (logStatus t).live := by
  rw [logStatus_live, logStatus_live, h]

theorem live_raiseFault_dec {s t : State} (h : s.live = t.live) (rule : Nat) (f : DecFault) :
    (raiseFault rule (.dec f) s).live = (raiseFault rule (.dec f) t).live :=
  congrArg (raiseFault rule (.dec f)) h

/-- A start leaves its dead registers unspecified (R166, R193). -/
theorem live_startDecoder {s t : State} (h : s.live = t.live) (base : Word32) :
    (startDecoder base s).live = (startDecoder base t).live :=
  State.eq_of_live_eq h (fun u => (startDecoder base u).live) fun _ => rfl

theorem live_applyReset {s t : State} (h : s.live = t.live) :
    (applyReset s).live = (applyReset t).live :=
  State.eq_of_live_eq h (fun u => (applyReset u).live) fun _ => rfl

/-- What is decided by the encoder's side reads no register of the decoder. -/
theorem EncLocal.live {s t : State} {k : State → State} (hk : EncLocal s.encSide k)
    (h : s.live = t.live) : (k s).live = (k t).live := by
  obtain ⟨e, -, hon⟩ := hk
  have ht : s.encSide.on t = t := by
    change s.live.encSide.on t = t
    rw [h]; rfl
  have hks : k s = e.on s := hon s
  have hkt : k t = e.on t := by rw [← hon t, ht]
  rw [hks, hkt]
  exact congrArg e.on h

/-! ### DecodeLoop -/

/-- NextBit reads BYTE only while a bit is left in it (R26, R160). -/
inductive BitAgree (s t : State) : Prop
  | bit (b : Bool) (s' t' : State) (hs : nextBit s = .bit b s') (ht : nextBit t = .bit b t')
      (h : s'.live = t'.live)
  | eof (s' t' : State) (hs : nextBit s = .eof s') (ht : nextBit t = .eof t') (h : s'.live = t'.live)
  | failed (s' t' : State) (hs : nextBit s = .failed s') (ht : nextBit t = .failed t')
      (h : s'.live = t'.live)
  | wait (hs : nextBit s = .wait) (ht : nextBit t = .wait)

theorem bitAgree {s t : State} (h : s.live = t.live) : BitAgree s t := by
  have hd := State.dec_agree h
  have hbits := hd.bitsLeft
  have hsrc : s.srcAnswers = t.srcAnswers :=
    State.eq_of_live_eq h State.srcAnswers fun _ => rfl
  by_cases h0 : s.dec.bitsLeft = 0
  · have ht0 : t.dec.bitsLeft = 0 := hbits ▸ h0
    have hread : ∀ a rest, State.live { s with
          srcAnswers := rest, trace := s.trace ++ [Event.sourceRead a] } =
        State.live { t with srcAnswers := rest, trace := t.trace ++ [Event.sourceRead a] } :=
      fun a rest => congrArg (fun u : State =>
        { u with srcAnswers := rest, trace := u.trace ++ [Event.sourceRead a] }) h
    rcases ha : s.srcAnswers with _ | ⟨b | _ | _, rest⟩ <;> rw [ha] at hsrc
    · exact .wait (nextBit_wait h0 ha) (nextBit_wait ht0 hsrc.symm)
    · exact .bit _ _ _ (nextBit_byte h0 ha) (nextBit_byte ht0 hsrc.symm)
        (live_withDec (hread (.byte b) rest) { hd with bitsLeft := rfl, byte := fun _ => rfl })
    · exact .eof _ _ (nextBit_eof h0 ha) (nextBit_eof ht0 hsrc.symm) (hread .eof rest)
    · exact .failed _ _ (nextBit_err h0 ha) (nextBit_err ht0 hsrc.symm) (hread .err rest)
  · have ht := nextBit_buffered (s := t) (hbits ▸ h0)
    rw [← hbits, ← hd.byte h0] at ht
    exact .bit _ _ _ (nextBit_buffered h0) ht
      (live_withDec h { hd with bitsLeft := rfl, byte := fun _ => hd.byte h0 })

/-- Both turns go round again, or both end, in states that agree but for dead registers. -/
abbrev TurnsAgree : LoopStep → LoopStep → Prop :=
  LoopRelated (fun s t => s.live = t.live) (fun s t => s.live = t.live)

theorem turnsAgree_deliver {s t : State} (h : s.live = t.live) (delta : Bool) (x : Int) :
    TurnsAgree (deliver delta x s) (deliver delta x t) := by
  have hd := State.dec_agree h
  cases delta with
  | false => exact live_emit h _
  | true =>
    by_cases hf : fitsS32 (s.dec.base.toInt + x) = true
    · have ht : fitsS32 (t.dec.base.toInt + x) = true := hd.base ▸ hf
      simp only [deliver, deltaAccumulate, hf, ht, if_true]
      rw [hd.base]
      exact live_emit (live_withDec h (hd.withBase _)) _
    · have ht : ¬ fitsS32 (t.dec.base.toInt + x) = true := hd.base ▸ hf
      simp only [deliver, deltaAccumulate, hf, ht, if_true]
      exact live_raiseFault_dec h 194 .sumOvf

theorem turnsAgree_parseStep {s t : State} (h : s.live = t.live) (delta b : Bool) :
    TurnsAgree (parseStep delta b s) (parseStep delta b t) := by
  unfold parseStep
  rcases (State.dec_agree h).decodeBit b with ⟨d, e, hd, he, ha⟩ | ⟨x, d, e, hd, he, ha⟩ | ⟨hd, he⟩ <;>
    rw [hd, he]
  · exact live_withDec h ha
  · exact turnsAgree_deliver (live_withDec h ha) delta x
  · exact live_raiseFault_dec h 161 .overlong

theorem live_endDecode {s t : State} (h : s.live = t.live) (exhausted : Bool) :
    (endDecode exhausted s).live = (endDecode exhausted t).live :=
  congrArg (endDecode exhausted) h

theorem turnsAgree_loopStep (n : Nat) (delta : Bool) {s t : State} (h : s.live = t.live) :
    TurnsAgree (loopStep n delta s) (loopStep n delta t) := by
  have hout : s.out = t.out :=
    State.eq_of_live_eq h State.out fun _ => rfl
  unfold loopStep
  rw [← hout]
  split
  · exact live_endDecode h false
  · rcases bitAgree h with ⟨b, s', t', hs, ht, h'⟩ | ⟨s', t', hs, ht, h'⟩ | ⟨s', t', hs, ht, h'⟩ |
      ⟨hs, ht⟩ <;> rw [hs, ht]
    · exact turnsAgree_parseStep h' delta b
    · exact live_endDecode h' true
    · exact live_raiseFault_dec h' 160 .srcIo
    · exact live_hold h _

theorem live_decodeLoop (n : Nat) (delta : Bool) {s t : State} (h : s.live = t.live) :
    (decodeLoop n delta s).live = (decodeLoop n delta t).live :=
  decodeLoop_induct₂ (fun _ _ => turnsAgree_loopStep n delta) s t h

/-! ### Commands and the step -/

theorem live_decoderCommand {s t : State} (h : s.live = t.live) {k : State → State}
    (hk : (k s).live = (k t).live) : (decoderCommand k s).live = (decoderCommand k t).live := by
  unfold decoderCommand
  rw [(State.dec_agree h).dfault]
  split
  · exact live_respond h _
  · exact hk

theorem live_startDecode (n : Nat) (delta : Bool) {s t : State} (h : s.live = t.live) :
    (startDecode n delta s).live = (startDecode n delta t).live :=
  live_decodeLoop n delta (congrArg (fun u : State => { u with out := [] }) h)

/-- A command executed in two idle states that agree but for dead registers. -/
theorem exec_live {i : Instr} {s t : State} (hi : i.isCommand = true) (hh : s.held = none)
    (h : s.live = t.live) :
    ∃ s' t', exec i s = .next s' ∧ exec i t = .next t' ∧ s'.live = t'.live := by
  have hht : t.held = none := (State.eq_of_live_eq h State.held fun _ => rfl).symm.trans hh
  suffices hk : ∃ k : State → State, (k s).live = (k t).live ∧ ∀ u, exec i u = whenIdle u (k u) by
    obtain ⟨k, hk, hexec⟩ := hk
    exact ⟨k s, k t, (hexec s).trans (whenIdle_of_idle _ hh),
      (hexec t).trans (whenIdle_of_idle _ hht), hk⟩
  cases i with
  | encInit => exact ⟨_, (encLocal_startEncoder s.encSide 0 (okResponse 0)).live h, fun _ => rfl⟩
  | encOne v =>
    have hv := encLocal_encodeValue s.encSide 136 (signedOperand v) none
    exact ⟨_, (encLocal_encoderCommand 136 hv).live h, fun _ => rfl⟩
  | encFinish =>
    exact ⟨_, (encLocal_encoderCommand 137 (encLocal_finishStream s.encSide)).live h, fun _ => rfl⟩
  | dencStart start =>
    exact ⟨_, (encLocal_startEncoder s.encSide start (okResponse 0)).live h, fun _ => rfl⟩
  | dencVal v =>
    exact ⟨_, (encLocal_encoderCommand 191 (encLocal_encodeDelta s.encSide v)).live h, fun _ => rfl⟩
  | decInit => exact ⟨_, live_respond (live_startDecoder h 0) (okResponse 0), fun _ => rfl⟩
  | dec n => exact ⟨_, live_decoderCommand h (live_startDecode _ false h), fun _ => rfl⟩
  | ddecStart base => exact ⟨_, live_respond (live_startDecoder h base) (okResponse 0), fun _ => rfl⟩
  | ddec n => exact ⟨_, live_decoderCommand h (live_startDecode _ true h), fun _ => rfl⟩
  | statusRead =>
    have hstatus := State.eq_of_live_eq h State.status fun _ => rfl
    exact ⟨fun u => respond (statusResponse u.status) u, by
      simpa only [hstatus] using live_respond h (statusResponse t.status), fun _ => rfl⟩
  | cwZero => cases hi
  | cwNonzero n mbits sign => cases hi

/-- A held word's write, and the rest of its command, are decided by the encoder's side (R227). -/
theorem encLocal_resumeWord {wb : Nat} (e : EncSide wb) (rest : Bits) (count : Nat)
    (newPrev : Option Word32) : EncLocal e (resumeWord rest count newPrev) := by
  refine encLocal_finishValue count newPrev (k := fun s =>
    (flushWord s).andThen rest (appendBits rest)) ?_
  rcases appendLocal_flushWord e with ⟨f, hf, hk⟩ | ⟨f, hf, hk⟩ | ⟨f, r, hf, hk⟩
  · exact (appendLocal_appendBits rest f).after hf fun s => by rw [hk]; rfl
  · exact .faulted f hf fun s => by rw [hk]; rfl
  · exact .waiting f rest hf fun s => by rw [hk]; rfl

theorem live_resume {s t : State} (h : s.live = t.live) (p : Held) :
    (resume p s).live = (resume p t).live := by
  cases p with
  | word rest count newPrev => exact (encLocal_resumeWord s.encSide rest count newPrev).live h
  | tail => exact (encLocal_finishStream s.encSide).live h
  | flush nb => exact (encLocal_finishFlush s.encSide nb).live h
  | read n delta =>
    exact live_decodeLoop n delta (congrArg (fun u : State => { u with held := none }) h)

theorem step_live {s t : State} (h : s.live = t.live) :
    ∃ s' t', step s = .next s' ∧ step t = .next t' ∧ s'.live = t'.live := by
  have hreset : s.resetIn = t.resetIn :=
    State.eq_of_live_eq h State.resetIn fun _ => rfl
  have hheld : s.held = t.held :=
    State.eq_of_live_eq h State.held fun _ => rfl
  have hfetch : fetch s = fetch t := State.eq_of_live_eq h fetch fun _ => rfl
  cases hr : s.resetIn with
  | true =>
    exact ⟨_, _, step_of_reset hr, step_of_reset (hreset ▸ hr), live_logStatus (live_applyReset h)⟩
  | false =>
    rw [hr] at hreset
    cases hh : s.held with
    | some p =>
      exact ⟨_, _, step_of_held hr hh, step_of_held hreset.symm (hheld ▸ hh),
        live_logStatus (live_resume h p)⟩
    | none =>
      rw [hh] at hheld
      cases hf : fetch s with
      | none =>
        exact ⟨s, t, step_of_no_fetch hr hh hf,
          step_of_no_fetch hreset.symm hheld.symm (hfetch ▸ hf), h⟩
      | some w =>
        rw [hf] at hfetch
        cases hd : decodeCommand w with
        | ok i =>
          obtain ⟨s', t', hs, ht, hlive⟩ := exec_live (decodeCommand_isCommand hd) hh h
          exact ⟨logStatus s', logStatus t', by rw [step_of_decoded hr hh hf hd, hs]; rfl,
            by rw [step_of_decoded hreset.symm hheld.symm hfetch.symm hd, ht]; rfl,
            live_logStatus hlive⟩
        | error e =>
          exact ⟨_, _, step_of_illegal hr hh hf hd,
            step_of_illegal hreset.symm hheld.symm hfetch.symm hd,
            live_logStatus (congrArg illegalCommand h)⟩

/-- Settles O19: both states step, to states with the same live registers; the observation reads no
other. -/
theorem unspecifiedRegistersAreUnobservable : Obligations.UnspecifiedRegistersAreUnobservable := by
  unfold Obligations.UnspecifiedRegistersAreUnobservable
  intro s t h
  obtain ⟨s', t', hs, ht, hlive⟩ := step_live h
  exact ⟨s', t', hs, ht, hlive, State.eq_of_live_eq hlive State.observe fun _ => rfl⟩

end Sys2Proof.Machine
end

section
/-!
PROOF. The encoder's commands on an open stream, and after its end (R131, R136, R137, R191, R222); and
where the fields of STATUS stand (R37).
-/

namespace Sys2Proof.Machine

/-! ### STATUS -/

theorem status_efaultField (s : State) :
    s.status.extractLsb' 4 4 = efaultField s.enc.efault := by
  rw [State.status]
  iterate 2 rw [BitVec.extractLsb'_append_eq_of_le (by decide)]
  rw [BitVec.extractLsb'_append_eq_of_add_le (by decide)]
  exact BitVec.extractLsb'_eq_self

theorem status_dfaultField (s : State) :
    s.status.extractLsb' 12 4 = dfaultField s.dec.dfault := by
  rw [State.status]
  iterate 5 rw [BitVec.extractLsb'_append_eq_of_le (by decide)]
  rw [BitVec.extractLsb'_append_eq_of_add_le (by decide)]
  exact BitVec.extractLsb'_eq_self

/-- Settles O27: each field is read off at its place in the concatenation that STATUS is. -/
theorem statusLayout : Obligations.StatusLayout := by
  unfold Obligations.StatusLayout
  intro s
  refine ⟨?_, ?_, ?_, ?_, ?_⟩
  · rw [State.status]; simp only [BitVec.getLsbD_append]; simp
  · rw [status_efaultField]; rcases s.enc.efault with _ | _ | _ | _ <;> rfl
  · rw [State.status]; simp only [BitVec.getLsbD_append]; simp
  · rw [status_dfaultField]; rcases s.dec.dfault with _ | _ | _ | _ <;> rfl
  · rw [State.status]; simp only [BitVec.getLsbD_append]; simp

/-- The response of a command that has not held (R34). -/
theorem respond_of_idle (r : Response) {s : State} (h : s.held = none) :
    respond r s = { s with trace := s.trace ++ [.response r], cpc := s.cpc + 1 } := by
  rw [respond, ← h]

/-! ### AppendBit -/

/-- FlushWord, when it completes, leaves an empty accumulator of the same width (R133). -/
theorem flushWord_done {s t : State} (h : flushWord s = .done t) :
    ∃ u, t = clearAcc u ∧ u.wordBytes = s.wordBytes := by
  rcases flushWord_cases s with ⟨-, e⟩ | ⟨rest, -, e⟩ | ⟨landed, rest, -, e⟩ <;> rw [e] at h <;> cases h
  exact ⟨_, rfl, rfl⟩

/-- Settles O34: the bit is placed by `setBit`, and AppendBit goes on by whether the word is full. -/
theorem appendBitPlacesAndFlushes : Obligations.AppendBitPlacesAndFlushes := by
  unfold Obligations.AppendBitPlacesAndFlushes
  intro s b hw h
  have hpos := h.rem_pos
  have hle : s.enc.rem ≤ 8 * s.wordBytes := h.rem_le
  refine ⟨setBit s.enc.acc (s.enc.rem - 1) b, fun i => ?_, fun h1 => ?_, fun h1 => ?_, fun t ht => ?_⟩
  · rw [getLsbD_setBit]
    exact if_congr (by omega) rfl rfl
  · exact appendBit_of_one_lt b (by omega)
  · rw [appendBit_of_rem_one b h1, placeBit, h1]
  · by_cases h1 : s.enc.rem = 1
    · rw [appendBit_of_rem_one b h1] at ht
      obtain ⟨u, rfl, hu⟩ := flushWord_done ht
      exact ⟨accReady_clearAcc (hu ▸ hw), congrArg (8 * ·) hu⟩
    · have h2 : 1 < s.enc.rem := by omega
      rw [appendBit_of_one_lt b h2] at ht
      cases ht
      exact ⟨accReady_placeBit b h h2, rfl⟩

/-! ### Value commands -/

/-- ENC_ONE and DENC_VAL on an open encoder with a sink that accepts the words that fill: the codeword is
appended, and then PREV and the response are set (R136, R191). -/
theorem exec_valueCommand_appended {s : State} (hw : 1 ≤ s.wordBytes) (ho : s.EncoderOpen)
    (h : s.AccReady) (x : Bool × Word32) (hd : inDomain (encodedValue s.enc.prev x) = true)
    (hs : s.SinkAccepts (s.wordsFilled (cw (encodedValue s.enc.prev x)).length)) :
    ∃ words t, Appended (cw (encodedValue s.enc.prev x)) words s t ∧
      exec (valueCommand x) s = .next { t with
        enc := { t.enc with prev := prevAfter t.enc.prev x }
        cpc := t.cpc + 1
        trace := t.trace ++
          [.response (okResponse (cw (encodedValue s.enc.prev x)).length)] } := by
  obtain ⟨words, t, happend, ht⟩ := appendBits_appended _ hw h hs
  have hidle : t.held = none := by
    obtain ⟨acc, rem, rfl⟩ := ht.frame
    exact ho.idle
  refine ⟨words, t, ht, ?_⟩
  rw [exec_valueCommand ho x hd, happend, finishValue, respond_of_idle _ (by exact hidle)]
  obtain ⟨_ | _, v⟩ := x <;> rfl

/-- Settles O35: ENC_ONE is the raw value command. -/
theorem encOneAppendsCodeword : Obligations.EncOneAppendsCodeword := by
  unfold Obligations.EncOneAppendsCodeword
  intro s v hw ho h hd hs
  exact exec_valueCommand_appended hw ho h (false, v) hd hs

/-- Settles O36: DENC_VAL is the value command of a difference. -/
theorem dencValAppendsDifference : Obligations.DencValAppendsDifference := by
  unfold Obligations.DencValAppendsDifference
  intro s v hw ho h hd hs
  exact exec_valueCommand_appended hw ho h (true, v) hd hs

/-! ### The end of a stream -/

/-- The checks of a command raise ENC_AFTER_FIN on a finished stream (R222, R228). -/
theorem encoderCommand_finished (rule : Nat) (k : State → State) {s : State}
    (hf : s.enc.efault = none) (hfin : s.enc.efin = true) :
    encoderCommand rule k s = respond { rc := .fault, fcode := 2 } { s with
      enc := { s.enc with efault := some .afterFin }
      faultLog := s.faultLog ++ [⟨rule, s.cpc, .enc .afterFin⟩] } := by
  simp [encoderCommand, hf, hfin, raiseFault, recordFault, faultResponse, EncFault.code]

/-- Settles O38: each of the three commands makes these checks first. -/
theorem finishedStreamRaisesAfterFin : Obligations.FinishedStreamRaisesAfterFin := by
  unfold Obligations.FinishedStreamRaisesAfterFin
  intro s hh hf hfin i rule hi
  suffices hk : ∃ k, exec i s = whenIdle s (encoderCommand rule k s) by
    obtain ⟨k, hk⟩ := hk
    rw [hk, whenIdle_of_idle _ hh, encoderCommand_finished rule k hf hfin,
      respond_of_idle _ (by exact hh)]
  rcases hi with ⟨⟨v, rfl⟩, rfl⟩ | ⟨⟨v, rfl⟩, rfl⟩ | ⟨rfl, rfl⟩
  · exact ⟨_, rfl⟩
  · exact ⟨_, rfl⟩
  · exact ⟨_, rfl⟩

/-- ENC_FINISH on an open encoder (R137). -/
theorem exec_encFinish_open {s : State} (h : s.EncoderOpen) :
    exec .encFinish s = .next (finishStream s) :=
  (whenIdle_of_idle _ h.idle).trans (by rw [encoderCommand_open _ _ h])

theorem finishBytes_eq_zero_iff (s : State) : finishBytes s = 0 ↔ s.pendingCount = 0 := by
  unfold finishBytes
  omega

/-- ENC_FINISH past its checks with pending bits, at a sink that accepts the write (R137). -/
theorem finishStream_ok {s : State} {rest : List SinkAnswer} (hb : 0 < finishBytes s)
    (hs : s.sinkAnswers = .ok :: rest) :
    finishStream s = finishFlush (finishBytes s) (clearAcc { s with
      sinkAnswers := rest
      trace := s.trace ++ [.sinkWrite (accBytes s.enc.acc (finishBytes s))] }) := by
  rcases finishStream_cases hb with ⟨he, -⟩ | ⟨r, he, e⟩ | ⟨l, r, he, -⟩ <;> rw [hs] at he <;> cases he
  exact e

/-- Settles O40: without pending bits the command only flushes; with them it writes first. -/
theorem encFinishWritesPaddedTail : Obligations.EncFinishWritesPaddedTail := by
  unfold Obligations.EncFinishWritesPaddedTail
  intro s _ ho h hs
  refine ⟨accBytes s.enc.acc (finishBytes s), accBytes_length _ _, bitsOfBytes_finishBytes h, ?_⟩
  rw [exec_encFinish_open ho, accBytes_length]
  by_cases hp : s.pendingCount = 0
  · simp only [if_pos hp] at hs ⊢
    obtain ⟨rest, hrest⟩ := hs.succ
    have hb := (finishBytes_eq_zero_iff s).2 hp
    rw [finishStream_empty hb, finishFlush_ok 0 (s := clearAcc s) hrest,
      respond_of_idle _ (by exact ho.idle)]
    simp [clearAcc, okResponse, hrest, hb, State.width]
  · simp only [if_neg hp] at hs ⊢
    obtain ⟨rest, hrest⟩ := hs.succ
    have hs' : State.SinkAccepts { s with sinkAnswers := rest } 1 :=
      State.SinkAccepts.drop (s := s) (j := 1) hs (by simp [hrest])
    obtain ⟨rest', hrest'⟩ := hs'.succ
    have hb : 0 < finishBytes s := Nat.pos_of_ne_zero (mt (finishBytes_eq_zero_iff s).1 hp)
    rw [finishStream_ok hb hrest, finishFlush_ok _ (by exact hrest'),
      respond_of_idle _ (by exact ho.idle)]
    have hdrop : s.sinkAnswers.drop 2 = rest' := by rw [hrest, show rest = _ from hrest']; rfl
    simp [clearAcc, okResponse, hdrop, State.width]

end Sys2Proof.Machine
end

section
/-!
PROOF. What no step takes back: the channel events, the fault record, W, the host program, and the record
of STATUS values (R46, R50, R63, R222, log 25).
-/

namespace Sys2Proof.Machine

/-! ### Inside a step -/

/-- From `s` to `t` the events and the fault record have grown or stayed; W, the host program and the
record of STATUS values have stayed. -/
structure State.Extends (s t : State) : Prop where
  trace : s.trace <+: t.trace
  faultLog : s.faultLog <+: t.faultLog
  wordBytes : t.wordBytes = s.wordBytes
  program : t.program = s.program
  statusValues : t.statusValues = s.statusValues

/-- From `s` to `t` a command has gone on, with STATUS unchanged. -/
structure State.GoesOn (s t : State) : Prop extends s.Extends t where
  status : t.status = s.status

/-- From `s` to `t` a command has run to its response, or to where it holds with STATUS unchanged. -/
structure State.Rests (s t : State) : Prop extends s.Extends t where
  status : t.held = none ∨ t.status = s.status

theorem State.Extends.trans {s t u : State} (h : s.Extends t) (k : t.Extends u) : s.Extends u :=
  ⟨h.trace.trans k.trace, h.faultLog.trans k.faultLog, k.wordBytes.trans h.wordBytes,
    k.program.trans h.program, k.statusValues.trans h.statusValues⟩

/-- An operation that adds at most events. -/
theorem State.Extends.of_trace {s t : State} (h : s.trace <+: t.trace)
    (hrest : (t.faultLog, t.wordBytes, t.program, t.statusValues) =
      (s.faultLog, s.wordBytes, s.program, s.statusValues)) : s.Extends t := by
  simp only [Prod.mk.injEq] at hrest
  obtain ⟨hlog, hwidth, hprogram, hvalues⟩ := hrest
  exact ⟨h, hlog ▸ List.prefix_rfl, hwidth, hprogram, hvalues⟩

/-- The registers are no part of the histories. -/
theorem extends_registers (s : State) (enc : EncUnit s.wordBytes) (dec : DecUnit) (ill : Bool) :
    s.Extends { s with enc := enc, dec := dec, ill := ill } :=
  .of_trace List.prefix_rfl rfl

theorem State.GoesOn.refl (s : State) : s.GoesOn s := ⟨.of_trace List.prefix_rfl rfl, rfl⟩

theorem State.GoesOn.trans {s t u : State} (h : s.GoesOn t) (k : t.GoesOn u) : s.GoesOn u :=
  ⟨h.toExtends.trans k.toExtends, k.status.trans h.status⟩

theorem State.GoesOn.rests {s t u : State} (h : s.GoesOn t) (k : t.Rests u) : s.Rests u :=
  ⟨h.toExtends.trans k.toExtends, k.status.imp_right fun e => e.trans h.status⟩

/-- A response ends the command, whatever STATUS was before it (R34). -/
theorem State.Extends.respond {s t : State} (h : s.Extends t) (r : Response) :
    s.Rests (respond r t) :=
  ⟨h.trans (.of_trace (List.prefix_append _ _) rfl), .inl rfl⟩

theorem State.GoesOn.hold {s t : State} (h : s.GoesOn t) (p : Held) : s.Rests (hold p t) :=
  h.rests ⟨.of_trace List.prefix_rfl rfl, .inr rfl⟩

theorem extends_recordFault (rule : Nat) (f : UnitFault) (s : State) :
    s.Extends (recordFault rule f s) := by
  cases f <;> exact ⟨List.prefix_rfl, List.prefix_append _ _, rfl, rfl, rfl⟩

theorem State.Extends.raiseFault {s t : State} (h : s.Extends t) (rule : Nat) (f : UnitFault) :
    s.Rests (raiseFault rule f t) :=
  (h.trans (extends_recordFault rule f t)).respond _

/-! ### The encoder's commands -/

theorem goesOn_sink (s : State) (answers : List SinkAnswer) (events : List Event) :
    s.GoesOn { s with sinkAnswers := answers, trace := s.trace ++ events } :=
  ⟨.of_trace (List.prefix_append _ _) rfl, rfl⟩

theorem goesOn_clearAcc (s : State) : s.GoesOn (clearAcc s) := ⟨.of_trace List.prefix_rfl rfl, rfl⟩

/-- What an append has done since `s`: it has gone on, or ended the command by a fault. -/
def AppendResult.Since (s : State) : AppendResult → Prop
  | .done t => s.GoesOn t
  | .faulted t => s.Rests t
  | .waiting t _ => s.GoesOn t

theorem AppendResult.Since.after {s t : State} {r : AppendResult} (h : s.GoesOn t)
    (k : r.Since t) : r.Since s := by
  cases r with
  | done u => exact h.trans k
  | faulted u => exact h.rests k
  | waiting u rest => exact h.trans k

theorem AppendResult.Since.andThen {s : State} {r : AppendResult} {k : State → AppendResult}
    (h : r.Since s) (rest : Bits) (hk : ∀ t, (k t).Since t) : (r.andThen rest k).Since s := by
  cases r with
  | done t => exact (hk t).after h
  | faulted t => exact h
  | waiting t _ => exact h

theorem flushWord_since (s : State) : (flushWord s).Since s := by
  rcases flushWord_cases s with ⟨-, e⟩ | ⟨rest, -, e⟩ | ⟨landed, rest, -, e⟩ <;> rw [e]
  · exact .refl s
  · exact (goesOn_sink s rest _).trans (goesOn_clearAcc _)
  · exact ((goesOn_sink s rest _).trans (goesOn_clearAcc _)).raiseFault _ _

theorem goesOn_placeBit (b : Bool) (s : State) : s.GoesOn (placeBit b s) :=
  ⟨.of_trace List.prefix_rfl rfl, rfl⟩

theorem appendBit_since (b : Bool) (s : State) : (appendBit b s).Since s := by
  unfold appendBit
  split
  · exact (flushWord_since _).after (goesOn_placeBit b s)
  · exact goesOn_placeBit b s

theorem appendBits_since (c : Bits) (s : State) : (appendBits c s).Since s := by
  induction c generalizing s with
  | nil => exact .refl s
  | cons b c ih => exact (appendBit_since b s).andThen c ih

theorem finishValue_rests {s : State} {r : AppendResult} (h : r.Since s) (count : Nat)
    (newPrev : Option Word32) : s.Rests (finishValue count newPrev r) := by
  cases r with
  | done t =>
    have hprev := extends_registers t { t.enc with prev := newPrev.getD t.enc.prev } t.dec t.ill
    exact (h.toExtends.trans hprev).respond _
  | faulted t => exact h
  | waiting t rest => exact h.hold _

theorem encodeValue_rests (rule : Nat) (x : Int) (newPrev : Option Word32) (s : State) :
    s.Rests (encodeValue rule x newPrev s) := by
  unfold encodeValue
  split
  · exact finishValue_rests (appendBits_since _ s) _ _
  · exact (State.GoesOn.refl s).raiseFault _ _

theorem finishFlush_rests (nb : Nat) (s : State) : s.Rests (finishFlush nb s) := by
  rcases finishFlush_cases nb s with ⟨-, e⟩ | ⟨rest, -, e⟩ | ⟨landed, rest, -, e⟩ <;> rw [e]
  · exact (State.GoesOn.refl s).hold _
  · have hsink := goesOn_sink s rest [.sinkFlush]
    have hefin := extends_registers { s with
      sinkAnswers := rest, trace := s.trace ++ [.sinkFlush] } { s.enc with efin := true } s.dec s.ill
    exact (hsink.toExtends.trans hefin).respond _
  · have hsink := goesOn_sink s rest []
    rw [List.append_nil] at hsink
    exact hsink.raiseFault _ _

theorem finishStream_rests (s : State) : s.Rests (finishStream s) := by
  by_cases hb : finishBytes s = 0
  · rw [finishStream_empty hb]
    exact (goesOn_clearAcc s).rests (finishFlush_rests 0 _)
  · rcases finishStream_cases (Nat.pos_of_ne_zero hb) with
      ⟨-, e⟩ | ⟨rest, -, e⟩ | ⟨landed, rest, -, e⟩ <;> rw [e]
    · exact (State.GoesOn.refl s).hold _
    · exact ((goesOn_sink s rest _).trans (goesOn_clearAcc _)).rests (finishFlush_rests _ _)
    · exact ((goesOn_sink s rest _).trans (goesOn_clearAcc _)).raiseFault _ _

theorem encoderCommand_rests (rule : Nat) {k : State → State} {s : State} (hk : s.Rests (k s)) :
    s.Rests (encoderCommand rule k s) := by
  unfold encoderCommand
  split
  · exact (State.GoesOn.refl s).respond _
  · split
    · exact (State.GoesOn.refl s).raiseFault _ _
    · exact hk

/-! ### The decoder's commands -/

/-- A NextBit that answers has read at most one byte of the source (R160). -/
theorem nextBit_goesOn {s u : State}
    (h : (∃ b, nextBit s = .bit b u) ∨ nextBit s = .eof u ∨ nextBit s = .failed u) : s.GoesOn u := by
  rcases nextBit_cases s with ⟨-, e⟩ | ⟨-, ⟨-, e⟩ | ⟨c, rest, -, e⟩ | ⟨rest, -, e⟩ | ⟨rest, -, e⟩⟩ <;>
    rw [e] at h <;> rcases h with ⟨b, h⟩ | h | h <;> cases h
  · exact ⟨.of_trace List.prefix_rfl rfl, rfl⟩
  · exact ⟨.of_trace (List.prefix_append _ _) rfl, rfl⟩
  · exact ⟨.of_trace (List.prefix_append _ _) rfl, rfl⟩
  · exact ⟨.of_trace (List.prefix_append _ _) rfl, rfl⟩

/-- The parse machine's registers are no part of STATUS (R33, R37). -/
theorem goesOn_parsed {s : State} {b : Bool} {d : DecUnit}
    (h : decodeBit b s.dec = .noValue d ∨ ∃ x, decodeBit b s.dec = .value x d) :
    s.GoesOn { s with dec := d } := by
  have hf := decodeBit_frame b s.dec
  have hd : d = withPort d s.dec := by
    rcases h with e | ⟨x, e⟩ <;> rw [e] at hf
    · injection hf
    · injection hf
  exact ⟨extends_registers s s.enc d s.ill, by rw [hd]; rfl⟩

theorem loopStep_again_goesOn {n : Nat} {delta : Bool} {s s' : State}
    (e : loopStep n delta s = .again s') : s.GoesOn s' := by
  obtain ⟨-, b, u, hu, ⟨d, hd, rfl⟩ | ⟨x, d, hd, hx⟩⟩ := loopStep_again_cases e
  · exact (nextBit_goesOn (.inl ⟨b, hu⟩)).trans (goesOn_parsed (.inl hd))
  · refine ((nextBit_goesOn (.inl ⟨b, hu⟩)).trans (goesOn_parsed (.inr ⟨x, hd⟩))).trans ?_
    rcases deliver_again_cases hx with ⟨-, rfl⟩ | ⟨-, -, rfl⟩
    · exact ⟨.of_trace List.prefix_rfl rfl, rfl⟩
    · exact ⟨.of_trace List.prefix_rfl rfl, rfl⟩

theorem endDecode_rests {s t : State} (h : s.Extends t) (exhausted : Bool) :
    s.Rests (endDecode exhausted t) :=
  (h.trans (extends_registers t t.enc { t.dec with dexh := exhausted } t.ill)).respond _

theorem loopStep_stop_rests {n : Nat} {delta : Bool} {s s' : State}
    (e : loopStep n delta s = .stop s') : s.Rests s' := by
  rcases loopStep_stop_cases e with ⟨-, rfl⟩ | ⟨-, ⟨-, rfl⟩ | ⟨u, hu, rfl⟩ | ⟨u, hu, rfl⟩ |
    ⟨b, u, hu, -, rfl⟩ | ⟨b, u, x, d, hu, hd, -, -, rfl⟩⟩
  · exact endDecode_rests (State.GoesOn.refl s).toExtends false
  · exact (State.GoesOn.refl s).hold _
  · exact endDecode_rests (nextBit_goesOn (.inr (.inl hu))).toExtends true
  · exact (nextBit_goesOn (.inr (.inr hu))).raiseFault _ _
  · exact (nextBit_goesOn (.inl ⟨b, hu⟩)).raiseFault _ _
  · exact ((nextBit_goesOn (.inl ⟨b, hu⟩)).trans (goesOn_parsed (.inr ⟨x, hd⟩))).raiseFault _ _

theorem decodeLoop_rests (n : Nat) (delta : Bool) {s t : State} (h : s.GoesOn t) :
    s.Rests (decodeLoop n delta t) :=
  decodeLoop_induct (P := s.GoesOn) (fun _ _ hu e => hu.trans (loopStep_again_goesOn e))
    (fun _ _ hu e => hu.rests (loopStep_stop_rests e)) t h

theorem startDecode_rests (n : Nat) (delta : Bool) (s : State) : s.Rests (startDecode n delta s) :=
  decodeLoop_rests n delta ⟨.of_trace List.prefix_rfl rfl, rfl⟩

theorem decoderCommand_rests {k : State → State} {s : State} (hk : s.Rests (k s)) :
    s.Rests (decoderCommand k s) := by
  unfold decoderCommand
  split
  · exact (State.GoesOn.refl s).respond _
  · exact hk

/-! ### The step -/

theorem exec_rests {i : Instr} {s t : State} (hi : i.isCommand = true) (hh : s.held = none)
    (e : exec i s = .next t) : s.Rests t := by
  suffices hk : ∃ u, s.Rests u ∧ exec i s = whenIdle s u by
    obtain ⟨u, hu, hexec⟩ := hk
    rw [hexec, whenIdle_of_idle u hh] at e
    cases e
    exact hu
  cases i with
  | encInit =>
    have hstart : s.Extends (startEncoder 0 s) := .of_trace List.prefix_rfl rfl
    exact ⟨_, hstart.respond (okResponse 0), rfl⟩
  | encOne v => exact ⟨_, encoderCommand_rests 136 (encodeValue_rests 136 _ none s), rfl⟩
  | encFinish => exact ⟨_, encoderCommand_rests 137 (finishStream_rests s), rfl⟩
  | dencStart start =>
    have hstart : s.Extends (startEncoder start s) := .of_trace List.prefix_rfl rfl
    exact ⟨_, hstart.respond (okResponse 0), rfl⟩
  | dencVal v =>
    exact ⟨_, encoderCommand_rests 191 (k := encodeDelta v) (encodeValue_rests 191 _ (some v) s), rfl⟩
  | decInit =>
    have hstart : s.Extends (startDecoder 0 s) := .of_trace List.prefix_rfl rfl
    exact ⟨_, hstart.respond (okResponse 0), rfl⟩
  | dec n => exact ⟨_, decoderCommand_rests (startDecode_rests _ false s), rfl⟩
  | ddecStart base =>
    have hstart : s.Extends (startDecoder base s) := .of_trace List.prefix_rfl rfl
    exact ⟨_, hstart.respond (okResponse 0), rfl⟩
  | ddec n => exact ⟨_, decoderCommand_rests (startDecode_rests _ true s), rfl⟩
  | statusRead => exact ⟨_, (State.GoesOn.refl s).respond (statusResponse s.status), rfl⟩
  | cwZero => cases hi
  | cwNonzero n mbits sign => cases hi

theorem resume_rests (p : Held) (s : State) : s.Rests (resume p s) := by
  cases p with
  | word rest count newPrev =>
    exact finishValue_rests ((flushWord_since s).andThen rest (appendBits_since rest)) _ _
  | tail => exact finishStream_rests s
  | flush nb => exact finishFlush_rests nb s
  | read n delta => exact decodeLoop_rests n delta ⟨.of_trace List.prefix_rfl rfl, rfl⟩

/-- A step idles, or records STATUS after a command or a reset that takes nothing back. -/
theorem step_rests {s t : State} (h : step s = .next t) :
    t = s ∨ ∃ u, s.Rests u ∧ t = logStatus u := by
  rcases step_cases h with ⟨-, rfl⟩ | ⟨p, -, rfl⟩ | ⟨-, -, rfl⟩ | ⟨w, i, u, hh, -, hd, hu, rfl⟩ |
    ⟨w, e, -, -, -, rfl⟩
  · exact .inr ⟨applyReset s, ⟨.of_trace List.prefix_rfl rfl, .inl rfl⟩, rfl⟩
  · exact .inr ⟨_, resume_rests p s, rfl⟩
  · exact .inl rfl
  · exact .inr ⟨u, exec_rests (decodeCommand_isCommand hd) hh hu, rfl⟩
  · have hill := extends_registers s s.enc s.dec true
    exact .inr ⟨illegalCommand s, hill.respond illegalResponse, rfl⟩

/-- The record grows by the value of STATUS, or STATUS is that before the command (log 25). -/
theorem State.Rests.statusValues_logStatus {s t : State} (h : s.Rests t) :
    (logStatus t).statusValues = s.statusValues ∧ (logStatus t).status = s.status ∨
      (logStatus t).statusValues = s.statusValues ++ [(logStatus t).status] := by
  cases hh : t.held with
  | none =>
    right
    rw [logStatus_status, logStatus_of_idle hh, ← h.statusValues]
  | some p =>
    rw [logStatus_of_held hh]
    exact .inl ⟨h.statusValues, h.status.resolve_left (by simp [hh])⟩

/-- Settles O16: a step that idles changes nothing; any other takes nothing back and records STATUS. -/
theorem stepKeepsHistory : Obligations.StepKeepsHistory := by
  unfold Obligations.StepKeepsHistory
  intro s t h
  rcases step_rests h with rfl | ⟨u, hu, rfl⟩
  · exact ⟨List.prefix_rfl, List.prefix_rfl, rfl, rfl, .inl ⟨rfl, rfl⟩⟩
  · exact ⟨by simpa using hu.trace, by simpa using hu.faultLog, by simpa using hu.wordBytes,
      by simpa using hu.program, hu.statusValues_logStatus⟩

end Sys2Proof.Machine
end

section
/-!
PROOF. The registers of the delta commands are outside the raw ones (R198): ENC_ONE and ENC_FINISH commute
with a replacement of PREV, and DEC with one of BASE, and so neither reads nor writes them.
-/

namespace Sys2Proof.Machine

/-! ### PREV -/

/-- The state with another value in PREV. -/
def State.withPrev (s : State) (prev : Word32) : State :=
  { s with enc := { s.enc with prev := prev } }

/-- What became of an append, with another value in PREV. -/
def AppendResult.withPrev (r : AppendResult) (prev : Word32) : AppendResult :=
  match r with
  | .done s => .done (s.withPrev prev)
  | .faulted s => .faulted (s.withPrev prev)
  | .waiting s rest => .waiting (s.withPrev prev) rest

theorem flushWord_withPrev (s : State) (prev : Word32) :
    flushWord (s.withPrev prev) = (flushWord s).withPrev prev := by
  unfold flushWord sinkWrite
  have hanswers : (s.withPrev prev).sinkAnswers = s.sinkAnswers := rfl
  rw [hanswers]
  rcases s.sinkAnswers with _ | ⟨_ | landed, rest⟩ <;> rfl

theorem appendBit_withPrev (b : Bool) (s : State) (prev : Word32) :
    appendBit b (s.withPrev prev) = (appendBit b s).withPrev prev := by
  by_cases h0 : (placeBit b s).enc.rem = 0
  · rw [appendBit, appendBit, if_pos h0, if_pos (by exact h0)]
    exact flushWord_withPrev (placeBit b s) prev
  · rw [appendBit, appendBit, if_neg h0, if_neg (by exact h0)]
    rfl

theorem appendBits_withPrev (c : Bits) (s : State) (prev : Word32) :
    appendBits c (s.withPrev prev) = (appendBits c s).withPrev prev := by
  induction c generalizing s with
  | nil => rfl
  | cons b c ih =>
    rw [appendBits_cons, appendBits_cons, appendBit_withPrev]
    cases appendBit b s with
    | done t => exact ih t
    | faulted t => rfl
    | waiting t rest => rfl

theorem encodeValue_withPrev (rule : Nat) (x : Int) (s : State) (prev : Word32) :
    encodeValue rule x none (s.withPrev prev) = (encodeValue rule x none s).withPrev prev := by
  by_cases hx : inDomain x = true
  · rw [encodeValue_inDomain _ _ _ hx, encodeValue_inDomain _ _ _ hx, appendBits_withPrev]
    cases appendBits (cw x) s <;> rfl
  · rw [encodeValue, encodeValue, if_neg hx, if_neg hx]
    rfl

theorem finishFlush_withPrev (nb : Nat) (s : State) (prev : Word32) :
    finishFlush nb (s.withPrev prev) = (finishFlush nb s).withPrev prev := by
  unfold finishFlush sinkFlush
  have hanswers : (s.withPrev prev).sinkAnswers = s.sinkAnswers := rfl
  rw [hanswers]
  rcases s.sinkAnswers with _ | ⟨_ | landed, rest⟩ <;> rfl

theorem finishStream_withPrev (s : State) (prev : Word32) :
    finishStream (s.withPrev prev) = (finishStream s).withPrev prev := by
  by_cases hb : 0 < finishBytes s
  · rw [finishStream, finishStream, if_pos hb, if_pos (by exact hb)]
    unfold sinkWrite
    have hanswers : (s.withPrev prev).sinkAnswers = s.sinkAnswers := rfl
    rw [hanswers]
    rcases s.sinkAnswers with _ | ⟨_ | landed, rest⟩
    · rfl
    · exact finishFlush_withPrev (finishBytes s) (clearAcc { s with
        sinkAnswers := rest
        trace := s.trace ++ [.sinkWrite (accBytes s.enc.acc (finishBytes s))] }) prev
    · rfl
  · rw [finishStream, finishStream, if_neg hb, if_neg (by exact hb)]
    exact finishFlush_withPrev 0 (clearAcc s) prev

theorem encoderCommand_withPrev (rule : Nat) {k : State → State} (s : State) (prev : Word32)
    (hk : k (s.withPrev prev) = (k s).withPrev prev) :
    encoderCommand rule k (s.withPrev prev) = (encoderCommand rule k s).withPrev prev := by
  unfold encoderCommand
  have hfault : (s.withPrev prev).enc.efault = s.enc.efault := rfl
  have hfin : (s.withPrev prev).enc.efin = s.enc.efin := rfl
  rw [hfault, hfin, hk]
  cases s.enc.efault with
  | some f => rfl
  | none => cases s.enc.efin <;> rfl

/-- ENC_ONE and ENC_FINISH commute with a replacement of PREV. -/
theorem exec_withPrev {i : Instr} (hi : (∃ v, i = .encOne v) ∨ i = .encFinish) {s : State}
    (hh : s.held = none) :
    ∃ t, exec i s = .next t ∧ ∀ prev, exec i (s.withPrev prev) = .next (t.withPrev prev) := by
  suffices hk : ∃ k : State → State, (∀ u, exec i u = whenIdle u (k u)) ∧
      ∀ prev, k (s.withPrev prev) = (k s).withPrev prev by
    obtain ⟨k, hexec, hk⟩ := hk
    exact ⟨k s, (hexec s).trans (whenIdle_of_idle _ hh), fun prev =>
      (hexec _).trans (by rw [hk]; exact whenIdle_of_idle _ hh)⟩
  rcases hi with ⟨v, rfl⟩ | rfl
  · exact ⟨_, fun _ => rfl, fun prev =>
      encoderCommand_withPrev 136 s prev (encodeValue_withPrev 136 _ s prev)⟩
  · exact ⟨_, fun _ => rfl, fun prev =>
      encoderCommand_withPrev 137 s prev (finishStream_withPrev s prev)⟩

/-! ### BASE -/

/-- The state with another value in BASE. -/
def State.withBase (s : State) (base : Word32) : State :=
  { s with dec := { s.dec with base := base } }

/-- What NextBit returns, with another value in BASE. -/
def BitResult.withBase (r : BitResult) (base : Word32) : BitResult :=
  match r with
  | .bit b s => .bit b (s.withBase base)
  | .eof s => .eof (s.withBase base)
  | .failed s => .failed (s.withBase base)
  | .wait => .wait

/-- What DecodeBit returns, with another value in BASE. -/
def ParseResult.withBase (r : ParseResult) (base : Word32) : ParseResult :=
  match r with
  | .noValue d => .noValue { d with base := base }
  | .value x d => .value x { d with base := base }
  | .overlong => .overlong

theorem nextBit_withBase (s : State) (base : Word32) :
    nextBit (s.withBase base) = (nextBit s).withBase base := by
  rcases nextBit_cases s with ⟨h0, e⟩ | ⟨h0, ⟨ha, e⟩ | ⟨c, rest, ha, e⟩ | ⟨rest, ha, e⟩ |
    ⟨rest, ha, e⟩⟩ <;> rw [e]
  · exact nextBit_buffered (s := s.withBase base) h0
  · exact nextBit_wait (s := s.withBase base) h0 ha
  · exact nextBit_byte (s := s.withBase base) h0 ha
  · exact nextBit_eof (s := s.withBase base) h0 ha
  · exact nextBit_err (s := s.withBase base) h0 ha

/-- BASE is among the registers that DecodeBit leaves alone (R33). -/
theorem decodeBit_withBase (b : Bool) (d : DecUnit) (base : Word32) :
    decodeBit b { d with base := base } = (decodeBit b d).withBase base := by
  rw [decodeBit_frame b d]
  refine (decodeBit_withPort b d { d with base := base }).trans ?_
  cases decodeBit b d <;> rfl

theorem parseStep_withBase (b : Bool) (s : State) (base : Word32) :
    LoopRelated (fun s t => t = s.withBase base) (fun s t => t = s.withBase base)
      (parseStep false b s) (parseStep false b (s.withBase base)) := by
  have hd : decodeBit b (s.withBase base).dec = (decodeBit b s.dec).withBase base :=
    decodeBit_withBase b s.dec base
  unfold parseStep
  rw [hd]
  cases decodeBit b s.dec <;> exact rfl

theorem loopStep_withBase (n : Nat) (s : State) (base : Word32) :
    LoopRelated (fun s t => t = s.withBase base) (fun s t => t = s.withBase base)
      (loopStep n false s) (loopStep n false (s.withBase base)) := by
  by_cases hn : s.out.length = n
  · rw [loopStep_full hn, loopStep_full (by exact hn)]
    exact rfl
  · rw [loopStep, loopStep, if_neg hn, if_neg (by exact hn), nextBit_withBase]
    cases nextBit s with
    | bit b u => exact parseStep_withBase b u base
    | eof u => exact rfl
    | failed u => exact rfl
    | wait => exact rfl

theorem decodeLoop_withBase (n : Nat) (s : State) (base : Word32) :
    decodeLoop n false (s.withBase base) = (decodeLoop n false s).withBase base :=
  decodeLoop_induct₂ (R := fun s t => t = s.withBase base) (Q := fun s t => t = s.withBase base)
    (fun s _ h => h ▸ loopStep_withBase n s base) s _ rfl

theorem decoderCommand_withBase (n : Nat) (s : State) (base : Word32) :
    decoderCommand (startDecode n false) (s.withBase base) =
      (decoderCommand (startDecode n false) s).withBase base := by
  unfold decoderCommand
  have hfault : (s.withBase base).dec.dfault = s.dec.dfault := rfl
  rw [hfault]
  cases s.dec.dfault with
  | some f => rfl
  | none => exact decodeLoop_withBase n { s with out := [] } base

/-- DEC commutes with a replacement of BASE. -/
theorem exec_dec_withBase (n : Word32) {s : State} (hh : s.held = none) :
    ∃ t, exec (.dec n) s = .next t ∧
      ∀ base, exec (.dec n) (s.withBase base) = .next (t.withBase base) :=
  ⟨_, whenIdle_of_idle _ hh, fun base =>
    (whenIdle_of_idle _ hh).trans (congrArg _ (decoderCommand_withBase _ s base))⟩

/-! ### Raw commands -/

/-- Settles O60: the commands commute with every replacement of the register; the one by its own value
shows that they leave it unchanged. -/
theorem rawCommandsLeaveDeltaRegisters : Obligations.RawCommandsLeaveDeltaRegisters := by
  unfold Obligations.RawCommandsLeaveDeltaRegisters
  constructor
  · intro i s prev hi hh
    obtain ⟨t, hexec, hprev⟩ := exec_withPrev hi hh
    have hsame : t = t.withPrev s.enc.prev := by
      injection hexec.symm.trans (hprev s.enc.prev)
    exact ⟨t, hexec, by rw [hsame]; rfl, hprev prev⟩
  · intro n s base hh
    obtain ⟨t, hexec, hbase⟩ := exec_dec_withBase n hh
    have hsame : t = t.withBase s.dec.base := by
      injection hexec.symm.trans (hbase s.dec.base)
    exact ⟨t, hexec, by rw [hsame]; rfl, hbase base⟩

end Sys2Proof.Machine
end

section
/-!
PROOF. A finished stream, by the run of its commands (R53, R140); and ENC_ONE, DENC_VAL and ENC_FINISH at
a sink that fails a write or a flush (R60, R133, R137, R222).
-/

namespace Sys2Proof.Machine

/-- Settles O43: the run of the stream's commands, with the marks that it hands the sink. -/
theorem finishedStreamIsCodewords : Obligations.FinishedStreamIsCodewords := by
  unfold Obligations.FinishedStreamIsCodewords
  intro s arrivals start xs hw hh hd hs
  obtain ⟨t, bs, hrun, hefin, hemits, hbits⟩ :=
    runCommands_streamCommands arrivals start xs hw hh hd hs
  obtain ⟨events, htrace, hmarks⟩ := hemits.trace
  have hpad : ∀ k, (padding k).length ≤ 7 := fun k => by
    simp only [padding, List.length_replicate]; omega
  exact ⟨t, events, bs, hrun, htrace, hemits.faultLog, hefin, hmarks, hbits, hpad _⟩

/-! ### A sink that fails -/

/-- SINK_IO and the other encoder faults, raised by a command of an encoder without one (R224). -/
theorem raiseFault_enc (rule : Nat) (f : EncFault) {s : State} (hh : s.held = none)
    (hf : s.enc.efault = none) :
    raiseFault rule (.enc f) s = { s with
      enc := { s.enc with efault := some f }
      cpc := s.cpc + 1
      trace := s.trace ++ [.response { rc := .fault, fcode := f.code }]
      faultLog := s.faultLog ++ [⟨rule, s.cpc, .enc f⟩] } := by
  rw [raiseFault, respond_of_idle _ (by exact hh)]
  simp [recordFault, faultResponse, hf]

/-- FlushWord at a sink that accepts the word (R133). -/
theorem flushWord_ok {s : State} {rest : List SinkAnswer} (hs : s.sinkAnswers = .ok :: rest) :
    flushWord s = .done (clearAcc { s with
      sinkAnswers := rest
      trace := s.trace ++ [.sinkWrite (accBytes s.enc.acc s.wordBytes)] }) := by
  rcases flushWord_cases s with ⟨he, -⟩ | ⟨r, he, e⟩ | ⟨l, r, he, -⟩ <;> rw [hs] at he <;> cases he
  exact e

/-- FlushWord at a sink that fails the word's write (R60, R133). -/
theorem flushWord_err {s : State} {landed : Nat} {rest : List SinkAnswer}
    (hs : s.sinkAnswers = .err landed :: rest) :
    flushWord s = .faulted (raiseFault 133 (.enc .sinkIo) (clearAcc { s with
      sinkAnswers := rest
      trace := s.trace ++ landedEvents ((accBytes s.enc.acc s.wordBytes).take landed) })) := by
  rcases flushWord_cases s with ⟨he, -⟩ | ⟨r, he, -⟩ | ⟨l, r, he, e⟩ <;> rw [hs] at he <;> cases he
  exact e

/-- The write of ENC_FINISH at a sink that fails it (R60, R137). -/
theorem finishStream_err {s : State} {landed : Nat} {rest : List SinkAnswer}
    (hb : 0 < finishBytes s) (hs : s.sinkAnswers = .err landed :: rest) :
    finishStream s = raiseFault 137 (.enc .sinkIo) (clearAcc { s with
      sinkAnswers := rest
      trace := s.trace ++ landedEvents ((accBytes s.enc.acc (finishBytes s)).take landed) }) := by
  rcases finishStream_cases hb with ⟨he, -⟩ | ⟨r, he, -⟩ | ⟨l, r, he, e⟩ <;> rw [hs] at he <;>
    cases he
  exact e

/-- The flush of ENC_FINISH at a sink that fails it (R137). -/
theorem finishFlush_err (nb : Nat) {s : State} {landed : Nat} {rest : List SinkAnswer}
    (hs : s.sinkAnswers = .err landed :: rest) :
    finishFlush nb s = raiseFault 137 (.enc .sinkIo) { s with sinkAnswers := rest } := by
  rcases finishFlush_cases nb s with ⟨he, -⟩ | ⟨r, he, -⟩ | ⟨l, r, he, e⟩ <;> rw [hs] at he <;>
    cases he
  exact e

/-- Settles O41: the write fails, or it is accepted or not needed and the flush fails. -/
theorem encFinishSinkFailure : Obligations.EncFinishSinkFailure := by
  unfold Obligations.EncFinishSinkFailure
  refine ⟨fun s landed rest ho hb hs => ?_, fun s landed rest ho hs => ?_⟩ <;>
    rw [exec_encFinish_open ho]
  · rw [finishStream_err hb hs, raiseFault_enc _ _ (by exact ho.idle) (by exact ho.noFault)]
    rfl
  · change s.sinkAnswers = (if finishBytes s = 0 then [] else [.ok]) ++ .err landed :: rest at hs
    by_cases hb : finishBytes s = 0
    · rw [if_pos hb] at hs
      rw [finishStream_empty hb, finishFlush_err 0 (s := clearAcc s) hs,
        raiseFault_enc _ _ (by exact ho.idle) (by exact ho.noFault), if_pos (by exact hb),
        List.append_nil]
      rfl
    · rw [if_neg hb] at hs
      rw [finishStream_ok (Nat.pos_of_ne_zero hb) hs, finishFlush_err _ (by exact rfl),
        raiseFault_enc _ _ (by exact ho.idle) (by exact ho.noFault), if_neg (by exact hb)]
      rfl

/-- Settles O42: AppendBits goes up to the full word whose write fails, and the fault ends the
command. -/
theorem wordWriteFailureRaisesSinkIo : Obligations.WordWriteFailureRaisesSinkIo := by
  unfold Obligations.WordWriteFailureRaisesSinkIo
  intro s v delta x k landed rest hw ho h hx hd hlen hs
  change x = encodedValue s.enc.prev (delta, v) at hx
  subst hx
  have haccepts : s.SinkAccepts k := ⟨by simp [hs], by simp [hs]⟩
  obtain ⟨words, acc, hcount, hsize, hbits, happend⟩ :=
    appendBits_toFullWord _ k hw h hlen haccepts
  have hdrop : s.sinkAnswers.drop k = .err landed :: rest := by simp [hs]
  refine ⟨words, accBytes acc s.wordBytes, hcount, hsize, accBytes_length _ _, hbits,
    (exec_valueCommand ho (delta, v) hd).trans ?_⟩
  rw [happend, flushWord_err (by exact hdrop), AppendResult.andThen, finishValue,
    raiseFault_enc _ _ (by exact ho.idle) (by exact ho.noFault)]
  rfl

end Sys2Proof.Machine
end

section
/-!
PROOF. A DEC or DDEC that fills its buffer (R167).
-/

namespace Sys2Proof.Machine

/-- DEC and DDEC on an open decoder are DecodeLoop with an empty output list (R167, R194). -/
theorem exec_decode_open (n : Word32) (delta : Bool) {s : State} (h : s.DecoderOpen) :
    exec (if delta then .ddec n else .dec n) s =
      .next (decodeLoop n.toNat delta { s with out := [] }) := by
  cases delta
  · exact (whenIdle_of_idle _ h.idle).trans (by rw [decoderCommand_open _ h]; rfl)
  · exact (whenIdle_of_idle _ h.idle).trans (by rw [decoderCommand_open _ h]; rfl)

/-- Settles O51: the loop reads the `k` bits, and its next turn finds the buffer full. -/
theorem decodeStopsWhenFull : Obligations.DecodeStopsWhenFull := by
  unfold Obligations.DecodeStopsWhenFull
  intro s n delta bytes rest k unused xs d ho hs hk hu hp hlen hn hf
  have hloop := decodeLoop_afterBits (s := { s with out := [] }) (n := n.toNat) (delta := delta) k
    hk.symm hu hs hp (fun j hj ys e h => by simpa using hn j hj ys e h) hf
  have hfull :
      (afterBits delta { s with out := [] } bytes unused xs d rest).out.length = n.toNat := by
    simp [afterBits, hlen]
  obtain ⟨-, -, -, -, hfault⟩ := parseAll_frame hp
  rw [exec_decode_open n delta ho, hloop, decodeLoop_stop (loopStep_full hfull), endDecode,
    respond_of_idle _ (by exact ho.idle), decodeResponse, hfull]
  simp [afterBits, hfault]

end Sys2Proof.Machine
end

section
/-!
PROOF. A hold is transparent (R62, R227): every command that holds, continued with an arrival, ends as
the command run from the start with the arrival's answers there.
-/

namespace Sys2Proof.Machine

/-! ### A held command does not read where it holds -/

/-- What became of an append whose command has held at `p`; a fault has ended the command. -/
def AppendResult.withHeld (r : AppendResult) (p : Held) : AppendResult :=
  match r with
  | .done s => .done (hold p s)
  | .faulted s => .faulted s
  | .waiting s rest => .waiting (hold p s) rest

theorem flushWord_hold (p : Held) (s : State) :
    flushWord (hold p s) = (flushWord s).withHeld p := by
  unfold flushWord sinkWrite
  rw [hold_sinkAnswers]
  rcases s.sinkAnswers with _ | ⟨_ | landed, rest⟩ <;> rfl

/-- AppendBit with a bit that fills the word (R131). -/
theorem appendBit_of_full {b : Bool} {s : State} (h : (placeBit b s).enc.rem = 0) :
    appendBit b s = flushWord (placeBit b s) :=
  if_pos h

/-- AppendBit with a bit that leaves room in the word (R131). -/
theorem appendBit_of_room {b : Bool} {s : State} (h : (placeBit b s).enc.rem ≠ 0) :
    appendBit b s = .done (placeBit b s) :=
  if_neg h

theorem appendBit_hold (b : Bool) (p : Held) (s : State) :
    appendBit b (hold p s) = (appendBit b s).withHeld p := by
  by_cases h0 : (placeBit b s).enc.rem = 0
  · rw [appendBit_of_full h0, appendBit_of_full (by exact h0)]
    exact flushWord_hold p (placeBit b s)
  · rw [appendBit_of_room h0, appendBit_of_room (by exact h0)]
    rfl

theorem appendBits_hold (c : Bits) (p : Held) (s : State) :
    appendBits c (hold p s) = (appendBits c s).withHeld p := by
  induction c generalizing s with
  | nil => rfl
  | cons b c ih =>
    rw [appendBits_cons, appendBits_cons, appendBit_hold]
    cases appendBit b s with
    | done t => exact ih t
    | faulted t => rfl
    | waiting t rest => rfl

theorem finishFlush_hold (nb : Nat) (p : Held) (s : State) :
    finishFlush nb (hold p s) = finishFlush nb s := by
  unfold finishFlush sinkFlush
  rw [hold_sinkAnswers]
  rcases s.sinkAnswers with _ | ⟨_ | landed, rest⟩ <;> rfl

theorem finishStream_hold (p : Held) (s : State) : finishStream (hold p s) = finishStream s := by
  by_cases hb : finishBytes s = 0
  · rw [finishStream_empty hb, finishStream_empty (by exact hb)]
    exact finishFlush_hold 0 p (clearAcc s)
  · have hpos := Nat.pos_of_ne_zero hb
    rw [finishStream, finishStream, if_pos hpos, if_pos (by exact hpos)]
    unfold sinkWrite
    rw [hold_sinkAnswers]
    rcases s.sinkAnswers with _ | ⟨_ | landed, rest⟩
    · rfl
    · exact finishFlush_hold (finishBytes s) p (clearAcc { s with
        sinkAnswers := rest
        trace := s.trace ++ [.sinkWrite (accBytes s.enc.acc (finishBytes s))] })
    · rfl

/-- What goes on at the point `q` does not read the point recorded in the state. -/
theorem resume_hold (q p : Held) (s : State) : resume q (hold p s) = resume q s := by
  cases q with
  | word rest count newPrev =>
    unfold resume resumeWord
    rw [flushWord_hold]
    cases flushWord s with
    | done t =>
      refine (congrArg (finishValue count newPrev) (appendBits_hold rest p t)).trans ?_
      simp only [AppendResult.andThen]
      cases appendBits rest t <;> rfl
    | faulted t => rfl
    | waiting t r => rfl
  | tail => exact finishStream_hold p s
  | flush nb => exact finishFlush_hold nb p s
  | read n delta => rfl

/-! ### Commands that hold and go on -/

/-- Where `k` holds from `s`, going on with an arrival is `k` with the arrival's answers there from
the start (R227). -/
def Resumes (k : State → State) (s : State) : Prop :=
  ∀ (a : Arrival) (p : Held), (k s).held = some p → k (a.deliver s) = resume p (a.deliver (k s))

theorem resumes_of_idle {k : State → State} {s : State} (h : (k s).held = none) : Resumes k s :=
  fun _ p hp => by rw [h] at hp; cases hp

theorem resumes_respond (r : State → Response) (k : State → State) (s : State) :
    Resumes (fun u => respond (r u) (k u)) s :=
  resumes_of_idle rfl

/-- A command that holds at once, at the point where it goes on. -/
theorem resumes_of_hold {k : State → State} {s : State} {p : Held} (h : k s = hold p s)
    (hk : ∀ u, k u = resume p u) : Resumes k s := by
  intro a q hq
  rw [h] at hq ⊢
  cases hq
  exact (hk _).trans (resume_hold p p (a.deliver s)).symm

/-- Going on with `k` from a later point of the same command. -/
theorem Resumes.after {k l : State → State} {s t : State} (h : Resumes k t) (hs : l s = k t)
    (ha : ∀ a : Arrival, l (a.deliver s) = k (a.deliver t)) : Resumes l s := by
  intro a p hp
  rw [hs] at hp ⊢
  exact (ha a).trans (h a p hp)

/-! ### The encoder's commands -/

/-- What an append becomes with an arrival, by what it is without: a fault has ended the command, and
a full word that waits is written and the rest appended. -/
def AppendResult.Resumes (a : Arrival) (r r' : AppendResult) : Prop :=
  match r with
  | .done t => r' = .done (a.deliver t)
  | .faulted t => t.held = none
  | .waiting t rest => r' = (flushWord (a.deliver t)).andThen rest (appendBits rest)

theorem appendBits_resumes (a : Arrival) (c : Bits) (s : State) :
    (appendBits c s).Resumes a (appendBits c (a.deliver s)) := by
  induction c generalizing s with
  | nil => rfl
  | cons b c ih =>
    rw [appendBits_cons, appendBits_cons]
    by_cases h0 : (placeBit b s).enc.rem = 0
    · rw [appendBit_of_full h0, appendBit_of_full (by exact h0)]
      rcases flushWord_cases (placeBit b s) with ⟨-, e⟩ | ⟨rest, hs, e⟩ | ⟨landed, rest, -, e⟩ <;>
        rw [e]
      · rfl
      · have hs' : (placeBit b (a.deliver s)).sinkAnswers = .ok :: (rest ++ a.sink) :=
          congrArg (· ++ a.sink) hs
        rw [flushWord_ok hs']
        exact ih _
      · rfl
    · rw [appendBit_of_room h0, appendBit_of_room (by exact h0)]
      exact ih (placeBit b s)

theorem resumes_encodeValue (rule : Nat) (x : Int) (newPrev : Option Word32) (s : State) :
    Resumes (encodeValue rule x newPrev) s := by
  by_cases hx : inDomain x = true
  · intro a p hp
    rw [encodeValue_inDomain _ _ _ hx] at hp ⊢
    rw [encodeValue_inDomain _ _ _ hx]
    have happend := appendBits_resumes a (cw x) s
    rcases h : appendBits (cw x) s with t | t | ⟨t, rest⟩ <;> rw [h] at hp happend
    · cases hp
    · rw [finishValue, show t.held = none from happend] at hp
      cases hp
    · cases hp
      rw [show appendBits (cw x) (a.deliver s) = _ from happend]
      exact (resume_hold (.word rest _ newPrev) _ (a.deliver t)).symm
  · exact resumes_of_idle (by rw [encodeValue, if_neg hx]; rfl)

theorem resumes_finishFlush (nb : Nat) (s : State) : Resumes (finishFlush nb) s := by
  rcases finishFlush_cases nb s with ⟨-, e⟩ | ⟨rest, -, e⟩ | ⟨landed, rest, -, e⟩
  · exact resumes_of_hold e fun _ => rfl
  · exact resumes_of_idle (by rw [e]; rfl)
  · exact resumes_of_idle (by rw [e]; rfl)

theorem resumes_finishStream (s : State) : Resumes finishStream s := by
  by_cases hb : finishBytes s = 0
  · exact (resumes_finishFlush 0 (clearAcc s)).after (finishStream_empty hb)
      fun a => finishStream_empty (s := a.deliver s) hb
  · have hpos := Nat.pos_of_ne_zero hb
    rcases finishStream_cases hpos with ⟨-, e⟩ | ⟨rest, hs, e⟩ | ⟨landed, rest, -, e⟩
    · exact resumes_of_hold (p := .tail) e fun _ => rfl
    · exact (resumes_finishFlush _ _).after e fun a =>
        finishStream_ok (s := a.deliver s) hpos (congrArg (· ++ a.sink) hs)
    · exact resumes_of_idle (by rw [e]; rfl)

/-- The checks before a command read registers that an arrival leaves alone (R225, R228). -/
theorem resumes_encoderCommand (rule : Nat) {k : State → State} {s : State} (h : Resumes k s) :
    Resumes (encoderCommand rule k) s := by
  rcases hf : s.enc.efault with _ | f
  · rcases hfin : s.enc.efin with _ | _
    · have hk : ∀ u : State, u.enc.efault = none → u.enc.efin = false →
          encoderCommand rule k u = k u := fun u hu hu' => by simp [encoderCommand, hu, hu']
      exact h.after (hk s hf hfin) fun a => hk (a.deliver s) hf hfin
    · exact resumes_of_idle (by rw [encoderCommand_finished rule k hf hfin]; rfl)
  · exact resumes_of_idle (by simp [encoderCommand, hf])

/-! ### The decoder's commands -/

theorem nextBit_deliver {s u : State} {b : Bool} (a : Arrival) (e : nextBit s = .bit b u) :
    nextBit (a.deliver s) = .bit b (a.deliver u) ∧ u.held = s.held := by
  rcases nextBit_cases s with ⟨h0, e'⟩ | ⟨h0, ⟨-, e'⟩ | ⟨c, rest, hs, e'⟩ | ⟨rest, -, e'⟩ |
    ⟨rest, -, e'⟩⟩ <;> rw [e'] at e <;> cases e
  · exact ⟨nextBit_buffered (s := a.deliver s) h0, rfl⟩
  · exact ⟨nextBit_byte (s := a.deliver s) h0 (congrArg (· ++ a.source) hs), rfl⟩

/-- A turn that goes round again does so too with an arrival's answers behind those there. -/
theorem loopStep_again_deliver {n : Nat} {delta : Bool} {s s' : State} (a : Arrival)
    (e : loopStep n delta s = .again s') :
    loopStep n delta (a.deliver s) = .again (a.deliver s') ∧ s'.held = s.held := by
  obtain ⟨hn, b, u, hu, hcase⟩ := loopStep_again_cases e
  obtain ⟨hbit, hheld⟩ := nextBit_deliver a hu
  rw [loopStep_bit (by exact hn) hbit, parseStep, ← hheld]
  rcases hcase with ⟨d, hd, rfl⟩ | ⟨x, d, hd, hx⟩ <;>
    rw [show decodeBit b (a.deliver u).dec = _ from hd]
  · exact ⟨rfl, rfl⟩
  · rcases deliver_again_cases hx with ⟨rfl, rfl⟩ | ⟨rfl, hf, rfl⟩
    · exact ⟨rfl, rfl⟩
    · have hf' : fitsS32 (({ a.deliver u with dec := d } : State).dec.base.toInt + x) = true := hf
      simp only [deliver, deltaAccumulate, hf', if_true]
      exact ⟨rfl, rfl⟩

/-- DecodeLoop holds after turns that an arrival does not change (R167, R227). -/
theorem resumes_decodeLoop (n : Nat) (delta : Bool) {s : State} (hh : s.held = none) :
    Resumes (decodeLoop n delta) s := by
  intro a
  refine decodeLoop_induct
    (P := fun u => u.held = none ∧
      decodeLoop n delta (a.deliver s) = decodeLoop n delta (a.deliver u))
    (Q := fun t => ∀ p, t.held = some p →
      decodeLoop n delta (a.deliver s) = resume p (a.deliver t))
    (fun u u' ⟨hu, hloop⟩ e => ?_) (fun u t ⟨hu, hloop⟩ e p hp => ?_) s ⟨hh, rfl⟩
  · obtain ⟨hagain, hheld⟩ := loopStep_again_deliver a e
    exact ⟨hheld.trans hu, hloop.trans (decodeLoop_again hagain)⟩
  · rcases loopStep_stop_cases e with ⟨-, rfl⟩ | ⟨-, ⟨-, rfl⟩ | ⟨v, -, rfl⟩ | ⟨v, -, rfl⟩ |
      ⟨b, v, -, -, rfl⟩ | ⟨b, v, x, d, -, -, -, -, rfl⟩⟩ <;> cases hp
    have hsame : { a.deliver (hold (.read n delta) u) with held := none } = a.deliver u := by
      rw [← hu]; rfl
    rw [hloop, resume, hsame]

/-- The check before a command reads DFAULT, which an arrival leaves alone (R225). -/
theorem resumes_decode (n : Nat) (delta : Bool) {s : State} (hh : s.held = none) :
    Resumes (decoderCommand (startDecode n delta)) s := by
  rcases hf : s.dec.dfault with _ | f
  · have hk : ∀ u : State, u.dec.dfault = none →
        decoderCommand (startDecode n delta) u = decodeLoop n delta { u with out := [] } :=
      fun u hu => by rw [decoderCommand, hu]; rfl
    exact (resumes_decodeLoop n delta (s := { s with out := [] }) hh).after (hk s hf)
      fun a => hk (a.deliver s) hf
  · exact resumes_of_idle (by simp [decoderCommand, hf])

/-! ### All commands -/

/-- A command that has held goes on with an arrival as it runs with the arrival's answers there from
the start (R227). -/
theorem exec_resumes {i : Instr} {s u : State} {p : Held} (a : Arrival) (hi : i.isCommand = true)
    (hh : s.held = none) (e : exec i s = .next u) (hp : u.held = some p) :
    exec i (a.deliver s) = .next (resume p (a.deliver u)) := by
  suffices hk : ∃ k, Resumes k s ∧ ∀ t, exec i t = whenIdle t (k t) by
    obtain ⟨k, hres, hexec⟩ := hk
    cases ((hexec s).trans (whenIdle_of_idle _ hh)).symm.trans e
    rw [hexec, whenIdle_of_idle _ (by exact hh), hres a p hp]
  cases i with
  | encInit => exact ⟨_, resumes_respond (fun _ => okResponse 0) (startEncoder 0) s, fun _ => rfl⟩
  | encOne v =>
    exact ⟨_, resumes_encoderCommand 136 (resumes_encodeValue 136 _ none s), fun _ => rfl⟩
  | encFinish => exact ⟨_, resumes_encoderCommand 137 (resumes_finishStream s), fun _ => rfl⟩
  | decInit => exact ⟨_, resumes_respond (fun _ => okResponse 0) (startDecoder 0) s, fun _ => rfl⟩
  | dec n => exact ⟨_, resumes_decode _ false hh, fun _ => rfl⟩
  | dencStart start =>
    exact ⟨_, resumes_respond (fun _ => okResponse 0) (startEncoder start) s, fun _ => rfl⟩
  | dencVal v =>
    have hdelta : Resumes (encodeDelta v) s :=
      (resumes_encodeValue 191 _ (some v) s).after rfl fun _ => rfl
    exact ⟨_, resumes_encoderCommand 191 hdelta, fun _ => rfl⟩
  | ddecStart base =>
    exact ⟨_, resumes_respond (fun _ => okResponse 0) (startDecoder base) s, fun _ => rfl⟩
  | ddec n => exact ⟨_, resumes_decode _ true hh, fun _ => rfl⟩
  | statusRead =>
    exact ⟨_, resumes_respond (fun u => statusResponse u.status) (fun u => u) s, fun _ => rfl⟩
  | cwZero => cases hi
  | cwNonzero n mbits sign => cases hi

/-- No command asserts the reset input. -/
theorem exec_resetIn {i : Instr} {s t : State} (hi : i.isCommand = true) (hh : s.held = none)
    (h : exec i s = .next t) : t.resetIn = s.resetIn := by
  rcases command_cases hi with henc | hdec | rfl
  · obtain ⟨e, -, hexec⟩ := exec_encoder_local (e := s.encSide) henc hh
    cases (hexec s).symm.trans h
    rfl
  · obtain ⟨d, -, hexec⟩ := exec_decoder_local (d := s.decSide) hdec hh
    cases (hexec s).symm.trans h
    rfl
  · cases (whenIdle_of_idle _ hh).symm.trans h
    rfl

theorem feedBits_held (b : Bits) (s : State) : (feedBits b s).held = s.held := by
  induction b generalizing s with
  | nil => rfl
  | cons x b ih =>
    unfold feedBits
    cases decodeBit x s.dec with
    | noValue d => exact ih _
    | value y d => exact ih _
    | overlong => rfl

theorem feedCodeword_held (b : Bits) (s : State) : (feedCodeword b s).held = s.held := by
  unfold feedCodeword
  split
  · exact feedBits_held b s
  · rfl

/-- Only a command holds: a codeword makes no use of the collaborators (log 12). -/
theorem isCommand_of_holds {i : Instr} {s t : State} (hh : s.held = none)
    (h : exec i s = .next t) (ht : t.held ≠ none) : i.isCommand = true := by
  cases i with
  | cwZero => cases h; exact absurd ((feedCodeword_held _ s).trans hh) ht
  | cwNonzero n mbits sign => cases h; exact absurd ((feedCodeword_held _ s).trans hh) ht
  | _ => rfl

/-- Settles O15: the step of the held command is its continuation, which ends as the command does
with the answers there from the start. -/
theorem holdIsTransparent : Obligations.HoldIsTransparent := by
  unfold Obligations.HoldIsTransparent
  intro i s u sinkAs srcAs hh hr hexec hu
  have hi := isCommand_of_holds hh hexec hu
  obtain ⟨p, hp⟩ := Option.ne_none_iff_exists'.1 hu
  have hreset := (exec_resetIn hi hh hexec).trans hr
  have hstep := step_of_held (s := Arrival.deliver ⟨sinkAs, srcAs⟩ u) hreset hp
  have hstart := exec_resumes ⟨sinkAs, srcAs⟩ hi hh hexec hp
  exact hstep.trans (congrArg logOutcome hstart).symm

end Sys2Proof.Machine
end

section
/-!
PROOF. Command words (R90 to R93): a word is its three fields, and the decoder and the encoder both read
the opcode map, so that each undoes the other.
-/

namespace Sys2Proof

/-! ### The fields of a word (R90) -/

/-- The three fields stand side by side. -/
theorem commandWord_eq_append (op : BitVec 8) (imm : Word32) :
    commandWord op imm = op ++ 0#24 ++ imm := by
  apply BitVec.eq_of_getLsbD_eq
  intro i hi
  simp only [commandWord, BitVec.getLsbD_or, BitVec.getLsbD_shiftLeft, BitVec.getLsbD_setWidth,
    BitVec.getLsbD_append]
  by_cases h32 : i < 32
  · simp [h32, hi, show i < 56 by omega]
  · by_cases h56 : i < 56
    · simp [h32, h56, show i - 32 < 24 by omega, BitVec.getLsbD_of_ge imm i (by omega)]
    · simp [h32, h56, hi, show ¬ i - 32 < 24 by omega, show i - 32 - 24 = i - 56 by omega,
        BitVec.getLsbD_of_ge imm i (by omega), show i - 56 < 64 by omega]

theorem commandWord_toNat (op : BitVec 8) (imm : Word32) :
    (commandWord op imm).toNat = op.toNat * 2 ^ 56 + imm.toNat := by
  rw [commandWord_eq_append, BitVec.toNat_append, BitVec.toNat_append,
    ← Nat.shiftLeft_add_eq_or_of_lt imm.isLt, ← Nat.shiftLeft_add_eq_or_of_lt (0#24).isLt]
  simp only [Nat.shiftLeft_eq, BitVec.toNat_ofNat]
  omega

@[simp] theorem opField_commandWord (op : BitVec 8) (imm : Word32) :
    opField (commandWord op imm) = op := by
  apply BitVec.eq_of_toNat_eq
  rw [opField, BitVec.extractLsb'_toNat, commandWord_toNat, Nat.shiftRight_eq_div_pow]
  omega

@[simp] theorem rsvField_commandWord (op : BitVec 8) (imm : Word32) :
    rsvField (commandWord op imm) = 0 := by
  apply BitVec.eq_of_toNat_eq
  rw [rsvField, BitVec.extractLsb'_toNat, commandWord_toNat, Nat.shiftRight_eq_div_pow]
  simp only [BitVec.ofNat_eq_ofNat, BitVec.toNat_ofNat]
  omega

@[simp] theorem immField_commandWord (op : BitVec 8) (imm : Word32) :
    immField (commandWord op imm) = imm := by
  apply BitVec.eq_of_toNat_eq
  rw [immField, BitVec.extractLsb'_toNat, commandWord_toNat, Nat.shiftRight_eq_div_pow]
  omega

/-- A word with RSV = 0 is the command word of its OP and IMM. -/
theorem commandWord_of_fields {w : CmdWord} (h : rsvField w = 0) :
    commandWord (opField w) (immField w) = w := by
  have hrsv := congrArg BitVec.toNat h
  apply BitVec.eq_of_toNat_eq
  simp only [commandWord_toNat, opField, immField, rsvField, BitVec.extractLsb'_toNat,
    Nat.shiftRight_eq_div_pow, BitVec.ofNat_eq_ofNat, BitVec.toNat_ofNat] at hrsv ⊢
  omega

/-- Settles O5: the value is that of the fields side by side, and each field is read off it. -/
theorem commandWordValue : Obligations.CommandWordValue := by
  unfold Obligations.CommandWordValue
  intro op imm
  exact ⟨commandWord_toNat op imm, opField_commandWord op imm, rsvField_commandWord op imm,
    immField_commandWord op imm⟩

/-! ### The rows of the opcode map (R92) -/

/-- The command of a row, with its operand. -/
def OpcodeForm.instr : OpcodeForm → Word32 → Instr
  | .plain i, _ => i
  | .operand mk, imm => mk imm

/-- The operands that a row admits: a command without an operand has IMM = 0 (R93 (c)). -/
def OpcodeForm.Admits : OpcodeForm → Word32 → Prop
  | .plain _, imm => imm = 0
  | .operand _, _ => True

/-- The rows as a list, each an opcode and its form. -/
def opcodeRows : List (BitVec 8 × OpcodeForm) :=
  [(0x01, .plain .encInit), (0x02, .operand .encOne), (0x03, .plain .encFinish),
    (0x04, .plain .decInit), (0x05, .operand .dec), (0x06, .operand .dencStart),
    (0x07, .operand .dencVal), (0x08, .operand .ddecStart), (0x09, .operand .ddec),
    (0x0A, .plain .statusRead)]

/-- The map holds no other row. -/
theorem mem_opcodeRows {op : BitVec 8} {form : OpcodeForm} (h : opcodeForm op = some form) :
    (op, form) ∈ opcodeRows := by
  unfold opcodeForm at h
  split at h <;> cases h
  all_goals
    rename_i hop
    simp [opcodeRows, ← BitVec.toNat_inj, hop]

/-- The decoder answers a command exactly where the map has a row for OP, RSV is 0, and the row admits
IMM (R93). -/
theorem decodeCommand_eq_ok_iff {w : CmdWord} {i : Instr} :
    decodeCommand w = .ok i ↔
      ∃ form, opcodeForm (opField w) = some form ∧ rsvField w = 0 ∧ form.Admits (immField w) ∧
        form.instr (immField w) = i := by
  unfold decodeCommand
  rcases opcodeForm (opField w) with _ | form
  · simp
  · simp only [Option.some.injEq, exists_eq_left']
    by_cases hr : rsvField w = 0
    · rw [if_neg (not_not.2 hr)]
      cases form with
      | plain j =>
        simp only [OpcodeForm.Admits, OpcodeForm.instr]
        split <;> simp_all
      | operand mk => simp [hr, OpcodeForm.Admits, OpcodeForm.instr]
    · rw [if_pos hr]
      exact ⟨nofun, fun h => absurd h.1 hr⟩

/-- A row's command is encoded with the row's opcode. -/
theorem encode_of_opcodeForm {op : BitVec 8} {form : OpcodeForm} {imm : Word32}
    (h : opcodeForm op = some form) (ha : form.Admits imm) :
    encode (form.instr imm) = .command (commandWord op imm) := by
  have hrows : ∀ row ∈ opcodeRows, row.2.Admits imm →
      encode (row.2.instr imm) = .command (commandWord row.1 imm) := by
    simp +contextual [opcodeRows, OpcodeForm.Admits, OpcodeForm.instr, encode]
  exact hrows _ (mem_opcodeRows h) ha

/-- Every command has a row. -/
theorem opcodeForm_of_isCommand {i : Instr} (h : i.isCommand = true) :
    ∃ op form imm, opcodeForm op = some form ∧ form.Admits imm ∧ form.instr imm = i := by
  cases i with
  | encInit => exact ⟨0x01, .plain .encInit, 0, rfl, rfl, rfl⟩
  | encOne v => exact ⟨0x02, .operand .encOne, v, rfl, trivial, rfl⟩
  | encFinish => exact ⟨0x03, .plain .encFinish, 0, rfl, rfl, rfl⟩
  | decInit => exact ⟨0x04, .plain .decInit, 0, rfl, rfl, rfl⟩
  | dec n => exact ⟨0x05, .operand .dec, n, rfl, trivial, rfl⟩
  | dencStart v => exact ⟨0x06, .operand .dencStart, v, rfl, trivial, rfl⟩
  | dencVal v => exact ⟨0x07, .operand .dencVal, v, rfl, trivial, rfl⟩
  | ddecStart v => exact ⟨0x08, .operand .ddecStart, v, rfl, trivial, rfl⟩
  | ddec n => exact ⟨0x09, .operand .ddec, n, rfl, trivial, rfl⟩
  | statusRead => exact ⟨0x0A, .plain .statusRead, 0, rfl, rfl, rfl⟩
  | cwZero => cases h
  | cwNonzero n mbits sign => cases h

/-! ### Decoding and encoding commands -/

theorem decode_encode_of_isCommand {i : Instr} (h : i.isCommand = true) :
    decode (encode i) = .ok i := by
  obtain ⟨op, form, imm, hform, ha, rfl⟩ := opcodeForm_of_isCommand h
  rw [encode_of_opcodeForm hform ha]
  exact decodeCommand_eq_ok_iff.2 ⟨form, by simpa using hform, by simp, by simpa using ha, by simp⟩

theorem wellFormed_of_isCommand {i : Instr} (h : i.isCommand = true) : i.wellFormed = true := by
  cases i with
  | cwNonzero n mbits sign => cases h
  | _ => rfl

/-- Settles O2: the encoder puts the same opcode and IMM back beside RSV = 0. -/
theorem encodeOfDecodedWord : Obligations.EncodeOfDecodedWord := by
  unfold Obligations.EncodeOfDecodedWord
  intro w i h
  have hi := Machine.decodeCommand_isCommand h
  obtain ⟨form, hform, hrsv, ha, rfl⟩ := decodeCommand_eq_ok_iff.1 h
  refine ⟨hi, wellFormed_of_isCommand hi, ?_⟩
  rw [encode_of_opcodeForm hform ha, commandWord_of_fields hrsv]

/-! ### Illegal words (R93) -/

namespace Machine

/-- (a): the map has a row for the opcodes 01 to 0A alone. -/
theorem opcodeForm_eq_none_iff (op : BitVec 8) :
    opcodeForm op = none ↔ op = 0 ∨ 0x0A#8 < op := by
  have hrange : (op = 0 ∨ 0x0A#8 < op) ↔ op.toNat = 0 ∨ 10 < op.toNat := by
    rw [BitVec.lt_def, ← BitVec.toNat_inj]; rfl
  rw [hrange]
  unfold opcodeForm
  split <;> simp_all
  omega

/-- (c): the rows that do not admit IMM are those without an operand, where IMM is not 0. -/
theorem not_admits_iff {op : BitVec 8} {form : OpcodeForm} (h : opcodeForm op = some form)
    (imm : Word32) :
    ¬ form.Admits imm ↔ imm ≠ 0 ∧ (op = 0x01 ∨ op = 0x03 ∨ op = 0x04 ∨ op = 0x0A) := by
  have hrows : ∀ row ∈ opcodeRows, (¬ row.2.Admits imm ↔
      imm ≠ 0 ∧ (row.1 = 0x01 ∨ row.1 = 0x03 ∨ row.1 = 0x04 ∨ row.1 = 0x0A)) := by
    simp [opcodeRows, OpcodeForm.Admits]
  exact hrows _ (mem_opcodeRows h)

/-- The illegal words are those that decode to no command. -/
theorem illegalWord_iff (w : CmdWord) : IllegalWord w ↔ ¬ ∃ i, decodeCommand w = .ok i := by
  simp only [decodeCommand_eq_ok_iff, IllegalWord, ← opcodeForm_eq_none_iff]
  rcases h : opcodeForm (opField w) with _ | form
  · simp
  · simp only [← not_admits_iff h, Option.some.injEq, reduceCtorEq, false_or, exists_eq_left',
      exists_and_left, exists_eq', and_true, not_and_or, ne_eq]

/-- Settles O6: a word is illegal exactly where the decoder has no command, and the step of such a word
is `illegalCommand`. -/
theorem illegalCommandWords : Obligations.IllegalCommandWords := by
  unfold Obligations.IllegalCommandWords
  refine ⟨fun w h => not_not.1 (mt (illegalWord_iff w).2 h), fun w h => ?_⟩
  rw [illegalWord_iff] at h
  obtain ⟨e, he⟩ : ∃ e, decodeCommand w = .error e := by
    cases hd : decodeCommand w with
    | error e => exact ⟨e, rfl⟩
    | ok i => exact absurd ⟨i, hd⟩ h
  refine ⟨⟨e, he⟩, fun s hr hh hf => ?_⟩
  obtain ⟨values, hlog⟩ := logStatus_frame (illegalCommand s)
  refine ⟨values, ?_⟩
  rw [step_of_illegal hr hh hf he, hlog, illegalCommand,
    respond_of_idle (s := { s with ill := true }) illegalResponse hh]
  rfl

end Machine

end Sys2Proof
end

section
/-!
PROOF. Codewords: the parser of the stream reads one from its leading bits (R80, R83, R84), CW is the
codeword of its value's fields (R81, R113), and the parse machine emits that value (R168).
-/

namespace Sys2Proof

/-! ### The stream's parser -/

theorem wellFormed_cwNonzero_iff {n mbits : Nat} {sign : Bool} :
    (Instr.cwNonzero n mbits sign).wellFormed = true ↔ 1 ≤ n ∧ n ≤ 30 ∧ mbits < 2 ^ n := by
  simp only [Instr.wellFormed, Bool.and_eq_true, decide_eq_true_eq, and_assoc]
  rfl

theorem decodeStream_one (t : Bits) : decodeStream (true :: t) = .ok (.cwZero, t) := by
  simp [decodeStream, splitZeros]

/-- The leading zeros give the class, and the class the number of bits to take (R83). -/
theorem decodeStream_codewordBits {n mbits : Nat} {sign : Bool}
    (h : (Instr.cwNonzero n mbits sign).wellFormed = true) (t : Bits) :
    decodeStream (codewordBits n mbits sign ++ t) = .ok (.cwNonzero n mbits sign, t) := by
  obtain ⟨hpos, hle, hm⟩ := wellFormed_cwNonzero_iff.1 h
  have hsplit : splitZeros (codewordBits n mbits sign ++ t) =
      (n, true :: (bitsOf n mbits ++ sign :: t)) := by
    rw [← splitZeros_replicate]
    simp [codewordBits]
  have htake : (bitsOf n mbits ++ sign :: t).take n = bitsOf n mbits :=
    List.take_left' (bitsOf_length n mbits)
  have hdrop : (bitsOf n mbits ++ sign :: t).drop n = sign :: t :=
    List.drop_left' (bitsOf_length n mbits)
  simp [decodeStream, hsplit, htake, hdrop, Config.nbitsMax, Nat.not_lt.2 hle,
    Nat.one_le_iff_ne_zero.1 hpos, valueOf_bitsOf, Nat.mod_eq_of_lt hm]

theorem le_splitZeros (n : Nat) (t : Bits) :
    n ≤ (splitZeros (List.replicate n false ++ t)).1 := by
  induction n with
  | zero => exact Nat.zero_le _
  | succ n ih => simpa [List.replicate_succ, splitZeros] using ih

theorem decodeStream_overlong (t : Bits) :
    decodeStream (List.replicate 31 false ++ t) = .error .overlongPrefix := by
  have h : Config.nbitsMax < (splitZeros (List.replicate 31 false ++ t)).1 := le_splitZeros 31 t
  rw [decodeStream, if_pos h]

/-- Settles O3: the leading zeros decide in each of the three cases. -/
theorem streamParserStopsAtCodewordEnd : Obligations.StreamParserStopsAtCodewordEnd := by
  unfold Obligations.StreamParserStopsAtCodewordEnd
  exact ⟨decodeStream_one, fun _ _ _ t h => decodeStream_codewordBits h t, decodeStream_overlong⟩

theorem exists_stream_of_not_isCommand {i : Instr} (h : ¬ i.isCommand = true) :
    ∃ b, encode i = .stream b := by
  cases i with
  | cwZero => exact ⟨_, rfl⟩
  | cwNonzero n mbits sign => exact ⟨_, rfl⟩
  | _ => exact absurd rfl h

/-- The parser reads a codeword of either format, whatever follows it. -/
theorem decodeStream_of_encode {i : Instr} {b : Bits} (h : i.wellFormed = true)
    (he : encode i = .stream b) (t : Bits) : decodeStream (b ++ t) = .ok (i, t) := by
  cases i with
  | cwZero => cases he; exact decodeStream_one t
  | cwNonzero n mbits sign => cases he; exact decodeStream_codewordBits h t
  | _ => cases he

/-- Settles O1: a codeword is read to its end with nothing left; a command has its row of the opcode
map. -/
theorem decodeOfEncode : Obligations.DecodeOfEncode := by
  unfold Obligations.DecodeOfEncode
  intro i h
  by_cases hi : i.isCommand = true
  · exact decode_encode_of_isCommand hi
  · obtain ⟨b, hb⟩ := exists_stream_of_not_isCommand hi
    have hparse := decodeStream_of_encode h hb []
    rw [List.append_nil] at hparse
    simp [hb, decode, hparse]

/-- Settles O4: the decoder run on the words. -/
theorem writtenOutWordsDecode : Obligations.WrittenOutWordsDecode := by
  unfold Obligations.WrittenOutWordsDecode
  decide

namespace Machine

/-! ### Magnitude classes (R82) -/

theorem magnitudeClass_eq_iff {v : Int} {n : Nat} :
    magnitudeClass v = n ↔ 2 ^ n ≤ biasedMagnitude v ∧ biasedMagnitude v < 2 ^ (n + 1) :=
  ⟨fun h => h ▸ magnitudeClass_bounds v, fun h => magnitudeClass_eq h.1 h.2⟩

theorem biasedMagnitude_cast (v : Int) : (biasedMagnitude v : Int) = |v| + 1 := by
  simp [biasedMagnitude]

/-- The class's bounds on the exact magnitude. -/
theorem magnitudeClass_eq_iff_abs {v : Int} {n : Nat} :
    magnitudeClass v = n ↔ 2 ^ n - 1 ≤ |v| ∧ |v| ≤ 2 ^ (n + 1) - 2 := by
  rw [magnitudeClass_eq_iff, ← Nat.cast_le (α := Int), ← Nat.cast_lt (α := Int),
    biasedMagnitude_cast]
  push_cast
  omega

theorem magnitudeClass_eq_zero_iff {v : Int} : magnitudeClass v = 0 ↔ v = 0 := by
  rw [magnitudeClass_eq_iff_abs]
  constructor
  · rintro ⟨-, h⟩
    exact abs_nonpos_iff.1 (by simpa using h)
  · rintro rfl
    simp

/-- A magnitude past the domain is in a class past 30; the converse is `magnitudeClass_le`. -/
theorem inDomain_iff_magnitudeClass_le (v : Int) : inDomain v = true ↔ magnitudeClass v ≤ 30 := by
  refine ⟨magnitudeClass_le, fun h => ?_⟩
  have hlt := (magnitudeClass_bounds v).2
  have hpow : 2 ^ (magnitudeClass v + 1) ≤ 2 ^ 31 := Nat.pow_le_pow_right (by norm_num) (by omega)
  rw [inDomain_iff]
  unfold biasedMagnitude at hlt
  omega

theorem cw_length_of_ne_zero {v : Int} (h : v ≠ 0) : (cw v).length = 2 * magnitudeClass v + 2 := by
  simp [cw, h]
  omega

/-- Settles O33: the class by its bounds on the magnitude, and the length by the class. -/
theorem magnitudeClassRanges : Obligations.MagnitudeClassRanges := by
  unfold Obligations.MagnitudeClassRanges
  refine ⟨fun v n _ => magnitudeClass_eq_iff_abs, fun v h => ?_, fun v => magnitudeClass_eq_zero_iff,
    rfl, inDomain_iff_magnitudeClass_le⟩
  apply cw_length_of_ne_zero
  rintro rfl
  exact absurd h (by decide)

/-! ### CW by its fields (R81, R113) -/

/-- The digits of `m` below its leading 1 are those of `m - 2^n`. -/
theorem bitsOf_leading {n m : Nat} (h1 : 2 ^ n ≤ m) (h2 : m < 2 ^ (n + 1)) :
    bitsOf (n + 1) m = true :: bitsOf n (m - 2 ^ n) := by
  obtain ⟨r, rfl⟩ := Nat.exists_eq_add_of_le h1
  have hr : r < 2 ^ n := by rw [pow_succ] at h2; omega
  rw [bitsOf_succ, Nat.testBit_two_pow_add_eq, Nat.testBit_lt_two_pow hr, Nat.add_sub_cancel_left,
    ← bitsOf_mod n (2 ^ n + r), Nat.add_mod_left, bitsOf_mod]
  rfl

/-- Doubling and adding a bit appends the bit. -/
theorem bitsOf_concat (k m : Nat) (b : Bool) :
    bitsOf (k + 1) (2 * m + b.toNat) = bitsOf k m ++ [b] := by
  have hdiv : (2 * m + b.toNat) / 2 ^ 1 = m := by cases b <;> simp; omega
  have hbit : bitsOf 1 (2 * m + b.toNat) = [b] := by cases b <;> simp [bitsOf]
  rw [bitsOf_add, hdiv, hbit]

/-- CW of a value other than 0 is the format N codeword of its class, MBITS and sign. -/
theorem cw_eq_codewordBits {v : Int} (h : v ≠ 0) :
    cw v = codewordBits (magnitudeClass v) (biasedMagnitude v - 2 ^ magnitudeClass v) (signBit v) := by
  obtain ⟨h1, h2⟩ := magnitudeClass_bounds v
  rw [cw, if_neg h, codewordBits, bitsOf_concat, bitsOf_leading h1 h2]
  rfl

theorem encode_codewordOf (v : Int) : encode (codewordOf v) = .stream (cw v) := by
  by_cases h : v = 0
  · simp [codewordOf, cw, encode, h]
  · simp [codewordOf, cw_eq_codewordBits, encode, h]

theorem wellFormed_codewordOf {v : Int} (h : inDomain v = true) : (codewordOf v).wellFormed = true := by
  unfold codewordOf
  split
  · rfl
  · rename_i hv
    obtain ⟨h1, h2⟩ := magnitudeClass_bounds v
    rw [pow_succ] at h2
    exact wellFormed_cwNonzero_iff.2
      ⟨Nat.one_le_iff_ne_zero.2 fun hc => hv (magnitudeClass_eq_zero_iff.1 hc),
        magnitudeClass_le h, by omega⟩

/-- The fields of a value's codeword give the value back (R81). -/
theorem valueOfFields_codewordOf (v : Int) :
    valueOfFields (magnitudeClass v) (biasedMagnitude v - 2 ^ magnitudeClass v) (signBit v) = v := by
  have hm : 2 ^ magnitudeClass v + (biasedMagnitude v - 2 ^ magnitudeClass v) = biasedMagnitude v :=
    Nat.add_sub_cancel' (magnitudeClass_bounds v).1
  rw [valueOfFields, hm, biasedMagnitude_cast]
  by_cases hneg : v < 0
  · simp [signBit, hneg, abs_of_neg hneg]
  · simp [signBit, hneg, abs_of_nonneg (Int.not_lt.1 hneg)]

/-- The stream's parser reads the codeword of a value, whatever follows it. -/
theorem decodeStream_cw {v : Int} (h : inDomain v = true) (t : Bits) :
    decodeStream (cw v ++ t) = .ok (codewordOf v, t) :=
  decodeStream_of_encode (wellFormed_codewordOf h) (encode_codewordOf v) t

/-- Settles O32: the parser reads the codeword of the value's fields, which spell the value. -/
theorem parseInvertsCodeword : Obligations.ParseInvertsCodeword := by
  unfold Obligations.ParseInvertsCodeword
  intro v t h
  rw [parseCW, decodeStream_cw h]
  by_cases hv : v = 0
  · simp [codewordOf, hv]
  · simp [codewordOf, hv, valueOfFields_codewordOf]

/-! ### A codeword at the parse machine (R168) -/

theorem parseAll_append_of {a c : Bits} {d e f : DecUnit} {xs ys : List Int}
    (ha : parseAll a d = some (xs, e)) (hc : parseAll c e = some (ys, f)) :
    parseAll (a ++ c) d = some (xs ++ ys, f) := by
  simp [parseAll_append, ha, hc]

/-- In RS the sign bit ends the codeword, whose value is that of its fields (R165). -/
theorem parseAll_sign {n mbits : Nat} (sign : Bool) (h : 2 ^ n + mbits < 2 ^ 31) {d : DecUnit}
    (hd : d.dstate = .rs) (hm : d.mag = BitVec.ofNat 31 (2 ^ n + mbits)) :
    parseAll [sign] d =
      some ([valueOfFields n mbits sign], { d with zrun := 0, dstate := .cz }) := by
  have hmag : d.mag.toNat = 2 ^ n + mbits := by
    rw [hm, BitVec.toNat_ofNat, Nat.mod_eq_of_lt h]
  simp only [parseAll, decodeBit_rs sign hd, hmag, valueOfFields, Option.map_some]

/-- The bits of a codeword emit its value with the last one, and leave the machine between two
codewords. -/
theorem parseAll_codewordBits {n mbits : Nat} {sign : Bool}
    (h : (Instr.cwNonzero n mbits sign).wellFormed = true) {d : DecUnit} (hd : d.dstate = .cz)
    (hz : d.zrun = 0) :
    parseAll (codewordBits n mbits sign) d = some ([valueOfFields n mbits sign],
      { d with mag := BitVec.ofNat 31 (2 ^ n + mbits), srem := 0 }) := by
  obtain ⟨hpos, hle, hm⟩ := wellFormed_cwNonzero_iff.1 h
  have hpow : 2 ^ n ≤ 2 ^ 30 := Nat.pow_le_pow_right (by norm_num) hle
  have hzeros := parseAll_zeros n hd (by omega)
  have hdelim : parseAll [true] { d with zrun := n } =
      some ([], { d with zrun := n, mag := 1, srem := n, dstate := .sb }) := by
    rw [parseAll, decodeBit_cz_one_pos (d := { d with zrun := n }) hd (by simp; omega)]
    rfl
  have hbits := parseAll_magnitude (bitsOf n mbits)
    (d := { d with zrun := n, mag := 1, srem := n, dstate := .sb }) rfl
    (List.ne_nil_of_length_pos (by rw [bitsOf_length]; omega)) (by simp)
    (by rw [bitsOf_length]; change (1 + 1) * 2 ^ n ≤ 2 ^ 31; omega)
  rw [bitsOf_length, valueOf_bitsOf, Nat.mod_eq_of_lt hm, show (1 : BitVec 31).toNat = 1 from rfl,
    Nat.one_mul] at hbits
  have hsign := parseAll_sign (n := n) (mbits := mbits) sign (by omega)
    (d := { d with
      zrun := n, mag := BitVec.ofNat 31 (2 ^ n + mbits), srem := 0, dstate := .rs }) rfl rfl
  rw [hz, Nat.zero_add] at hzeros
  simp only [hd, hz]
  exact parseAll_append_of hzeros (parseAll_append_of hdelim (parseAll_append_of hbits hsign))

/-- The bits fed at once leave what the parse machine leaves, and its values join the output list. -/
theorem feedBits_of_parseAll {c : Bits} {s : State} {xs : List Int} {d : DecUnit}
    (h : parseAll c s.dec = some (xs, d)) :
    feedBits c s = { s with dec := d, out := s.out ++ xs.map s32 } := by
  induction c generalizing s xs with
  | nil => cases h; simp [feedBits]
  | cons b c ih =>
    simp only [parseAll, feedBits] at h ⊢
    rcases hb : decodeBit b s.dec with e | ⟨x, e⟩ | _ <;> rw [hb] at h <;> simp only at h ⊢
    · exact ih (s := { s with dec := e }) h
    · obtain ⟨⟨ys, f⟩, hy, he⟩ := Option.map_eq_some_iff.1 h
      cases he
      rw [ih (s := emit (s32 x) { s with dec := e }) hy]
      simp [emit]
    · cases h

theorem feedCodeword_of_parseAll {c : Bits} {s : State} {xs : List Int} {d : DecUnit}
    (hf : s.dec.dfault = none) (h : parseAll c s.dec = some (xs, d)) :
    feedCodeword c s = { s with dec := d, out := s.out ++ xs.map s32 } := by
  rw [feedCodeword, hf]
  exact feedBits_of_parseAll h

/-- Settles O48: the parse machine emits the value of the codeword's fields. -/
theorem codewordInstructionEmitsValue : Obligations.CodewordInstructionEmitsValue := by
  unfold Obligations.CodewordInstructionEmitsValue
  refine ⟨fun s hf hd hz => ?_, fun s n mbits sign hwf hf hd hz => ?_⟩
  · have hparse : parseAll [true] s.dec = some ([0], s.dec) := by
      simp [parseAll, decodeBit_cz_one_zero hd hz]
    exact congrArg _ (feedCodeword_of_parseAll hf hparse)
  · have hfeed := feedCodeword_of_parseAll hf (parseAll_codewordBits hwf hd hz)
    rw [exec, execCwNonzero, hfeed]
    simp [valueOfFields, s32]

end Machine

end Sys2Proof
end

section
/-!
PROOF. CW as a function of the value: its intermediate values (R111), its length (R112), its two forms
(R113) and its prefix-free image (R114); and the values outside its domain (R115).
-/

namespace Sys2Proof.Machine

/-! ### The intermediate values (R111) -/

/-- Below a leading 1 there is room for one bit more: `(m << 1) | b` has one digit more than `m`. -/
theorem two_mul_add_bit_bounds {n m : Nat} (b : Bool) (h1 : 2 ^ n ≤ m) (h2 : m < 2 ^ (n + 1)) :
    2 ^ (n + 1) ≤ 2 * m + b.toNat ∧ 2 * m + b.toNat < 2 ^ (n + 2) := by
  have hb := b.toNat_le
  rw [pow_succ] at h2
  rw [pow_succ, pow_succ]
  omega

theorem signBit_eq_true_iff {v : Int} : signBit v = true ↔ v < 0 := by simp [signBit]

theorem signBit_eq_false_iff {v : Int} (h : v ≠ 0) : signBit v = false ↔ 0 < v := by
  rw [← Bool.not_eq_true, signBit_eq_true_iff]
  omega

theorem two_le_biasedMagnitude {v : Int} (h : v ≠ 0) : 2 ≤ biasedMagnitude v := by
  unfold biasedMagnitude
  omega

theorem one_le_magnitudeClass {v : Int} (h : v ≠ 0) : 1 ≤ magnitudeClass v :=
  Nat.one_le_iff_ne_zero.2 (magnitudeClass_eq_zero_iff.not.2 h)

/-- Settles O28: the class bounds the magnitude by powers of two, and one bit more doubles them. -/
theorem codewordIntermediateValues : Obligations.CodewordIntermediateValues := by
  unfold Obligations.CodewordIntermediateValues
  intro v hv hd
  obtain ⟨hlow, hhigh⟩ := magnitudeClass_bounds v
  obtain ⟨hlow', hhigh'⟩ := two_mul_add_bit_bounds (signBit v) hlow hhigh
  have hmag := biasedMagnitude_le hd
  have hbit := (signBit v).toNat_le
  exact ⟨signBit_eq_true_iff, signBit_eq_false_iff hv, biasedMagnitude_cast v,
    two_le_biasedMagnitude hv, hmag, rfl, hlow, hhigh, one_le_magnitudeClass hv,
    magnitudeClass_le hd, hlow', hhigh', by omega⟩

/-! ### The length and the two forms (R112, R113) -/

theorem one_le_cw_length (v : Int) : 1 ≤ (cw v).length := by
  rcases eq_or_ne v 0 with rfl | h
  · exact Nat.le_refl 1
  · rw [cw_length_of_ne_zero h]; omega

/-- Settles O29: the length by the class. -/
theorem codewordLength : Obligations.CodewordLength := by
  unfold Obligations.CodewordLength
  exact ⟨rfl, fun _ => cw_length_of_ne_zero, fun v hd => ⟨one_le_cw_length v, cw_length_le hd⟩⟩

/-- Settles O30: both forms end with the sign bit, after the digits of `m`, whose leading 1 is the
delimiter of the field form. -/
theorem codewordFieldForm : Obligations.CodewordFieldForm := by
  unfold Obligations.CodewordFieldForm
  intro v _
  obtain ⟨hlow, hhigh⟩ := magnitudeClass_bounds v
  refine ⟨?_, encode_codewordOf v, ?_, ?_⟩
  · rw [bitsOf_concat, bitsOf_leading hlow hhigh]
    simp
  · rw [pow_succ] at hhigh
    omega
  · rw [pow_succ]
    omega

/-! ### The prefix-free image (R114) -/

/-- Settles O31: ParseCW reads both values from the front of the longer codeword. -/
theorem codewordsArePrefixFree : Obligations.CodewordsArePrefixFree := by
  unfold Obligations.CodewordsArePrefixFree
  rintro v w hv hw ⟨t, ht⟩
  have hparse : some (v, t) = some (w, []) := calc
    some (v, t) = parseCW (cw v ++ t) := (parseInvertsCodeword v t hv).symm
    _ = parseCW (cw w ++ []) := by rw [ht, List.append_nil]
    _ = some (w, []) := parseInvertsCodeword w [] hw
  cases hparse
  rfl

/-! ### Outside the domain (R115) -/

/-- Of the s32 values only the three of largest magnitude are outside the domain. -/
theorem inDomain_toInt_eq_false_iff (v : Word32) : inDomain v.toInt = false ↔
    v.toInt = 2 ^ 31 - 1 ∨ v.toInt = -(2 ^ 31 - 1) ∨ v.toInt = -(2 ^ 31) := by
  have hlow := v.le_toInt
  have hhigh := v.toInt_lt
  rw [← Bool.not_eq_true, inDomain_iff]
  omega

/-- ENC_ONE and DENC_VAL on an open encoder raise ENC_RANGE for a value outside the domain, before
any bit is appended (R136, R191); `exec_valueCommand` has the values inside it. -/
theorem exec_valueCommand_outOfDomain {s : State} (h : s.EncoderOpen) (x : Bool × Word32)
    (hd : inDomain (encodedValue s.enc.prev x) = false) :
    exec (valueCommand x) s =
      .next (raiseFault (if x.1 then 191 else 136) (.enc .range) s) := by
  have hvalue (rule : Nat) (newPrev : Option Word32) :
      encodeValue rule (encodedValue s.enc.prev x) newPrev s = raiseFault rule (.enc .range) s := by
    simp [encodeValue, hd]
  have hopen (rule : Nat) (k : State → State) :
      whenIdle s (encoderCommand rule k s) = .next (k s) := by
    rw [whenIdle_of_idle _ h.idle, encoderCommand_open _ _ h]
  obtain ⟨_ | _, v⟩ := x
  · exact (hopen 136 _).trans (congrArg _ (hvalue 136 none))
  · exact (hopen 191 _).trans (congrArg _ (hvalue 191 (some v)))

/-- Settles O37: the domain's bounds, and the fault that both value commands raise past them. -/
theorem outOfDomainRaisesEncRange : Obligations.OutOfDomainRaisesEncRange := by
  unfold Obligations.OutOfDomainRaisesEncRange
  exact ⟨inDomain_iff, inDomain_toInt_eq_false_iff,
    fun s v ho hd => (exec_valueCommand_outOfDomain ho (false, v) hd).trans
      (congrArg _ (raiseFault_enc 136 .range ho.idle ho.noFault)),
    fun s v ho hd => (exec_valueCommand_outOfDomain ho (true, v) hd).trans
      (congrArg _ (raiseFault_enc 191 .range ho.idle ho.noFault))⟩

end Sys2Proof.Machine
end

section
/-!
PROOF. ENC_INIT, by its one word and by what it does (R92, R135); and the commands of the encoder at a
sink that falls silent (R133, R137, R227).
-/

namespace Sys2Proof.Machine

/-! ### The words of a command -/

/-- The decoder and the encoder of command words are inverse to each other (R92, R93). -/
theorem decodeCommand_eq_ok_iff_encode {w : CmdWord} {i : Instr} :
    decodeCommand w = .ok i ↔ encode i = .command w := by
  constructor <;> intro h
  · obtain ⟨-, -, henc⟩ := encodeOfDecodedWord w i h
    exact henc
  · have hi : i.isCommand = true := by
      cases i with
      | cwZero => cases h
      | cwNonzero n mbits sign => cases h
      | _ => rfl
    have hd := decode_encode_of_isCommand hi
    rwa [h] at hd

/-- Settles O22: the word is the one that the encoder gives the command. -/
theorem encInitStartsStream : Obligations.EncInitStartsStream := by
  unfold Obligations.EncInitStartsStream
  refine ⟨fun w => ?_, fun s hh => ?_⟩
  · have hword : encode .encInit = .command 0x0100000000000000 := by decide
    rw [decodeCommand_eq_ok_iff_encode, hword, Wire.command.injEq, eq_comm]
  · refine (whenIdle_of_idle _ hh).trans ?_
    rw [respond_of_idle (s := startEncoder 0 s) _ hh]
    rfl

/-! ### A sink that falls silent -/

/-- FlushWord at a sink that does not answer (R133, R227). -/
theorem flushWord_silent {s : State} (hs : s.sinkAnswers = []) : flushWord s = .waiting s [] := by
  rcases flushWord_cases s with ⟨-, e⟩ | ⟨r, he, -⟩ | ⟨l, r, he, -⟩
  · exact e
  · rw [hs] at he; cases he
  · rw [hs] at he; cases he

/-- The flush of ENC_FINISH at a sink that does not answer (R137, R227). -/
theorem finishFlush_silent (nb : Nat) {s : State} (hs : s.sinkAnswers = []) :
    finishFlush nb s = hold (.flush nb) s := by
  rcases finishFlush_cases nb s with ⟨-, e⟩ | ⟨r, he, -⟩ | ⟨l, r, he, -⟩
  · exact e
  · rw [hs] at he; cases he
  · rw [hs] at he; cases he

/-- Settles O13: AppendBits goes up to the full word that the sink does not take; ENC_FINISH holds at its
flush, which comes at once without pending bits and after the write with them. -/
theorem silentSinkHoldsEncoder : Obligations.SilentSinkHoldsEncoder := by
  unfold Obligations.SilentSinkHoldsEncoder
  refine ⟨fun s v delta x k hw ho h hx hd hlen hs => ?_, fun s ho hp hs => ?_, fun s ho hb hs => ?_⟩
  · change x = encodedValue s.enc.prev (delta, v) at hx
    subst hx
    have hdrop : s.sinkAnswers.drop k = [] := by simp [hs]
    obtain ⟨words, acc, hcount, hsize, hbits, happend⟩ :=
      appendBits_toFullWord _ k hw h hlen ⟨by simp [hs], by simp [hs]⟩
    refine ⟨words, acc, hcount, hsize, hbits, (exec_valueCommand ho (delta, v) hd).trans ?_⟩
    rw [happend, flushWord_silent (by exact hdrop), AppendResult.andThen, finishValue, hold, hdrop]
  · rw [exec_encFinish_open ho, finishStream_empty ((finishBytes_eq_zero_iff s).2 hp),
      finishFlush_silent 0 (s := clearAcc s) hs]
    rfl
  · rw [exec_encFinish_open ho, finishStream_ok hb hs, finishFlush_silent _ (by exact rfl)]
    rfl

end Sys2Proof.Machine
end

section
/-!
PROOF. How DEC and DDEC end when the buffer does not fill: at a source that is exhausted, fails or falls
silent after the bits that stand ready, and at a 31st prefix zero (R160, R161, R167, R194, R227); and
DEC_INIT (R166).
-/

namespace Sys2Proof.Machine

/-! ### The bits that stand ready, all used up -/

/-- As long as `m` bits spell fewer than `n` values, so do fewer bits. -/
theorem parseAll_take_lt {c : Bits} {d e : DecUnit} {xs : List Int} {m n : Nat}
    (h : parseAll (c.take m) d = some (xs, e)) (hn : xs.length < n) (j : Nat) (hj : j < m)
    (ys : List Int) (f : DecUnit) (k : parseAll (c.take j) d = some (ys, f)) : ys.length < n := by
  have htake : (c.take m).take j = c.take j := by rw [List.take_take, min_eq_left hj.le]
  rw [← htake] at k
  exact (parseAll_take j h k).length_le.trans_lt hn

/-- DEC and DDEC over bits that spell fewer values than the buffer takes: the loop uses them all and
goes on with the source's next answer (R160, R167, R194). -/
theorem exec_decode_readyBits {s : State} {n : Word32} {delta : Bool} {bytes : List Byte}
    {tail : List SrcAnswer} {xs : List Int} {d : DecUnit} (ho : s.DecoderOpen)
    (hs : s.srcAnswers = bytes.map SrcAnswer.byte ++ tail)
    (hp : parseAll (s.dec.bufferedBits ++ bitsOfBytes bytes) s.dec = some (xs, d))
    (hn : xs.length < n.toNat) (hf : SumsFit delta s.dec.base xs) :
    exec (if delta then .ddec n else .dec n) s =
      .next (decodeLoop n.toNat delta (afterBits delta { s with out := [] } bytes 0 xs d tail)) := by
  rw [exec_decode_open n delta ho]
  congr 1
  have hlen := readyBits_length { s with out := [] } bytes
  have hall : parseAll ((readyBits { s with out := [] } bytes).take _) s.dec = some (xs, d) :=
    (congrArg (parseAll · s.dec) List.take_length).trans hp
  exact decodeLoop_afterBits _ hlen.symm (fun _ => by omega) hs hall
    (fun j hj ys e hys => by simpa using parseAll_take_lt hall hn j hj ys e hys) hf

/-- The output list after those bits is not full. -/
theorem afterBits_not_full {s : State} {n : Nat} {delta : Bool} {bytes : List Byte} {unused : Nat}
    {tail : List SrcAnswer} {xs : List Int} {d : DecUnit} (hn : xs.length < n) :
    (afterBits delta { s with out := [] } bytes unused xs d tail).out.length ≠ n := by
  simpa [afterBits] using hn.ne

/-- Settles O14: the loop uses the ready bits up, and its next SourceRead is not answered. -/
theorem decodeHoldsAfterReadyBits : Obligations.DecodeHoldsAfterReadyBits := by
  unfold Obligations.DecodeHoldsAfterReadyBits
  intro s n delta bytes xs d ho hs hp hn hf
  obtain ⟨-, -, -, hexh, hfault⟩ := parseAll_frame hp
  rw [exec_decode_readyBits (tail := []) ho (by simpa using hs) hp hn hf,
    decodeLoop_stop (loopStep_wait (afterBits_not_full hn) rfl rfl), hold]
  simp [afterBits, hexh, hfault]

/-! ### A source that is exhausted -/

/-- DEC and DDEC over bytes and then `eof`, with fewer values than the buffer takes (R167, R194). -/
theorem exec_decode_eof {s : State} {n : Word32} {delta : Bool} {bytes : List Byte}
    {rest : List SrcAnswer} {xs : List Int} {d : DecUnit} (ho : s.DecoderOpen)
    (hs : s.srcAnswers = bytes.map SrcAnswer.byte ++ .eof :: rest)
    (hp : parseAll (s.dec.bufferedBits ++ bitsOfBytes bytes) s.dec = some (xs, d))
    (hn : xs.length < n.toNat) (hf : SumsFit delta s.dec.base xs) :
    exec (if delta then .ddec n else .dec n) s = .next { s with
      dec := { d with
        byte := bytes.getLastD s.dec.byte
        bitsLeft := 0
        dexh := true
        base := baseAfter delta s.dec.base xs }
      srcAnswers := rest
      cpc := s.cpc + 1
      out := emittedValues delta s.dec.base xs
      trace := s.trace ++ (bytes.map fun b => .sourceRead (.byte b)) ++
        [.sourceRead .eof,
          .response { rc := .ok, count := xs.length, dstat := true,
                      values := emittedValues delta s.dec.base xs }] } := by
  obtain ⟨-, -, -, -, hfault⟩ := parseAll_frame hp
  rw [exec_decode_readyBits ho hs hp hn hf,
    decodeLoop_stop (loopStep_eof (afterBits_not_full hn) rfl rfl), endDecode,
    respond_of_idle _ (by exact ho.idle)]
  simp [afterBits, decodeResponse, hfault]

/-- Settles O49: DEC emits the values themselves and keeps BASE. -/
theorem decReadsUntilExhausted : Obligations.DecReadsUntilExhausted := by
  unfold Obligations.DecReadsUntilExhausted
  intro s n bytes rest xs d ho hs hp hn
  obtain ⟨-, -, hbase, -, -⟩ := parseAll_frame hp
  have hexec := exec_decode_eof (delta := false) ho hs hp hn nofun
  simp only [baseAfter, ← hbase] at hexec
  exact hexec

theorem fitsS32_iff {x : Int} : fitsS32 x = true ↔ -(2 ^ 31) ≤ x ∧ x ≤ 2 ^ 31 - 1 := by
  simp [fitsS32]

/-- Settles O50: DDEC emits the running sums, and BASE is the last of them. -/
theorem ddecReadsUntilExhausted : Obligations.DdecReadsUntilExhausted := by
  unfold Obligations.DdecReadsUntilExhausted
  intro s n bytes rest xs d ho hs hp hn hf
  exact exec_decode_eof (delta := true) ho hs hp hn fun _ y hy => fitsS32_iff.2 (hf y hy)

/-! ### Faults of the decoder -/

/-- A decoder fault, raised by a command of a decoder without one: the values emitted before it are
returned (R224). -/
theorem raiseFault_dec (rule : Nat) (f : DecFault) {s : State} (hh : s.held = none)
    (hf : s.dec.dfault = none) :
    raiseFault rule (.dec f) s = { s with
      dec := { s.dec with dfault := some f }
      cpc := s.cpc + 1
      trace := s.trace ++
        [.response { rc := .fault, fcode := f.code, count := s.out.length, values := s.out }]
      faultLog := s.faultLog ++ [⟨rule, s.cpc, .dec f⟩] } := by
  rw [raiseFault, respond_of_idle _ (by exact hh)]
  simp [recordFault, faultResponse, hf]

/-- Settles O53: the loop uses the ready bits up, and its next SourceRead fails. -/
theorem sourceFailureRaisesSrcIo : Obligations.SourceFailureRaisesSrcIo := by
  unfold Obligations.SourceFailureRaisesSrcIo
  intro s n delta bytes rest xs d ho hs hp hn hf
  obtain ⟨-, -, -, hexh, -⟩ := parseAll_frame hp
  rw [exec_decode_readyBits ho hs hp hn hf,
    decodeLoop_stop (loopStep_err (afterBits_not_full hn) rfl rfl),
    raiseFault_dec _ _ (by exact ho.idle) (by exact ho.noFault)]
  simp [afterBits, hexh, DecFault.code]

/-- Settles O54: the loop takes the bit after the first `k`, at which DecodeBit raises the fault. -/
theorem overlongPrefixRaisesFault : Obligations.OverlongPrefixRaisesFault := by
  unfold Obligations.OverlongPrefixRaisesFault
  intro s n delta bytes rest k unused xs d ho hs hk hu hp hd hz hbit hn hf
  obtain ⟨-, -, -, hexh, -⟩ := parseAll_frame hp
  obtain ⟨u, b, hloop, hb, htake, hout⟩ :=
    decodeLoop_toBit (s := { s with out := [] }) (n := n.toNat) k hk.symm hu hs hp
      (fun j hj ys e hys => by simpa using parseAll_take_lt hp hn j hj ys e hys) hf
  obtain rfl : b = false := Option.some.inj (hb.symm.trans hbit)
  have hlen : u.out.length ≠ n.toNat := by simpa [hout] using hn.ne
  have hover := decodeBit_cz_overlong
    (d := (afterBits delta { s with out := [] } bytes unused xs d rest).dec) hd hz
  rw [exec_decode_open n delta ho, hloop,
    decodeLoop_stop ((loopStep_bit hlen htake).trans (by rw [parseStep, hover])),
    raiseFault_dec _ _ (by exact ho.idle) (by exact ho.noFault)]
  simp [afterBits, hexh, DecFault.code]

/-! ### DEC 0 and DEC_INIT -/

/-- Settles O52: the first turn finds the buffer full. -/
theorem decodeOfNothingIsFull : Obligations.DecodeOfNothingIsFull := by
  unfold Obligations.DecodeOfNothingIsFull
  intro s delta ho
  rw [exec_decode_open 0 delta ho, decodeLoop_stop (loopStep_full (by rfl)), endDecode,
    respond_of_idle _ (by exact ho.idle)]
  rfl

theorem exec_decInit {s : State} (hh : s.held = none) :
    exec .decInit s = .next { startDecoder 0 s with
      cpc := s.cpc + 1
      trace := s.trace ++ [.response { rc := .ok }] } := by
  refine (whenIdle_of_idle _ hh).trans ?_
  rw [respond_of_idle (s := startDecoder 0 s) _ hh]
  rfl

/-- Settles O24: the word is the one that the encoder gives the command. -/
theorem decInitStartsStream : Obligations.DecInitStartsStream := by
  unfold Obligations.DecInitStartsStream
  refine ⟨fun w => ?_, fun s hh => ⟨_, _, _, exec_decInit hh⟩⟩
  have hword : encode .decInit = .command 0x0400000000000000 := by decide
  rw [decodeCommand_eq_ok_iff_encode, hword, Wire.command.injEq, eq_comm]

end Sys2Proof.Machine
end

section
/-!
PROOF. DecodeBit rule by rule (R162 to R165), and the bits of a codeword at the parse machine stage by
stage (R168).
-/

namespace Sys2Proof.Machine

/-! ### DecodeBit under the parse invariant -/

/-- In SB the bit is put behind the digits of MAG (R164). -/
theorem decodeBit_sb_doubles {d : DecUnit} (h : d.ParseInv) (hd : d.dstate = .sb) (b : Bool) :
    ∃ mag : BitVec 31, mag.toNat = 2 * d.mag.toNat + b.toNat ∧
      decodeBit b d = .noValue { d with
        mag := mag, srem := d.srem - 1, dstate := if d.srem = 1 then .rs else .sb } := by
  obtain ⟨hpos, hle, -, hhigh⟩ := h.in_sb hd
  have hz := h.zrun_le
  have h30 : 2 ^ (d.zrun - d.srem + 1) ≤ 2 ^ 30 := Nat.pow_le_pow_right (by norm_num) (by omega)
  have hlast : d.srem - 1 = 0 ↔ d.srem = 1 := by omega
  refine ⟨_, mag_shift d.mag b (by omega), ?_⟩
  simp only [decodeBit_sb b hd, hlast]

/-- In RS the sign bit completes a value of magnitude MAG - 1, which is neither 0 nor outside the domain
(R165). -/
theorem decodeBit_rs_completes {d : DecUnit} (h : d.ParseInv) (hd : d.dstate = .rs) (b : Bool) :
    ∃ x : Int, decodeBit b d = .value x { d with zrun := 0, dstate := .cz } ∧
      |x| = d.mag.toNat - 1 ∧ (x < 0 ↔ b = true) ∧ x ≠ 0 ∧ inDomain x = true := by
  obtain ⟨-, hpos, hlow, hhigh⟩ := h.in_rs hd
  have hz := h.zrun_le
  have h2 : 2 ^ 1 ≤ 2 ^ d.zrun := Nat.pow_le_pow_right (by norm_num) hpos
  have h31 : 2 ^ (d.zrun + 1) ≤ 2 ^ 31 := Nat.pow_le_pow_right (by norm_num) (by omega)
  refine ⟨_, decodeBit_rs b hd, ?_⟩
  rw [inDomain_iff]
  cases b
  · rw [if_neg Bool.false_ne_true, abs_of_nonneg (by omega)]
    exact ⟨rfl, by simp; omega, by omega, by omega⟩
  · rw [if_pos rfl, abs_neg, abs_of_nonneg (by omega)]
    exact ⟨rfl, by simp; omega, by omega, by omega⟩

/-- Settles O46: the rule that applies in each state. -/
theorem parseMachineRules : Obligations.ParseMachineRules := by
  unfold Obligations.ParseMachineRules
  exact ⟨fun d hd hz => decodeBit_cz_one_zero hd hz, fun d hd hz => decodeBit_cz_one_pos hd hz.ne',
    fun d b h hd => decodeBit_sb_doubles h hd b, fun d b h hd => decodeBit_rs_completes h hd b⟩

/-! ### The stages of a codeword -/

/-- After the prefix zeros of a codeword ZRUN is its class (R161). -/
theorem parseAll_prefix {n : Nat} (hn : n ≤ 30) {d : DecUnit} (hd : d.dstate = .cz)
    (hz : d.zrun = 0) :
    parseAll (List.replicate n false) d = some ([], { d with zrun := n }) := by
  rw [parseAll_zeros n hd (by omega), hz, Nat.zero_add]

/-- After the delimiter the magnitude bits are to come (R163). -/
theorem parseAll_delimiter {d : DecUnit} (hd : d.dstate = .cz) (hz : d.zrun ≠ 0) :
    parseAll [true] d = some ([], { d with mag := 1, srem := d.zrun, dstate := .sb }) := by
  rw [parseAll, decodeBit_cz_one_pos hd hz]
  rfl

/-- After the magnitude bits MAG is the leading 1 and these bits, and the sign is to come (R164). -/
theorem parseAll_mbits {n mbits : Nat} (hpos : 1 ≤ n) (hn : n ≤ 30) (hm : mbits < 2 ^ n)
    {d : DecUnit} (hd : d.dstate = .sb) (hmag : d.mag = 1) (hs : d.srem = n) :
    parseAll (bitsOf n mbits) d =
      some ([], { d with mag := BitVec.ofNat 31 (2 ^ n + mbits), srem := 0, dstate := .rs }) := by
  have hpow : 2 ^ n ≤ 2 ^ 30 := Nat.pow_le_pow_right (by norm_num) hn
  have hone : d.mag.toNat = 1 := by rw [hmag]; rfl
  rw [parseAll_magnitude (bitsOf n mbits) hd (List.ne_nil_of_length_pos (by simpa))
      (by simpa) (by rw [hone, bitsOf_length]; omega),
    hone, bitsOf_length, valueOf_bitsOf, Nat.mod_eq_of_lt hm, Nat.one_mul]

/-- Two bit strings one after the other spell their values one after the other (R171). -/
theorem parseAll_append_iff {a c : Bits} {d f : DecUnit} {xs : List Int} :
    parseAll (a ++ c) d = some (xs, f) ↔ ∃ ys e zs,
      parseAll a d = some (ys, e) ∧ parseAll c e = some (zs, f) ∧ ys ++ zs = xs := by
  constructor
  · intro h
    rw [parseAll_append, Option.bind_eq_some_iff] at h
    obtain ⟨⟨ys, e⟩, ha, h⟩ := h
    obtain ⟨⟨zs, g⟩, hc, heq⟩ := Option.map_eq_some_iff.1 h
    cases heq
    exact ⟨ys, e, zs, ha, hc, rfl⟩
  · rintro ⟨ys, e, zs, ha, hc, rfl⟩
    exact parseAll_append_of ha hc

/-- Bits that emit no value emit none on the way. -/
theorem parseAll_take_nil {c : Bits} {d e : DecUnit} (h : parseAll c d = some ([], e)) (j : Nat) :
    ∃ f, parseAll (c.take j) d = some ([], f) := by
  rw [← List.take_append_drop j c, parseAll_append_iff] at h
  obtain ⟨ys, f, zs, htake, -, hnil⟩ := h
  obtain ⟨rfl, -⟩ := List.append_eq_nil_iff.1 hnil
  exact ⟨f, htake⟩

/-! ### The codeword of a value -/

/-- The parse machine after each part of a codeword of format N, from between two codewords (R168). -/
theorem parseAll_cw_stages {v : Int} {d : DecUnit} (h : inDomain v = true) (hv : v ≠ 0)
    (hd : d.dstate = .cz) (hz : d.zrun = 0) :
    parseAll ((cw v).take (magnitudeClass v)) d = some ([], { d with zrun := magnitudeClass v }) ∧
      parseAll ((cw v).take (magnitudeClass v + 1)) d =
        some ([], { d with
          zrun := magnitudeClass v, mag := 1, srem := magnitudeClass v, dstate := .sb }) ∧
      parseAll ((cw v).take (2 * magnitudeClass v + 1)) d =
        some ([], { d with
          zrun := magnitudeClass v, mag := BitVec.ofNat 31 (biasedMagnitude v), srem := 0,
          dstate := .rs }) := by
  obtain ⟨hlow, hhigh⟩ := magnitudeClass_bounds v
  have hpos := one_le_magnitudeClass hv
  have hle := magnitudeClass_le h
  have hzeros := parseAll_prefix hle hd hz
  have hdelim := parseAll_append_of hzeros
    (parseAll_delimiter (d := { d with zrun := magnitudeClass v }) hd (by simp; omega))
  have hbits := parseAll_append_of hdelim (parseAll_mbits
    (mbits := biasedMagnitude v - 2 ^ magnitudeClass v) hpos hle (by rw [pow_succ] at hhigh; omega)
    (by rfl) (by rfl) (by rfl))
  rw [Nat.add_sub_cancel' hlow] at hbits
  rw [cw_eq_codewordBits hv, codewordBits]
  refine ⟨?_, ?_, ?_⟩
  · simpa using hzeros
  · simpa [List.take_append] using hdelim
  · rw [two_mul, Nat.add_assoc]
    simpa [List.take_append] using hbits

/-- The bits of CW(v) emit `v` and leave the machine between two codewords (R168). -/
theorem parseAll_cw {v : Int} {d : DecUnit} (h : inDomain v = true) (hd : d.dstate = .cz)
    (hz : d.zrun = 0) :
    ∃ e, parseAll (cw v) d = some ([v], e) ∧ e.dstate = .cz ∧ e.zrun = 0 := by
  by_cases hv : v = 0
  · subst hv
    exact ⟨d, by simp [cw, parseAll, decodeBit_cz_one_zero hd hz], hd, hz⟩
  · have hwf := wellFormed_codewordOf h
    rw [codewordOf, if_neg hv] at hwf
    have hparse := parseAll_codewordBits hwf hd hz
    rw [valueOfFields_codewordOf, ← cw_eq_codewordBits hv] at hparse
    exact ⟨_, hparse, hd, hz⟩

/-- Before its last bit CW(v) emits nothing (R168). -/
theorem parseAll_take_cw {v : Int} {d : DecUnit} (h : inDomain v = true) (hd : d.dstate = .cz)
    (hz : d.zrun = 0) {j : Nat} (hj : j < (cw v).length) :
    ∃ e, parseAll ((cw v).take j) d = some ([], e) := by
  by_cases hv : v = 0
  · subst hv
    obtain rfl : j = 0 := by simpa [cw] using hj
    exact ⟨d, rfl⟩
  · rw [cw_length_of_ne_zero hv] at hj
    obtain ⟨-, -, hsign⟩ := parseAll_cw_stages h hv hd hz
    have hnone := parseAll_take_nil hsign j
    rwa [List.take_take, min_eq_left (by omega)] at hnone

/-- Settles O47: the sign bit emits the value, and the stages before it emit none. -/
theorem codewordEmitsItsValueOnLastBit : Obligations.CodewordEmitsItsValueOnLastBit := by
  unfold Obligations.CodewordEmitsItsValueOnLastBit
  refine ⟨fun v d h hd hz => ⟨parseAll_cw h hd hz, fun j hj => parseAll_take_cw h hd hz hj⟩, ?_⟩
  rintro v d n h hv hd hz rfl
  obtain ⟨hprefix, hdelim, hsign⟩ := parseAll_cw_stages h hv hd hz
  exact ⟨hprefix, hdelim, hsign, cw_length_of_ne_zero hv⟩

end Sys2Proof.Machine
end

section
/-!
PROOF. Streams at the decoder: an `eof` only suspends a decode (R171), and DEC commands over a finished
stream return the values encoded, chunk by chunk (R170).
-/

namespace Sys2Proof.Machine

/-! ### What a run answers -/

/-- From `s` to `t` the machine has given the responses `rs`. -/
def Answers (rs : List Response) (s t : State) : Prop :=
  ∃ events, t.trace = s.trace ++ events ∧ events.flatMap Event.responses = rs

theorem Answers.trans {rs qs : List Response} {s t u : State} (h : Answers rs s t)
    (k : Answers qs t u) : Answers (rs ++ qs) s u := by
  obtain ⟨v, hv, rfl⟩ := h
  obtain ⟨w, hw, rfl⟩ := k
  exact ⟨v ++ w, by rw [hw, hv, List.append_assoc], List.flatMap_append⟩

theorem Answers.logStatus {rs : List Response} {s t : State} (h : Answers rs s t) :
    Answers rs s (logStatus t) := by
  simpa [Answers] using h

theorem Answers.responses {rs : List Response} {s t : State} (h : Answers rs s t) :
    t.responses = s.responses ++ rs := by
  obtain ⟨events, htrace, rfl⟩ := h
  rw [State.responses, htrace, List.flatMap_append]
  rfl

/-- The last of two lists one after the other. -/
theorem getLastD_append {α : Type} (a b : List α) (x : α) :
    (a ++ b).getLastD x = b.getLastD (a.getLastD x) := by
  rw [List.getLastD_eq_getLast?, List.getLastD_eq_getLast?, List.getLastD_eq_getLast?,
    List.getLast?_append, Option.getD_or]

theorem State.DecoderOpen.logStatus {s : State} (h : s.DecoderOpen) : (logStatus s).DecoderOpen :=
  ⟨by simpa using h.idle, by simpa using h.noFault⟩

/-- Source reads are no responses. -/
theorem responses_sourceReads (bytes : List Byte) :
    (bytes.map fun b => Event.sourceRead (.byte b)).flatMap Event.responses = [] := by
  simp [Event.responses]

/-! ### A decode that an `eof` ends -/

/-- What of DEC's and DDEC's outcome at an `eof` the commands after it depend on (R167, R194). -/
theorem exec_decode_exhausted {s : State} {n : Word32} {delta : Bool} {bytes : List Byte}
    {rest : List SrcAnswer} {xs : List Int} {d : DecUnit} (ho : s.DecoderOpen)
    (hs : s.srcAnswers = bytes.map SrcAnswer.byte ++ .eof :: rest)
    (hp : parseAll (readyBits s bytes) s.dec = some (xs, d))
    (hn : xs.length < n.toNat) (hf : SumsFit delta s.dec.base xs) :
    ∃ t, exec (if delta then .ddec n else .dec n) s = .next t ∧ t.DecoderOpen ∧
      t.dec = { d with
        byte := bytes.getLastD s.dec.byte
        bitsLeft := 0
        dexh := true
        base := baseAfter delta s.dec.base xs } ∧
      t.srcAnswers = rest ∧
      Answers [decodeResponse true (emittedValues delta s.dec.base xs)] s t := by
  obtain ⟨-, -, -, -, hfault⟩ := parseAll_frame hp
  refine ⟨_, exec_decode_eof ho hs hp hn hf, ⟨ho.idle, hfault.trans ho.noFault⟩, rfl, rfl, _,
    List.append_assoc _ _ _, ?_⟩
  rw [List.flatMap_append, responses_sourceReads]
  simp [Event.responses, decodeResponse]

/-- The same for DEC alone, which keeps BASE. -/
theorem exec_dec_exhausted {s : State} {n : Word32} {bytes : List Byte} {rest : List SrcAnswer}
    {xs : List Int} {d : DecUnit} (ho : s.DecoderOpen)
    (hs : s.srcAnswers = bytes.map SrcAnswer.byte ++ .eof :: rest)
    (hp : parseAll (readyBits s bytes) s.dec = some (xs, d)) (hn : xs.length < n.toNat) :
    ∃ t, exec (.dec n) s = .next t ∧ t.DecoderOpen ∧
      t.dec = { d with byte := bytes.getLastD s.dec.byte, bitsLeft := 0, dexh := true } ∧
      t.srcAnswers = rest ∧ Answers [decodeResponse true (xs.map s32)] s t := by
  obtain ⟨-, -, hbase, -, -⟩ := parseAll_frame hp
  obtain ⟨t, hexec, ht, hdec, hrest, hans⟩ := exec_decode_exhausted (delta := false) ho hs hp hn nofun
  simp only [baseAfter, ← hbase] at hdec
  exact ⟨t, hexec, ht, hdec, hrest, hans⟩

/-- Settles O58: the first DEC stops with the parse registers after `bytes1`, from which the second goes
on as the one DEC does. -/
theorem decodeIsResumable : Obligations.DecodeIsResumable := by
  unfold Obligations.DecodeIsResumable
  intro s arrivals n bytes1 bytes2 rest xs d ho hs hp hn
  obtain ⟨u, hexec, -, hdec, -, hans⟩ := exec_dec_exhausted (n := n)
    (s := { s with srcAnswers := (bytes1 ++ bytes2).map SrcAnswer.byte ++ .eof :: rest })
    ⟨ho.idle, ho.noFault⟩ rfl hp hn
  rw [bitsOfBytes_append, ← List.append_assoc, parseAll_append_iff] at hp
  obtain ⟨ys, e, zs, hp1, hp2, rfl⟩ := hp
  rw [List.length_append] at hn
  obtain ⟨t, hexec1, ht, hdec1, hsrc1, hans1⟩ := exec_dec_exhausted (n := n) ho hs hp1 (by omega)
  have hport : t.dec = withPort e t.dec := by
    rw [hdec1]
    rfl
  have hbits : readyBits (logStatus t) bytes2 = bitsOfBytes bytes2 := by
    simp [readyBits, DecUnit.bufferedBits, hdec1]
  have hparse2 : parseAll (readyBits (logStatus t) bytes2) (logStatus t).dec =
      some (zs, withPort d t.dec) := by
    rw [hbits, logStatus_dec, hport, parseAll_withPort, hp2]
    rfl
  obtain ⟨w, hexec2, hw, hdec2, -, hans2⟩ := exec_dec_exhausted (n := n) ht.logStatus
    (by rw [logStatus_srcAnswers, hsrc1]) hparse2 (by omega)
  refine ⟨logStatus w, u, ys.map s32, zs.map s32, ?_, hexec, ?_, ?_, ?_⟩
  · rw [runCommands_cons_completes _ _ hexec1 ht.idle,
      runCommands_cons_completes _ _ hexec2 hw.idle, runCommands_nil]
  · exact (hans1.logStatus.trans hans2.logStatus).responses
  · rw [← List.map_append]
    exact hans.responses
  · obtain ⟨-, -, hbase, -, hfault⟩ := parseAll_frame hp2
    rw [logStatus_dec, hdec2, hdec, logStatus_dec, hdec1, getLastD_append, hbase, hfault]
    rfl

/-! ### Codeword streams at the parse machine -/

@[simp] theorem codewordStream_cons (v : Int) (vs : List Int) :
    codewordStream (v :: vs) = cw v ++ codewordStream vs := rfl

@[simp] theorem codewordStream_append (us vs : List Int) :
    codewordStream (us ++ vs) = codewordStream us ++ codewordStream vs := List.flatMap_append

/-- The parse machine reads the values off a codeword stream and ends between two codewords (R168). -/
theorem parseAll_codewordStream {vs : List Int} {d : DecUnit} (h : ∀ v ∈ vs, inDomain v = true)
    (hd : d.dstate = .cz) (hz : d.zrun = 0) :
    ∃ e, parseAll (codewordStream vs) d = some (vs, e) ∧ e.dstate = .cz ∧ e.zrun = 0 := by
  induction vs generalizing d with
  | nil => exact ⟨d, rfl, hd, hz⟩
  | cons v vs ih =>
    obtain ⟨hv, hvs⟩ := List.forall_mem_cons.1 h
    obtain ⟨e, he, hde, hze⟩ := parseAll_cw hv hd hz
    obtain ⟨f, hf, hdf, hzf⟩ := ih hvs hde hze
    exact ⟨f, parseAll_append_of he hf, hdf, hzf⟩

/-- The last value of a codeword stream is emitted on the last bit (R168). -/
theorem length_lt_of_parseAll_take {vs ys : List Int} {d e : DecUnit} {j : Nat}
    (h : ∀ v ∈ vs, inDomain v = true) (hd : d.dstate = .cz) (hz : d.zrun = 0)
    (hj : j < (codewordStream vs).length)
    (hp : parseAll ((codewordStream vs).take j) d = some (ys, e)) : ys.length < vs.length := by
  induction vs generalizing d j ys with
  | nil => exact absurd hj (Nat.not_lt_zero j)
  | cons v vs ih =>
    obtain ⟨hv, hvs⟩ := List.forall_mem_cons.1 h
    rw [codewordStream_cons, List.length_append] at hj
    rw [codewordStream_cons, List.take_append] at hp
    by_cases hin : j < (cw v).length
    · obtain ⟨f, hf⟩ := parseAll_take_cw hv hd hz hin
      rw [Nat.sub_eq_zero_of_le hin.le, List.take_zero, List.append_nil, hf] at hp
      cases hp
      simp
    · obtain ⟨f, hf, hdf, hzf⟩ := parseAll_cw hv hd hz
      rw [List.take_of_length_le (by omega), parseAll_append_iff, hf] at hp
      obtain ⟨us, g, zs, heq, hg, rfl⟩ := hp
      cases heq
      have := ih hvs hdf hzf (by omega) hg
      simpa using this

/-! ### DEC and DDEC on a codeword stream -/

/-- An open decoder between two codewords has the codewords of `vs` before it, then `pad` zeros, and
then the source's `eof` and `rest`. -/
structure State.AtStream (s : State) (vs : List Int) (pad : Nat) (rest : List SrcAnswer) : Prop where
  isOpen : s.DecoderOpen
  dstate : s.dec.dstate = .cz
  zrun : s.dec.zrun = 0
  bits : ∃ bytes, s.srcAnswers = bytes.map SrcAnswer.byte ++ .eof :: rest ∧
    readyBits s bytes = codewordStream vs ++ List.replicate pad false

/-- The decoder after the `eof` of such a stream, with the padding in ZRUN (R170). -/
structure State.StreamEnded (s : State) (pad : Nat) (rest : List SrcAnswer) : Prop where
  isOpen : s.DecoderOpen
  dexh : s.dec.dexh = true
  dstate : s.dec.dstate = .cz
  zrun : s.dec.zrun = pad
  bitsLeft : s.dec.bitsLeft = 0
  source : s.srcAnswers = rest

theorem State.AtStream.logStatus {s : State} {vs : List Int} {pad : Nat} {rest : List SrcAnswer}
    (h : s.AtStream vs pad rest) : (logStatus s).AtStream vs pad rest := by
  obtain ⟨bytes, hsrc, hbits⟩ := h.bits
  exact ⟨h.isOpen.logStatus, by simpa using h.dstate, by simpa using h.zrun, bytes,
    by simpa using hsrc, by simpa [readyBits] using hbits⟩

theorem State.StreamEnded.logStatus {s : State} {pad : Nat} {rest : List SrcAnswer}
    (h : s.StreamEnded pad rest) : (logStatus s).StreamEnded pad rest :=
  ⟨h.isOpen.logStatus, by simpa using h.dexh, by simpa using h.dstate, by simpa using h.zrun,
    by simpa using h.bitsLeft, by simpa using h.source⟩

/-- The fewest of the source's bytes that hold the next `k` bits (R61, R160). -/
theorem exists_bytes_holding {k left : Nat} {bytes : List Byte} (hk : k ≤ left + 8 * bytes.length) :
    ∃ used others unused, bytes = used ++ others ∧ k + unused = left + 8 * used.length ∧
      (used ≠ [] → unused < 8) := by
  have hcount : (k - left + 7) / 8 ≤ bytes.length := by omega
  refine ⟨bytes.take ((k - left + 7) / 8), bytes.drop ((k - left + 7) / 8),
    left + 8 * ((k - left + 7) / 8) - k, (List.take_append_drop _ _).symm, ?_, fun hne => ?_⟩
  · rw [List.length_take_of_le hcount]
    omega
  · have hpos : (k - left + 7) / 8 ≠ 0 := fun h0 => hne (by rw [h0, List.take_zero])
    omega

theorem readyBits_append (s : State) (used others : List Byte) :
    readyBits s (used ++ others) = readyBits s used ++ bitsOfBytes others := by
  simp [readyBits]

/-- The first bits that stand ready are those of the first bytes (R160). -/
theorem readyBits_take {s : State} {used : List Byte} {j : Nat} (others : List Byte)
    (hj : j ≤ s.dec.bitsLeft + 8 * used.length) :
    (readyBits s (used ++ others)).take j = (readyBits s used).take j := by
  rw [readyBits_append, List.take_append_of_le_length (by rwa [readyBits_length])]

/-- The bits that stand ready after the first `k` have been used (R160). -/
theorem readyBits_after {s t : State} {k unused : Nat} {used others : List Byte}
    (hk : k + unused = s.dec.bitsLeft + 8 * used.length) (hu : used ≠ [] → unused < 8)
    (hbyte : t.dec.byte = used.getLastD s.dec.byte) (hleft : t.dec.bitsLeft = unused) :
    readyBits t others = (readyBits s (used ++ others)).drop k := by
  rw [readyBits_append, List.drop_append_of_le_length (by rw [readyBits_length]; omega),
    readyBits_drop hk fun h => (hu h).le, ← hbyte, ← hleft]
  rfl

/-- DEC and DDEC with a buffer for the first of the values left return these and end FULL between two
codewords (R167, R194). -/
theorem exec_decode_chunk {s : State} {n : Word32} {delta : Bool} {us vs : List Int} {pad : Nat}
    {rest : List SrcAnswer} (h : s.AtStream (us ++ vs) pad rest) (hus : ∀ u ∈ us, inDomain u = true)
    (hn : us.length = n.toNat) (hf : SumsFit delta s.dec.base us) :
    ∃ t, exec (if delta then .ddec n else .dec n) s = .next t ∧ t.AtStream vs pad rest ∧
      t.dec.base = baseAfter delta s.dec.base us ∧
      Answers [decodeResponse false (emittedValues delta s.dec.base us)] s t := by
  obtain ⟨bytes, hsrc, hbits⟩ := h.bits
  rw [codewordStream_append, List.append_assoc] at hbits
  have hlen := congrArg List.length hbits
  rw [readyBits_length, List.length_append] at hlen
  obtain ⟨used, others, unused, rfl, hk, hu⟩ := exists_bytes_holding
    (k := (codewordStream us).length) (left := s.dec.bitsLeft) (bytes := bytes) (by omega)
  rw [List.map_append, List.append_assoc] at hsrc
  have htake : ∀ j ≤ (codewordStream us).length,
      (readyBits s used).take j = (codewordStream us).take j := by
    intro j hj
    rw [← readyBits_take others (by omega), hbits, List.take_append_of_le_length hj]
  obtain ⟨e, hparse, hde, hze⟩ := parseAll_codewordStream hus h.dstate h.zrun
  obtain ⟨-, -, -, -, hfault⟩ := parseAll_frame hparse
  have hexec := decodeStopsWhenFull s n delta used _ _ unused us e h.isOpen hsrc hk hu
    (by rw [← readyBits, htake _ le_rfl, List.take_length, hparse]) hn
    (fun j hj ys f hys => hn ▸ length_lt_of_parseAll_take hus h.dstate h.zrun hj
      (by rwa [← readyBits, htake j hj.le] at hys)) hf
  refine ⟨_, hexec, ⟨⟨h.isOpen.idle, hfault.trans h.isOpen.noFault⟩, hde, hze, others, rfl, ?_⟩, rfl,
    _, List.append_assoc _ _ _, ?_⟩
  · rw [readyBits_after hk hu (by rfl) (by rfl), hbits, List.drop_left]
  · rw [List.flatMap_append, responses_sourceReads]
    simp [Event.responses, decodeResponse, hn]

/-- DEC and DDEC with a buffer for more than the values left return these, leave the padding in ZRUN,
and end EXHAUSTED (R167, R169, R194). -/
theorem exec_decode_rest {s : State} {n : Word32} {delta : Bool} {vs : List Int} {pad : Nat}
    {rest : List SrcAnswer} (h : s.AtStream vs pad rest) (hvs : ∀ v ∈ vs, inDomain v = true)
    (hpad : pad ≤ 30) (hn : vs.length < n.toNat) (hf : SumsFit delta s.dec.base vs) :
    ∃ t, exec (if delta then .ddec n else .dec n) s = .next t ∧ t.StreamEnded pad rest ∧
      t.dec.base = baseAfter delta s.dec.base vs ∧
      Answers [decodeResponse true (emittedValues delta s.dec.base vs)] s t := by
  obtain ⟨bytes, hsrc, hbits⟩ := h.bits
  obtain ⟨e, hparse, hde, hze⟩ := parseAll_codewordStream hvs h.dstate h.zrun
  have hzeros := parseAll_prefix hpad hde hze
  have hall : parseAll (readyBits s bytes) s.dec = some (vs ++ [], { e with zrun := pad }) := by
    rw [hbits]
    exact parseAll_append_of hparse hzeros
  rw [List.append_nil] at hall
  obtain ⟨t, hexec, ht, hdec, hrest, hans⟩ := exec_decode_exhausted h.isOpen hsrc hall hn hf
  exact ⟨t, hexec, ⟨ht, by rw [hdec], by rw [hdec]; exact hde, by rw [hdec], by rw [hdec], hrest⟩,
    by rw [hdec], hans⟩

/-! ### DEC commands over a finished stream -/

/-- DEC commands whose buffers, but for the last, the values left fill: they return these values, and
the last of them ends EXHAUSTED (R170). -/
theorem runCommands_dec (arrivals : List Arrival) {ns : List Word32} {s : State} {vs : List Int}
    {pad : Nat} {rest : List SrcAnswer} (h : s.AtStream vs pad rest)
    (hvs : ∀ v ∈ vs, inDomain v = true) (hpad : pad ≤ 30)
    (hinit : (ns.dropLast.map BitVec.toNat).sum ≤ vs.length)
    (hall : vs.length < (ns.map BitVec.toNat).sum) :
    ∃ t rs, runCommands (ns.map Instr.dec) arrivals s = .next (t, arrivals) ∧
      t.StreamEnded pad rest ∧ Answers rs s t ∧ rs.flatMap Response.values = vs.map s32 ∧
      rs.getLast?.map Response.dstat = some true := by
  induction ns generalizing s vs with
  | nil => exact absurd hall (Nat.not_lt_zero _)
  | cons n ns ih =>
    cases ns with
    | nil =>
      obtain ⟨t, hexec, ht, -, hans⟩ :=
        exec_decode_rest (n := n) (delta := false) h hvs hpad (by simpa using hall) nofun
      exact ⟨logStatus t, _, runCommands_cons_completes [] arrivals hexec ht.isOpen.idle,
        ht.logStatus, hans.logStatus, List.flatMap_singleton _ _, rfl⟩
    | cons m ns =>
      rw [List.dropLast_cons_cons, List.map_cons, List.sum_cons] at hinit
      rw [List.map_cons, List.sum_cons] at hall
      obtain ⟨us, ws, rfl, hn⟩ : ∃ us ws, vs = us ++ ws ∧ us.length = n.toNat :=
        ⟨vs.take n.toNat, vs.drop n.toNat, (List.take_append_drop _ _).symm,
          List.length_take_of_le (by omega)⟩
      rw [List.length_append, hn] at hinit hall
      obtain ⟨hus, hws⟩ := List.forall_mem_append.1 hvs
      obtain ⟨t, hexec, ht, -, hans⟩ := exec_decode_chunk (n := n) (delta := false) h hus hn nofun
      obtain ⟨u, rs, hrun, hu, hans', hvalues, hlast⟩ :=
        ih ht.logStatus hws (by omega) (by omega)
      obtain ⟨r, hr, hdstat⟩ := Option.map_eq_some_iff.1 hlast
      refine ⟨u, _, (runCommands_cons_completes _ arrivals hexec ht.isOpen.idle).trans hrun, hu,
        hans.logStatus.trans hans', ?_, ?_⟩
      · rw [List.flatMap_append, hvalues, List.map_append, List.flatMap_singleton]
        rfl
      · rw [List.getLast?_append, hr]
        exact congrArg some hdstat

/-- Settles O56: DEC_INIT puts the decoder between two codewords, before the whole stream. -/
theorem streamRoundTrip : Obligations.StreamRoundTrip := by
  unfold Obligations.StreamRoundTrip
  intro s arrivals ns vs bytes rest hh hvs hbits hsrc _ hinit hall
  obtain ⟨u, hexec, hu, hans⟩ : ∃ u, exec .decInit s = .next u ∧
      u.AtStream vs (padding (codewordStream vs).length).length rest ∧
      Answers [{ rc := .ok }] s u :=
    ⟨_, exec_decInit hh, ⟨⟨hh, rfl⟩, rfl, rfl, bytes, hsrc, by
      simpa [readyBits, DecUnit.bufferedBits, DecUnit.start, padding] using hbits⟩, _, rfl, rfl⟩
  obtain ⟨t, rs, hrun, ht, hans', hvalues, hlast⟩ := runCommands_dec arrivals hu.logStatus hvs
    (by simp only [padding, List.length_replicate]; omega) hinit hall
  obtain ⟨events, htrace, hresponses⟩ := hans.logStatus.trans hans'
  obtain ⟨r, hr, hdstat⟩ := Option.map_eq_some_iff.1 hlast
  refine ⟨t, events, (runCommands_cons_completes _ arrivals hexec hu.isOpen.idle).trans hrun, htrace,
    ?_, ?_, ht.isOpen.idle, ht.dexh, ht.isOpen.noFault, ht.dstate, ht.zrun, ht.bitsLeft, ht.source⟩
  · rw [resultValues_of_trace htrace, hresponses, List.flatMap_append, hvalues]
    rfl
  · rw [hresponses, List.getLast?_append, hr]
    exact congrArg some hdstat

end Sys2Proof.Machine
end

section
/-!
PROOF. The delta commands: DENC_START and DDEC_START, by their words and by what they do (R190, R193);
and a running sum that leaves s32 (R194).
-/

namespace Sys2Proof.Machine

/-! ### The starts -/

/-- The words of a command are its fields side by side (R90). -/
theorem decodeCommand_eq_ok_iff_fields {w : CmdWord} {i : Instr} {op : BitVec 8} {imm : Word32}
    (h : encode i = .command (commandWord op imm)) :
    decodeCommand w = .ok i ↔ w = op ++ 0#24 ++ imm := by
  rw [decodeCommand_eq_ok_iff_encode, h, Wire.command.injEq, commandWord_eq_append, eq_comm]

/-- Settles O23: the words are those that the encoder gives the command. -/
theorem dencStartStartsStream : Obligations.DencStartStartsStream := by
  unfold Obligations.DencStartStartsStream
  refine ⟨fun w start => decodeCommand_eq_ok_iff_fields rfl, fun s start hh => ?_⟩
  refine (whenIdle_of_idle _ hh).trans ?_
  rw [respond_of_idle (s := startEncoder start s) _ hh]
  rfl

theorem exec_ddecStart (base : Word32) {s : State} (hh : s.held = none) :
    exec (.ddecStart base) s = .next { startDecoder base s with
      cpc := s.cpc + 1
      trace := s.trace ++ [.response { rc := .ok }] } := by
  refine (whenIdle_of_idle _ hh).trans ?_
  rw [respond_of_idle (s := startDecoder base s) _ hh]
  rfl

/-- Settles O25: the words are those that the encoder gives the command. -/
theorem ddecStartStartsStream : Obligations.DdecStartStartsStream := by
  unfold Obligations.DdecStartStartsStream
  exact ⟨fun w base => decodeCommand_eq_ok_iff_fields rfl,
    fun s base hh => ⟨_, _, _, exec_ddecStart base hh⟩⟩

/-! ### A running sum outside s32 -/

/-- The bit with which the values become one more completes that value (R165). -/
theorem decodeBit_of_parseAll_take {a : Bits} {k : Nat} {b : Bool} {d e f : DecUnit} {xs : List Int}
    {x : Int} (hp : parseAll (a.take k) d = some (xs, e))
    (hp' : parseAll (a.take (k + 1)) d = some (xs ++ [x], f)) (hb : a[k]? = some b) :
    decodeBit b e = .value x f := by
  rw [List.take_add_one, hb, parseAll_append_iff] at hp'
  obtain ⟨ys, g, zs, hys, hzs, heq⟩ := hp'
  cases hp.symm.trans hys
  obtain rfl := List.append_cancel_left heq
  rw [Option.toList_some, parseAll] at hzs
  rcases hd : decodeBit b e with g | ⟨y, g⟩ | _ <;> rw [hd] at hzs <;> cases hzs
  rfl

/-- A turn of DDEC whose bit completes a residual that BASE cannot take raises SUM_OVF (R194). -/
theorem loopStep_overflow {n : Nat} {b : Bool} {x : Int} {s u : State} {d : DecUnit}
    (hn : s.out.length ≠ n) (hbit : nextBit s = .bit b u) (hd : decodeBit b u.dec = .value x d)
    (hx : fitsS32 (d.base.toInt + x) = false) :
    loopStep n true s = .stop (raiseFault 194 (.dec .sumOvf) { u with dec := d }) := by
  rw [loopStep_bit hn hbit, parseStep, hd]
  simp [deliver, deltaAccumulate, hx]

/-- Settles O55: the loop takes the bit after the first `k`, which completes the residual. -/
theorem sumOverflowRaisesFault : Obligations.SumOverflowRaisesFault := by
  unfold Obligations.SumOverflowRaisesFault
  rintro s n bytes rest k unused xs x d ho hs hk hu ⟨e, hp⟩ hp' hn hf hsum
  obtain ⟨-, -, -, hexh, -⟩ := parseAll_frame hp'
  obtain ⟨u, b, hloop, hb, htake, hout⟩ :=
    decodeLoop_toBit (s := { s with out := [] }) (n := n.toNat) (delta := true) k hk.symm hu hs hp
      (fun j hj ys f hys => by simpa using parseAll_take_lt hp hn j hj ys f hys) hf
  have hvalue := decodeBit_withPort b e (afterBits true { s with out := [] } bytes unused xs e rest).dec
  rw [decodeBit_of_parseAll_take hp hp' hb] at hvalue
  have hlen : u.out.length ≠ n.toNat := by simpa [hout] using hn.ne
  have hover : fitsS32 ((baseAfter true s.dec.base xs).toInt + x) = false := by
    rw [Bool.eq_false_iff, Ne, fitsS32_iff]
    omega
  refine (exec_decode_open n true ho).trans ?_
  rw [hloop, decodeLoop_stop (loopStep_overflow hlen htake hvalue hover),
    raiseFault_dec _ _ (by exact ho.idle) (by exact ho.noFault)]
  simp [afterBits, withPort, hexh, DecFault.code]

end Sys2Proof.Machine
end

section
/-!
PROOF. Delta streams: DELTA_ENCODE hands the sink the codewords of the differences (R192), and
DELTA_DECODE over these bytes returns the sequence (R196).
-/

namespace Sys2Proof.Machine

/-! ### The differences of a sequence of words -/

/-- The residuals of a sequence: its successive differences, from `start` (R192). -/
def residuals (start : Word32) (vs : List Word32) : List Int :=
  differences start.toInt (vs.map BitVec.toInt)

theorem residuals_cons (start v : Word32) (vs : List Word32) :
    residuals start (v :: vs) = (v.toInt - start.toInt) :: residuals v vs := rfl

@[simp] theorem residuals_length (start : Word32) (vs : List Word32) :
    (residuals start vs).length = vs.length := by
  induction vs generalizing start with
  | nil => rfl
  | cons v vs ih => rw [residuals_cons, List.length_cons, ih, List.length_cons]

theorem residuals_append (start : Word32) (us vs : List Word32) :
    residuals start (us ++ vs) = residuals start us ++ residuals (us.getLastD start) vs := by
  induction us generalizing start with
  | nil => rfl
  | cons u us ih => rw [List.cons_append, residuals_cons, ih, List.getLastD_cons]; rfl

/-- DENC_VAL commands encode the residuals (R191). -/
theorem encodedValues_deltas (start : Word32) (vs : List Word32) :
    encodedValues start (vs.map (Prod.mk true)) = residuals start vs := by
  induction vs generalizing start with
  | nil => rfl
  | cons v vs ih => rw [residuals_cons, ← ih]; rfl

/-- The running sums of the residuals give the sequence back (R196). -/
theorem runningSums_residuals (start : Word32) (vs : List Word32) :
    runningSums start.toInt (residuals start vs) = vs.map BitVec.toInt := by
  induction vs generalizing start with
  | nil => rfl
  | cons v vs ih => rw [residuals_cons, runningSums, add_sub_cancel, ih, List.map_cons]

theorem fitsS32_toInt (v : Word32) : fitsS32 v.toInt = true :=
  fitsS32_iff.2 ⟨BitVec.le_toInt v, Int.le_sub_one_of_lt BitVec.toInt_lt⟩

theorem sumsFit_residuals (delta : Bool) (start : Word32) (vs : List Word32) :
    SumsFit delta start (residuals start vs) := by
  intro _ y hy
  rw [runningSums_residuals] at hy
  obtain ⟨v, -, rfl⟩ := List.mem_map.1 hy
  exact fitsS32_toInt v

/-- DDEC emits the sequence itself (R194, R196). -/
theorem emittedValues_residuals (start : Word32) (vs : List Word32) :
    emittedValues true start (residuals start vs) = vs := by
  have hround : s32 ∘ BitVec.toInt = (id : Word32 → Word32) := funext fun _ => BitVec.ofInt_toInt
  rw [emittedValues, if_pos rfl, runningSums_residuals, List.map_map, hround, List.map_id]

theorem baseAfter_residuals (start : Word32) (vs : List Word32) :
    baseAfter true start (residuals start vs) = vs.getLastD start := by
  rw [baseAfter, if_pos rfl, emittedValues_residuals]

/-! ### DELTA_ENCODE -/

/-- DELTA_ENCODE is a stream of DENC_VAL commands (R98). -/
theorem deltaEncode_eq_streamCommands (start : Word32) (vs : List Word32) :
    deltaEncode start vs = streamCommands (some start) (vs.map (Prod.mk true)) := by
  rw [deltaEncode, streamCommands, List.map_map]
  rfl

/-- What DELTA_ENCODE hands a sink that accepts: the finished stream of the residuals (R140, R192). -/
theorem runCommands_deltaEncode (arrivals : List Arrival) (start : Word32) (vs : List Word32)
    {s : State} (hw : s.LegalWidth) (hh : s.held = none)
    (hd : ∀ d ∈ residuals start vs, inDomain d = true) (hs : s.SinkAccepts (62 * vs.length + 2)) :
    ∃ t bs, runCommands (deltaEncode start vs) arrivals s = .next (t, arrivals) ∧
      Emits (bs.map SinkMark.byte ++ [.flush]) s t ∧ resultBytes s t = bs ∧
      bitsOfBytes bs = codewordStream (residuals start vs) ++
        padding (codewordStream (residuals start vs)).length := by
  obtain ⟨t, bs, hrun, -, hemits, hbits⟩ := runCommands_streamCommands arrivals (some start)
    (vs.map (Prod.mk true)) hw hh (by rwa [Option.getD_some, encodedValues_deltas])
    (by rwa [List.length_map])
  rw [← deltaEncode_eq_streamCommands] at hrun
  rw [Option.getD_some, encodedValues_deltas] at hbits
  refine ⟨t, bs, hrun, hemits, ?_, hbits⟩
  rw [resultBytes, hemits.sinkBytes, filterMap_bytes_flush, List.drop_left]

/-- Settles O45: the run of the stream's commands; a stream of no values has no bits. -/
theorem deltaEncodeWritesDifferences : Obligations.DeltaEncodeWritesDifferences := by
  unfold Obligations.DeltaEncodeWritesDifferences
  intro s arrivals start vs hw hh hd hs
  obtain ⟨t, bs, hrun, hemits, hresult, hbits⟩ :=
    runCommands_deltaEncode arrivals start vs hw hh hd hs
  obtain ⟨events, htrace, hmarks⟩ := hemits.trace
  refine ⟨t, events, bs, hrun, htrace, hemits.faultLog, hresult, hmarks, hbits, ?_⟩
  rintro rfl
  have hempty : codewordStream (residuals start []) = [] := rfl
  rw [hempty] at hbits
  exact bitsOfBytes_injective (b := []) hbits

/-! ### The fault record of DEC and DDEC -/

theorem nextBit_faultLog {s u : State} (h : (∃ b, nextBit s = .bit b u) ∨ nextBit s = .eof u) :
    u.faultLog = s.faultLog := by
  rcases nextBit_cases s with ⟨-, e⟩ | ⟨-, ⟨-, e⟩ | ⟨c, rest, -, e⟩ | ⟨rest, -, e⟩ | ⟨rest, -, e⟩⟩ <;>
    rw [e] at h <;> rcases h with ⟨b, h⟩ | h <;> cases h <;> rfl

theorem loopStep_again_faultLog {n : Nat} {delta : Bool} {s s' : State}
    (h : loopStep n delta s = .again s') : s'.faultLog = s.faultLog := by
  obtain ⟨-, b, u, hu, ⟨d, -, rfl⟩ | ⟨x, d, -, hx⟩⟩ := loopStep_again_cases h
  · exact nextBit_faultLog (u := u) (.inl ⟨b, hu⟩)
  · refine Eq.trans ?_ (nextBit_faultLog (.inl ⟨b, hu⟩))
    rcases deliver_again_cases hx with ⟨-, rfl⟩ | ⟨-, -, rfl⟩ <;> rfl

/-- A decoder fault stands in DFAULT after it is raised (R224). -/
theorem raiseFault_dec_dfault (rule : Nat) (f : DecFault) (s : State) :
    (raiseFault rule (.dec f) s).dec.dfault ≠ none := by
  change (s.dec.dfault <|> some f) ≠ none
  cases s.dec.dfault <;> nofun

theorem loopStep_stop_faultLog {n : Nat} {delta : Bool} {s s' : State}
    (h : loopStep n delta s = .stop s') (hf : s'.dec.dfault = none) : s'.faultLog = s.faultLog := by
  rcases loopStep_stop_cases h with ⟨-, rfl⟩ | ⟨-, ⟨-, rfl⟩ | ⟨u, hu, rfl⟩ | ⟨u, -, rfl⟩ |
    ⟨b, u, -, -, rfl⟩ | ⟨b, u, x, d, -, -, -, -, rfl⟩⟩
  · rfl
  · rfl
  · exact nextBit_faultLog (u := u) (.inr hu)
  · exact absurd hf (raiseFault_dec_dfault _ _ _)
  · exact absurd hf (raiseFault_dec_dfault _ _ _)
  · exact absurd hf (raiseFault_dec_dfault _ _ _)

/-- A DEC or DDEC that leaves the decoder without a fault has recorded none (R222). -/
theorem exec_decode_faultLog {s t : State} {n : Word32} {delta : Bool} (ho : s.DecoderOpen)
    (h : exec (if delta then .ddec n else .dec n) s = .next t) (hf : t.dec.dfault = none) :
    t.faultLog = s.faultLog := by
  rw [exec_decode_open n delta ho] at h
  cases h
  exact decodeLoop_induct (P := fun u => u.faultLog = s.faultLog)
    (Q := fun u => u.dec.dfault = none → u.faultLog = s.faultLog)
    (fun _ _ hu h => (loopStep_again_faultLog h).trans hu)
    (fun _ _ hu h hf => (loopStep_stop_faultLog h hf).trans hu) _ rfl hf

/-! ### DELTA_DECODE -/

/-- The host's loop goes on exactly after a decode that ended FULL (R98). -/
theorem loopGoesOn_of_answers {s t : State} {exhausted : Bool} {values : List Word32}
    (ht : t.held = none) (h : Answers [decodeResponse exhausted values] s t) :
    loopGoesOn t = !exhausted := by
  simp [loopGoesOn, ht, h.responses, decodeResponse]

/-- From `s` to `t` DDEC has returned the values `vs`, the last of which is in BASE, and no fault is
recorded (R194). -/
structure State.Returns (s t : State) (vs : List Word32) : Prop where
  base : t.dec.base = vs.getLastD s.dec.base
  faultLog : t.faultLog = s.faultLog
  values : ∃ rs, Answers rs s t ∧ rs.flatMap Response.values = vs

theorem State.Returns.trans {s t u : State} {us vs : List Word32} (h : s.Returns t us)
    (k : t.Returns u vs) : s.Returns u (us ++ vs) := by
  obtain ⟨rs, hrs, rfl⟩ := h.values
  obtain ⟨qs, hqs, rfl⟩ := k.values
  exact ⟨by rw [k.base, h.base, getLastD_append], k.faultLog.trans h.faultLog, _, hrs.trans hqs,
    List.flatMap_append⟩

theorem State.Returns.logStatus {s t : State} {vs : List Word32} (h : s.Returns t vs) :
    s.Returns (logStatus t) vs := by
  obtain ⟨rs, hrs, hvs⟩ := h.values
  exact ⟨by simpa using h.base, by simpa using h.faultLog, rs, hrs.logStatus, hvs⟩

/-- A DDEC that ends without a fault, by its one response to the residuals of `vs`. -/
theorem State.Returns.of_exec {s t : State} {n : Word32} {exhausted : Bool} {vs : List Word32}
    (hs : s.DecoderOpen) (h : exec (.ddec n) s = .next t) (ht : t.DecoderOpen)
    (hbase : t.dec.base = baseAfter true s.dec.base (residuals s.dec.base vs))
    (hans : Answers [decodeResponse exhausted
      (emittedValues true s.dec.base (residuals s.dec.base vs))] s t) : s.Returns t vs := by
  rw [emittedValues_residuals] at hans
  exact ⟨hbase.trans (baseAfter_residuals _ _),
    exec_decode_faultLog (delta := true) hs h ht.noFault, _, hans, List.flatMap_singleton _ _⟩

/-- DDEC with a buffer for the first of the values left: the host's loop goes on (R98, R194). -/
theorem repeatUntilExhausted_chunk (arrivals : List Arrival) {n : Word32} (bound : Nat) {s : State}
    {us vs : List Word32} {pad : Nat} {rest : List SrcAnswer}
    (h : s.AtStream (residuals s.dec.base (us ++ vs)) pad rest)
    (hus : ∀ d ∈ residuals s.dec.base us, inDomain d = true) (hn : us.length = n.toNat) :
    ∃ t, repeatUntilExhausted (.ddec n) (bound + 1) arrivals s =
        repeatUntilExhausted (.ddec n) bound arrivals t ∧
      t.AtStream (residuals t.dec.base vs) pad rest ∧ s.Returns t us := by
  rw [residuals_append] at h
  obtain ⟨t, hexec, ht, hbase, hans⟩ := exec_decode_chunk (n := n) (delta := true) h hus
    (by rwa [residuals_length]) (sumsFit_residuals true _ us)
  have hreturns := State.Returns.of_exec h.isOpen hexec ht.isOpen hbase hans
  refine ⟨logStatus t, ?_, ?_, hreturns.logStatus⟩
  · refine (repeatUntilExhausted_completes bound arrivals hexec ht.isOpen.idle).trans (if_pos ?_)
    exact loopGoesOn_of_answers ht.logStatus.isOpen.idle hans.logStatus
  · rw [logStatus_dec, hreturns.base]
    exact ht.logStatus

/-- DDEC with a buffer for more than the values left: the host's loop ends (R98, R194). -/
theorem repeatUntilExhausted_rest (arrivals : List Arrival) {n : Word32} (bound : Nat) {s : State}
    {vs : List Word32} {pad : Nat} {rest : List SrcAnswer}
    (h : s.AtStream (residuals s.dec.base vs) pad rest)
    (hvs : ∀ d ∈ residuals s.dec.base vs, inDomain d = true) (hpad : pad ≤ 30)
    (hn : vs.length < n.toNat) :
    ∃ t, repeatUntilExhausted (.ddec n) (bound + 1) arrivals s = .next (t, arrivals) ∧
      t.StreamEnded pad rest ∧ s.Returns t vs := by
  obtain ⟨t, hexec, ht, hbase, hans⟩ := exec_decode_rest (n := n) (delta := true) h hvs hpad
    (by rwa [residuals_length]) (sumsFit_residuals true _ vs)
  have hreturns := State.Returns.of_exec h.isOpen hexec ht.isOpen hbase hans
  refine ⟨logStatus t, ?_, ht.logStatus, hreturns.logStatus⟩
  refine (repeatUntilExhausted_completes bound arrivals hexec ht.isOpen.idle).trans (if_neg ?_)
  rw [loopGoesOn_of_answers ht.logStatus.isOpen.idle hans.logStatus]
  exact Bool.false_ne_true

/-- DELTA_DECODE's loop over the residuals of the sequence, from the BASE before them: every DDEC but
the last returns at least one value, so a bound of more turns than values is enough (R195, R196). -/
theorem repeatUntilExhausted_ddec (arrivals : List Arrival) {n : Word32} (bound : Nat) {s : State}
    {vs : List Word32} {pad : Nat} {rest : List SrcAnswer}
    (h : s.AtStream (residuals s.dec.base vs) pad rest)
    (hvs : ∀ d ∈ residuals s.dec.base vs, inDomain d = true) (hpad : pad ≤ 30) (hn : n ≠ 0)
    (hbound : vs.length < bound) :
    ∃ t, repeatUntilExhausted (.ddec n) bound arrivals s = .next (t, arrivals) ∧
      t.StreamEnded pad rest ∧ s.Returns t vs := by
  induction bound generalizing s vs with
  | zero => exact absurd hbound (Nat.not_lt_zero _)
  | succ bound ih =>
    by_cases hlast : vs.length < n.toNat
    · exact repeatUntilExhausted_rest arrivals bound h hvs hpad hlast
    · have hpos : n.toNat ≠ 0 := fun h0 => hn (BitVec.eq_of_toNat_eq h0)
      obtain ⟨us, ws, rfl, hus⟩ : ∃ us ws, vs = us ++ ws ∧ us.length = n.toNat :=
        ⟨vs.take n.toNat, vs.drop n.toNat, (List.take_append_drop _ _).symm,
          List.length_take_of_le (by omega)⟩
      rw [residuals_append, List.forall_mem_append] at hvs
      rw [List.length_append] at hbound
      obtain ⟨hdus, hdws⟩ := hvs
      obtain ⟨t, hturn, ht, hreturns⟩ := repeatUntilExhausted_chunk arrivals bound h hdus hus
      rw [← hreturns.base] at hdws
      obtain ⟨u, hrun, hu, hreturns'⟩ := ih ht hdws (by omega)
      exact ⟨u, hturn.trans hrun, hu, hreturns.trans hreturns'⟩

/-- DDEC_START puts the decoder before the whole of a stream that the source has next, with BASE as given
(R193). -/
theorem exec_ddecStart_atStream (base : Word32) {s : State} {bytes : List Byte} {vs : List Int}
    {pad : Nat} {rest : List SrcAnswer} (hh : s.held = none)
    (hsrc : s.srcAnswers = bytes.map SrcAnswer.byte ++ .eof :: rest)
    (hbits : bitsOfBytes bytes = codewordStream vs ++ List.replicate pad false) :
    ∃ t, exec (.ddecStart base) s = .next t ∧ t.AtStream vs pad rest ∧ t.dec.base = base ∧
      t.faultLog = s.faultLog ∧ Answers [{ rc := .ok }] s t :=
  ⟨_, exec_ddecStart base hh, ⟨⟨hh, rfl⟩, rfl, rfl, bytes, hsrc, hbits⟩, rfl, rfl, _, rfl, rfl⟩

/-- Settles O57: DELTA_ENCODE's bytes are the stream of the residuals, before which DDEC_START puts the
decoder with BASE at the start. -/
theorem deltaRoundTrip : Obligations.DeltaRoundTrip := by
  unfold Obligations.DeltaRoundTrip
  intro e e' s a a' arrivals start n bound vs rest hw he hd hs hencode hh hsrc hn hbound
  obtain ⟨e'', bs, hrun, -, hresult, hbits⟩ := runCommands_deltaEncode a start vs hw he hd hs
  cases hrun.symm.trans hencode
  rw [hresult] at hsrc
  obtain ⟨u, hexec, hu, hbase, hlog, hans⟩ := exec_ddecStart_atStream start hh hsrc hbits
  have hbase' : (logStatus u).dec.base = start := by rw [logStatus_dec, hbase]
  obtain ⟨t, hloop, ht, hreturns⟩ := repeatUntilExhausted_ddec arrivals bound
    (by rw [hbase']; exact hu.logStatus) (by rwa [hbase'])
    (by omega) hn hbound
  obtain ⟨rs, hans', hvalues⟩ := hreturns.values
  obtain ⟨events, htrace, hresponses⟩ := hans.logStatus.trans hans'
  refine ⟨t, events, ?_, htrace, ?_, ?_, ht.isOpen.idle, ht.dexh, ht.isOpen.noFault, ?_⟩
  · rw [deltaDecode, runCommand_completes arrivals hexec hu.isOpen.idle]
    exact hloop
  · rw [resultValues_of_trace htrace, hresponses, List.flatMap_append, hvalues]
    rfl
  · rw [hreturns.faultLog, logStatus_faultLog, hlog]
  · rw [hreturns.base, hbase']

end Sys2Proof.Machine
end

section
/-!
PROOF. STATUS_READ returns STATUS, whose reserved bits are 0, and changes no register (R37, R212).
-/

namespace Sys2Proof.Machine

/-- The reserved bits of STATUS lie in its three constant fields (R37). -/
theorem status_reserved (s : State) {i : Nat}
    (h : (1 ≤ i ∧ i ≤ 3) ∨ (9 ≤ i ∧ i ≤ 11) ∨ 17 ≤ i) : s.status.getLsbD i = false := by
  simp only [State.status, BitVec.getLsbD_append]
  rcases h with ⟨hlo, hhi⟩ | ⟨hlo, hhi⟩ | hlo
  · interval_cases i <;> simp
  · interval_cases i <;> simp
  · have hfields : ¬ i < 1 ∧ ¬ i - 1 < 3 ∧ ¬ i - 1 - 3 < 4 ∧ ¬ i - 1 - 3 - 4 < 1 ∧
        ¬ i - 1 - 3 - 4 - 1 < 3 ∧ ¬ i - 1 - 3 - 4 - 1 - 3 < 4 ∧
        ¬ i - 1 - 3 - 4 - 1 - 3 - 4 < 1 := by omega
    simp [hfields]

/-- A command goes through only between two others (R221). -/
theorem idle_of_whenIdle_next {s t u : State} (h : whenIdle s u = .next t) : s.held = none := by
  unfold whenIdle at h
  split at h
  · assumption
  · cases h

theorem exec_statusRead {s : State} (hh : s.held = none) :
    exec .statusRead s = .next { s with
      cpc := s.cpc + 1, trace := s.trace ++ [.response { rc := .ok, word := s.status }] } := by
  refine (whenIdle_of_idle _ hh).trans ?_
  rw [respond_of_idle _ hh]
  rfl

/-- Settles O26: the word is the one that the encoder gives, and the response changes no register. -/
theorem statusReadReturnsStatus : Obligations.StatusReadReturnsStatus := by
  unfold Obligations.StatusReadReturnsStatus
  refine ⟨fun w => ?_, fun s => exec_statusRead, fun s i => status_reserved s, fun s t h => ?_⟩
  · have hword : encode .statusRead = .command 0x0A00000000000000 := by decide
    rw [decodeCommand_eq_ok_iff_encode, hword, Wire.command.injEq, eq_comm]
  · cases (exec_statusRead (idle_of_whenIdle_next h)).symm.trans h
    rfl

end Sys2Proof.Machine
end

section
/-!
PROOF. No step stops the machine (R220, R224), and an overlapping command is refused (R221).
-/

namespace Sys2Proof.Machine

/-- Settles O9: only a command could stop the machine, and a command that is decoded between two others
ends or holds. -/
theorem stepAlwaysAnswersNext : Obligations.StepAlwaysAnswersNext := by
  unfold Obligations.StepAlwaysAnswersNext
  intro s
  cases hr : s.resetIn with
  | true => exact ⟨_, step_of_reset hr⟩
  | false =>
    cases hh : s.held with
    | some p => exact ⟨_, step_of_held hr hh⟩
    | none =>
      cases hf : fetch s with
      | none => exact ⟨_, step_of_no_fetch hr hh hf⟩
      | some w =>
        cases hd : decodeCommand w with
        | error e => exact ⟨_, step_of_illegal hr hh hf hd⟩
        | ok i =>
          obtain ⟨t, -, hexec, -⟩ := commandEndsWithOneResponse i s (decodeCommand_isCommand hd) hh
          exact ⟨logStatus t, by rw [step_of_decoded hr hh hf hd, hexec, logOutcome_next]⟩

/-- Every command is executed only between two others (R221). -/
theorem exists_exec_eq_whenIdle {i : Instr} (hi : i.isCommand = true) :
    ∃ k : State → State, ∀ s, exec i s = whenIdle s (k s) := by
  cases i with
  | encInit => exact ⟨_, fun _ => rfl⟩
  | encOne v => exact ⟨_, fun _ => rfl⟩
  | encFinish => exact ⟨_, fun _ => rfl⟩
  | decInit => exact ⟨_, fun _ => rfl⟩
  | dec n => exact ⟨_, fun _ => rfl⟩
  | dencStart start => exact ⟨_, fun _ => rfl⟩
  | dencVal v => exact ⟨_, fun _ => rfl⟩
  | ddecStart base => exact ⟨_, fun _ => rfl⟩
  | ddec n => exact ⟨_, fun _ => rfl⟩
  | statusRead => exact ⟨_, fun _ => rfl⟩
  | cwZero => cases hi
  | cwNonzero n mbits sign => cases hi

theorem whenIdle_of_held {s : State} {p : Held} (t : State) (h : s.held = some p) :
    whenIdle s t = .refused .commandInProgress := by
  simp [whenIdle, h]

/-- Settles O11: every command makes this check first. -/
theorem overlappingCommandRefused : Obligations.OverlappingCommandRefused := by
  unfold Obligations.OverlappingCommandRefused
  intro i s p hi hp
  obtain ⟨k, hexec⟩ := exists_exec_eq_whenIdle hi
  rw [hexec, whenIdle_of_held _ hp]

end Sys2Proof.Machine
end

section
/-!
PROOF. A collaborator that does not answer: the command holds, and a held command stays as it is (R227,
R237).
-/

namespace Sys2Proof.Machine

/-- To hold again at the same point changes nothing (R227). -/
theorem hold_of_held {s : State} {p : Held} (h : s.held = some p) : hold p s = s := by
  rw [hold, ← h]

/-- ENC_FINISH past its checks with pending bits, at a sink that does not answer (R137, R227). -/
theorem finishStream_silent {s : State} (hb : 0 < finishBytes s) (hs : s.sinkAnswers = []) :
    finishStream s = hold .tail s := by
  rcases finishStream_cases hb with ⟨-, e⟩ | ⟨r, he, -⟩ | ⟨l, r, he, -⟩
  · exact e
  · rw [hs] at he; cases he
  · rw [hs] at he; cases he

/-- DecodeLoop with room in the output list and no bit buffered, at a source that does not answer
(R160, R227). -/
theorem decodeLoop_silent {n : Nat} (delta : Bool) {s : State} (hn : s.out.length < n)
    (h0 : s.dec.bitsLeft = 0) (hs : s.srcAnswers = []) :
    decodeLoop n delta s = hold (.read n delta) s :=
  decodeLoop_stop (loopStep_wait hn.ne h0 hs)

/-- A held command whose collaborator has not answered goes on to the point where it held (R227). -/
theorem resume_silent {s : State} {p : Held} (hpoint : s.HeldInv) (hp : s.held = some p)
    (hsrc : ∀ n delta, p = .read n delta → s.srcAnswers = [])
    (hsink : (∀ n delta, p ≠ .read n delta) → s.sinkAnswers = []) : resume p s = s := by
  suffices hk : resume p s = hold p s from hk.trans (hold_of_held hp)
  rw [State.HeldInv, hp] at hpoint
  cases p with
  | word rest count newPrev =>
    rw [resume, resumeWord, flushWord_silent (hsink (by simp))]
    rfl
  | tail =>
    obtain ⟨-, hb, -⟩ := hpoint
    exact finishStream_silent hb (hsink (by simp))
  | flush nb => exact finishFlush_silent nb (hsink (by simp))
  | read n delta =>
    obtain ⟨-, hn, h0, -⟩ := hpoint
    exact decodeLoop_silent delta (s := { s with held := none }) hn h0 (hsrc n delta rfl)

/-- DEC and DDEC with no bit buffered, at a source that does not answer (R167, R194, R227). -/
theorem exec_decode_silent {n : Word32} (delta : Bool) {s : State} (ho : s.DecoderOpen)
    (h0 : s.dec.bitsLeft = 0) (hs : s.srcAnswers = []) (hn : n ≠ 0) :
    exec (if delta then .ddec n else .dec n) s =
      .next { s with out := [], held := some (.read n.toNat delta) } := by
  have hpos : 0 < n.toNat := Nat.pos_of_ne_zero fun h => hn (BitVec.eq_of_toNat_eq h)
  rw [exec_decode_open n delta ho, decodeLoop_silent delta (s := { s with out := [] }) hpos h0 hs, hold]

/-- Settles O12: the first operation at the collaborator is not answered; in a held command it is the one
it holds at. -/
theorem silentCollaboratorHoldsCommand : Obligations.SilentCollaboratorHoldsCommand := by
  unfold Obligations.SilentCollaboratorHoldsCommand
  refine ⟨fun s n ho h0 hs hn => ⟨exec_decode_silent false ho h0 hs hn,
    exec_decode_silent true ho h0 hs hn⟩, fun s ho hb hs => ?_, fun s p h hr hp hsrc hsink => ?_⟩
  · rw [exec_encFinish_open ho, finishStream_silent hb hs, hold]
  · rw [step_of_held hr hp, resume_silent h.heldPoint hp hsrc hsink, logStatus_of_held hp]

end Sys2Proof.Machine
end

section
/-!
PROOF. A faulted unit refuses its commands, its starts clear the fault, and the other unit's commands do
not read it (R225, R228, R230).
-/

namespace Sys2Proof.Machine

/-- The encoder's commands other than the starts make the checks of R225 and R228 first. -/
theorem exists_exec_eq_encoderCommand {i : Instr}
    (h : (∃ v, i = .encOne v) ∨ (∃ v, i = .dencVal v) ∨ i = .encFinish) :
    ∃ rule k, ∀ s, exec i s = whenIdle s (encoderCommand rule k s) := by
  rcases h with ⟨v, rfl⟩ | ⟨v, rfl⟩ | rfl
  · exact ⟨_, _, fun _ => rfl⟩
  · exact ⟨_, _, fun _ => rfl⟩
  · exact ⟨_, _, fun _ => rfl⟩

/-- DEC and DDEC make the check of R225 first. -/
theorem exists_exec_eq_decoderCommand {i : Instr} (h : (∃ n, i = .dec n) ∨ (∃ n, i = .ddec n)) :
    ∃ k, ∀ s, exec i s = whenIdle s (decoderCommand k s) := by
  rcases h with ⟨n, rfl⟩ | ⟨n, rfl⟩
  · exact ⟨_, fun _ => rfl⟩
  · exact ⟨_, fun _ => rfl⟩

theorem encoderCommand_faulted (rule : Nat) (k : State → State) {s : State} {f : EncFault}
    (h : s.enc.efault = some f) : encoderCommand rule k s = respond (refusedResponse f.code) s := by
  simp [encoderCommand, h]

theorem decoderCommand_faulted (k : State → State) {s : State} {f : DecFault}
    (h : s.dec.dfault = some f) : decoderCommand k s = respond (refusedResponse f.code) s := by
  simp [decoderCommand, h]

/-- The encoder's starts make no check of EFAULT (R230). -/
theorem exists_exec_eq_startEncoder {i : Instr} {s : State} (hh : s.held = none)
    (h : i = .encInit ∨ ∃ start, i = .dencStart start) :
    ∃ prev, exec i s = .next (respond (okResponse 0) (startEncoder prev s)) := by
  rcases h with rfl | ⟨start, rfl⟩
  · exact ⟨0, whenIdle_of_idle _ hh⟩
  · exact ⟨start, whenIdle_of_idle _ hh⟩

/-- The decoder's starts make no check of DFAULT (R230). -/
theorem exists_exec_eq_startDecoder {i : Instr} {s : State} (hh : s.held = none)
    (h : i = .decInit ∨ ∃ base, i = .ddecStart base) :
    ∃ base, exec i s = .next (respond (okResponse 0) (startDecoder base s)) := by
  rcases h with rfl | ⟨base, rfl⟩
  · exact ⟨0, whenIdle_of_idle _ hh⟩
  · exact ⟨base, whenIdle_of_idle _ hh⟩

/-- DEC is decided by the decoder's side, of which the encoder's registers are no part (R33, R225). -/
theorem exec_dec_withEnc (n : Word32) {s : State} (hh : s.held = none) :
    ∃ d : DecSide, ∀ enc : EncUnit s.wordBytes,
      exec (.dec n) { s with enc := enc } = .next (d.on { s with enc := enc }) := by
  obtain ⟨d, -, hexec⟩ := exec_decoder_local (i := .dec n) (d := s.decSide) trivial hh
  exact ⟨d, fun enc => hexec { s with enc := enc }⟩

/-- Settles O39: the refusal is the first check of each command, the starts make no check, and the fault
of the encoder is outside the decoder's side. -/
theorem faultedUnitRefusesCommands : Obligations.FaultedUnitRefusesCommands := by
  unfold Obligations.FaultedUnitRefusesCommands
  refine ⟨fun s f i hh hf hi => ?_, fun s f i hh hf hi => ?_, fun s i hh hi => ?_,
    fun s i hh hi => ?_, fun s f g _ hh n t u ht hu => ?_⟩
  · obtain ⟨rule, k, hexec⟩ := exists_exec_eq_encoderCommand hi
    rw [hexec, whenIdle_of_idle _ hh, encoderCommand_faulted rule k hf, respond_of_idle _ hh]
    rfl
  · obtain ⟨k, hexec⟩ := exists_exec_eq_decoderCommand hi
    rw [hexec, whenIdle_of_idle _ hh, decoderCommand_faulted k hf, respond_of_idle _ hh]
    rfl
  · obtain ⟨prev, hexec⟩ := exists_exec_eq_startEncoder hh hi
    exact ⟨_, hexec, rfl, rfl, rfl, rfl⟩
  · obtain ⟨base, hexec⟩ := exists_exec_eq_startDecoder hh hi
    exact ⟨_, hexec, rfl, rfl, rfl, rfl⟩
  · obtain ⟨d, hexec⟩ := exec_dec_withEnc n hh
    cases (hexec _).symm.trans ht
    cases (hexec _).symm.trans hu
    exact ⟨rfl, rfl⟩

end Sys2Proof.Machine
end

section
/-!
PROOF. The reset input, and the starts that leave the same registers (R250 to R252).
-/

namespace Sys2Proof.Machine

/-- STATUS with every field clear (R37). -/
theorem status_eq_zero {s : State} (hill : s.ill = false) (hdfault : s.dec.dfault = none)
    (hdexh : s.dec.dexh = false) (hefault : s.enc.efault = none) (hefin : s.enc.efin = false) :
    s.status = 0 := by
  rw [State.status, hill, hdfault, hdexh, hefault, hefin]
  decide

@[simp] theorem applyReset_status (s : State) : (applyReset s).status = 0 :=
  status_eq_zero rfl rfl rfl rfl rfl

/-- The whole step of the reset input: the record takes the STATUS of the reset state (R250, log 25). -/
theorem step_reset {s : State} (h : s.resetIn = true) :
    step s = .next { applyReset s with statusValues := s.statusValues ++ [0] } := by
  rw [step_of_reset h, logStatus_of_idle rfl, applyReset_status]
  rfl

/-- A start at base 0 leaves the reset state's decoder, but for the unspecified registers (R252). -/
theorem live_start_zero (k : Nat) : (DecUnit.start k 0).live = State.reset.dec.live := rfl

/-- Settles O20: the registers are those that the reset writes, the rest those it keeps. -/
theorem resetInputLeavesResetState : Obligations.ResetInputLeavesResetState := by
  unfold Obligations.ResetInputLeavesResetState
  intro s hr
  refine ⟨_, step_reset hr, startEncoder_acc_bit 0 s, ?_⟩
  exact ⟨rfl, rfl, rfl, rfl, rfl, rfl, rfl, rfl, rfl, rfl, rfl, rfl, applyReset_status s, rfl, rfl, rfl,
    rfl, rfl, rfl⟩

/-- Settles O21: ENC_INIT and DEC_INIT each make their unit's half of what the reset input makes. -/
theorem resetStateIsStartState : Obligations.ResetStateIsStartState := by
  unfold Obligations.ResetStateIsStartState
  obtain ⟨-, hencInit⟩ := encInitStartsStream
  refine ⟨hencInit, fun s hh => ⟨_, live_start_zero s.freeCount, exec_decInit hh⟩, rfl, fun wb => ?_,
    fun s hr => ⟨_, step_reset hr, rfl, rfl, live_start_zero s.freeCount, rfl, ?_, ?_⟩⟩
  · exact ⟨rfl, rfl, ⟨rfl, rfl, rfl⟩, ⟨rfl, rfl⟩⟩
  · exact ⟨rfl, rfl, rfl⟩
  · exact ⟨rfl, rfl⟩

end Sys2Proof.Machine
end
